-- ==== Sys2Proof/Word.lean ====
section
/-! DEFINITION. The values the machine moves: bytes, and the "no value" of a failed read. -/

namespace Sys2Proof

/-- A data byte, 0 to 255 (R12 of 00_scope.md). -/
abbrev Byte := BitVec 8

/-- `Byte⊥` of R22: a byte, or `none` for ABSENT, the "no value" of a read outside the window. -/
abbrev MaybeByte := Option Byte

/-- A window-relative index; `none` is the index built from an absent operand byte (R26, R84). -/
abbrev Index := Option Nat

end Sys2Proof
end

