-- ==== Sys2Proof/Config.lean ====
section
/-! DEFINITION. What an implementation fixes (R10 to R18) and the free values the spec draws (R29, R304). -/

namespace Sys2Proof

/-- SWITCH_SAVE of R15. -/
inductive SwitchSave where
  | faithful
  | corrected
deriving DecidableEq, Repr

/-- The parameters of the machine (R66). They are carried in the state so that a statement about every state is a
statement about every value of them; no step changes them. `bindWindow` (R16) is not here: its answer comes with the
command that asks for it (log 7). -/
structure Config where
  /-- MEMORY_SIZE, R10. -/
  memorySize : Nat
  /-- MEM_SEGMENT_SIZE, R11: never read by the block, only by the memory manager. -/
  memSegmentSize : Nat
  /-- PC_WIDTH, R14. -/
  pcWidth : Nat
  /-- SWITCH_SAVE, R15. -/
  switchSave : SwitchSave
  /-- MEMORY_PRESENT, R18. -/
  memoryPresent : Bool
deriving DecidableEq, Repr

/-- R10 and R11: both sizes are positive integers. -/
def Config.wf (c : Config) : Bool := decide (0 < c.memorySize) && decide (0 < c.memSegmentSize)

/-- The test platform of D36 (92_eei_decisions.md), with the default PC_WIDTH of R14 and SWITCH_SAVE of R15. It is not a
claim about the source. DESIGN CHOICE, unsafe where a claim rests on one of the numbers (log 1). -/
def Config.testPlatform : Config where
  memorySize := 0x800
  memSegmentSize := 0x200
  pcWidth := 16
  switchSave := .faithful
  memoryPresent := true

/-- The byte that draw number `n` of the reset contents puts at absolute address `a` (R304: each cell is any value).
Uninterpreted: a claim holds for every draw. Log 2, safe. -/
opaque Config.resetByte (n a : Nat) : Byte

/-- The `base` that RESET number `n` leaves (R301: any value). Uninterpreted. Log 3, safe. -/
opaque Config.resetBase (n : Nat) : Nat

/-- The `limit` that RESET number `n` leaves (R301: any value). Uninterpreted. Log 3, safe. -/
opaque Config.resetLimit (n : Nat) : Nat

end Sys2Proof
end

