-- ==== Sys2Proof/Syntax.lean ====
section
/-! DEFINITION. The instructions: one constructor per row of spec/opcode_table.json (R126). -/

namespace Sys2Proof

/-- One constructor per row. An operand is a byte of the instruction stream, which is absent (`none`) when its index is
outside the window (R127). `lo` and `hi` are the two address bytes in stream order (R123). -/
inductive Instr where
  /-- A9 nn, R170. -/
  | ldaImm (imm : MaybeByte)
  /-- AD lo hi, R172. -/
  | ldaAbs (lo hi : MaybeByte)
  /-- 8D lo hi, R174. -/
  | staAbs (lo hi : MaybeByte)
  /-- 6D lo hi, R190. -/
  | adcAbs (lo hi : MaybeByte)
  /-- A2 nn, R176. -/
  | ldxImm (imm : MaybeByte)
  /-- AE lo hi, R178. -/
  | ldxAbs (lo hi : MaybeByte)
  /-- A0 nn, R180. -/
  | ldyImm (imm : MaybeByte)
  /-- AC lo hi, R182. -/
  | ldyAbs (lo hi : MaybeByte)
  /-- EA, R206. -/
  | nop
  /-- 00, R208. -/
  | brk
  /-- EC lo hi, R200. -/
  | cpxAbs (lo hi : MaybeByte)
  /-- D0 lo hi, R210. -/
  | bneAbs (lo hi : MaybeByte)
  /-- EE lo hi, R197. -/
  | incAbs (lo hi : MaybeByte)
  /-- FF, R220. The inline string is not an operand: it is consumed when X is 2 at run time (R124). -/
  | sys
  /-- Any other byte, or the absent value: `ir` is what IR holds (R129, R130, R212). -/
  | unknown (ir : MaybeByte)
deriving DecidableEq, Repr

end Sys2Proof
end

