-- ==== Sys2Proof/WellFormed.lean ====
section
/-! DEFINITION. The instructions that are words of memory: every operand byte is there, and an unknown instruction is
an illegal opcode byte (R129, R131). -/

namespace Sys2Proof

/-- The 242 illegal opcode bytes, by the ranges R129 of 30_encoding.md lists. -/
def illegalOpcode (b : Byte) : Bool :=
  let n := b.toNat
  (decide (0x01 ≤ n) && decide (n ≤ 0x6C)) || (decide (0x6E ≤ n) && decide (n ≤ 0x8C))
    || (decide (0x8E ≤ n) && decide (n ≤ 0x9F)) || n == 0xA1
    || (decide (0xA3 ≤ n) && decide (n ≤ 0xA8)) || n == 0xAA || n == 0xAB
    || (decide (0xAF ≤ n) && decide (n ≤ 0xCF)) || (decide (0xD1 ≤ n) && decide (n ≤ 0xE9))
    || n == 0xEB || n == 0xED || (decide (0xEF ≤ n) && decide (n ≤ 0xFE))

/-- Every imm8 and every (lo, hi) pair is a legal operand (R131); an absent operand byte is no byte of a program. -/
def Instr.wf : Instr → Bool
  | .ldaImm imm => imm.isSome
  | .ldaAbs lo hi => lo.isSome && hi.isSome
  | .staAbs lo hi => lo.isSome && hi.isSome
  | .adcAbs lo hi => lo.isSome && hi.isSome
  | .ldxImm imm => imm.isSome
  | .ldxAbs lo hi => lo.isSome && hi.isSome
  | .ldyImm imm => imm.isSome
  | .ldyAbs lo hi => lo.isSome && hi.isSome
  | .nop => true
  | .brk => true
  | .cpxAbs lo hi => lo.isSome && hi.isSome
  | .bneAbs lo hi => lo.isSome && hi.isSome
  | .incAbs lo hi => lo.isSome && hi.isSome
  | .sys => true
  | .unknown none => false
  | .unknown (some b) => illegalOpcode b

end Sys2Proof
end

