-- ==== Sys2Proof/Decode.lean ====
section
/-! DEFINITION. Decoding, total on any bytes, and after it the encoder (30_encoding.md). -/

namespace Sys2Proof

/-- What follows an opcode byte (R120): no operand byte (formats I and SYS), one (IMM) or two (ABS). -/
inductive Shape where
  | none (i : Instr)
  | one (mk : MaybeByte → Instr)
  | two (mk : MaybeByte → MaybeByte → Instr)

/-- One row of the opcode map. -/
structure OpcodeRow where
  opcode : Byte
  mnemonic : String
  shape : Shape

/-- The opcode map of R126, in the table's order. Decoding uses the whole byte (R125). -/
def opcodeTable : List OpcodeRow :=
  [ ⟨0xA9#8, "LDA", .one .ldaImm⟩,
    ⟨0xAD#8, "LDA", .two .ldaAbs⟩,
    ⟨0x8D#8, "STA", .two .staAbs⟩,
    ⟨0x6D#8, "ADC", .two .adcAbs⟩,
    ⟨0xA2#8, "LDX", .one .ldxImm⟩,
    ⟨0xAE#8, "LDX", .two .ldxAbs⟩,
    ⟨0xA0#8, "LDY", .one .ldyImm⟩,
    ⟨0xAC#8, "LDY", .two .ldyAbs⟩,
    ⟨0xEA#8, "NOP", .none .nop⟩,
    ⟨0x00#8, "BRK", .none .brk⟩,
    ⟨0xEC#8, "CPX", .two .cpxAbs⟩,
    ⟨0xD0#8, "BNE", .two .bneAbs⟩,
    ⟨0xEE#8, "INC", .two .incAbs⟩,
    ⟨0xFF#8, "SYS", .none .sys⟩ ]

/-- R152: the whole value of IR selects one row; a value with no row, the absent value included, selects the
unknown-instruction handler (R130). -/
def decodeOpcode (ir : MaybeByte) : Shape :=
  match ir with
  | none => .none (.unknown none)
  | some b =>
    match opcodeTable.find? (fun row => row.opcode == b) with
    | some row => row.shape
    | none => .none (.unknown (some b))

/-- Why a list of bytes is no instruction. -/
inductive DecodeError where
  /-- There is no byte at all. -/
  | noOpcode
  /-- The list ends before the instruction's last operand byte. -/
  | missingOperand
deriving DecidableEq, Repr

/-- Decode the instruction at the front of a list of bytes in increasing index order (R21, R120), and the bytes after it.
The string of a SYS is not part of it: its length is not static (R132). -/
def decode : List Byte → Except DecodeError (Instr × List Byte)
  | [] => .error .noOpcode
  | b :: rest =>
    match decodeOpcode (some b), rest with
    | .none i, rest => .ok (i, rest)
    | .one mk, v :: rest => .ok (mk (some v), rest)
    | .two mk, lo :: hi :: rest => .ok (mk (some lo) (some hi), rest)
    | .one _, [] => .error .missingOperand
    | .two _, _ => .error .missingOperand

/-- The `n` low bytes of `w`, the least significant first: the first byte of an instruction is at the lowest index. -/
def wordBytes : Nat → Nat → List Byte
  | 0, _ => []
  | n + 1, w => BitVec.ofNat 8 w :: wordBytes n (w / 256)

/-- How many bytes the longest static encoding has (format ABS, R123). -/
def maxEncodedBytes : Nat := 3

/-- The bytes of the instruction whose `nbits` bits are `w`, as spec/opcode_table.json numbers them, every bit above
`nbits` being 0. -/
def tableWordBytes (nbits w : Nat) : List Byte :=
  wordBytes (max maxEncodedBytes ((nbits + 7) / 8)) (w % 2 ^ nbits)

/-- The instruction the decoder reads from that word. -/
def decodeTableWord (nbits w : Nat) : Option Instr :=
  match decode (tableWordBytes nbits w) with
  | .ok (i, _) => some i
  | .error _ => none

/-! ## The encoder, from the format tables of R121 to R124 and the opcodes of R126 -/

/-- Format IMM (R122). -/
def encodeImm (opcode : Byte) (imm : MaybeByte) : Option (List Byte) :=
  imm.map fun v => [opcode, v]

/-- Format ABS (R123). -/
def encodeAbs (opcode : Byte) (lo hi : MaybeByte) : Option (List Byte) :=
  lo.bind fun l => hi.map fun h => [opcode, l, h]

/-- The bytes of an instruction; `none` where an operand byte is absent, or where an unknown instruction is not an
illegal opcode byte. -/
def encode : Instr → Option (List Byte)
  | .ldaImm imm => encodeImm 0xA9#8 imm
  | .ldaAbs lo hi => encodeAbs 0xAD#8 lo hi
  | .staAbs lo hi => encodeAbs 0x8D#8 lo hi
  | .adcAbs lo hi => encodeAbs 0x6D#8 lo hi
  | .ldxImm imm => encodeImm 0xA2#8 imm
  | .ldxAbs lo hi => encodeAbs 0xAE#8 lo hi
  | .ldyImm imm => encodeImm 0xA0#8 imm
  | .ldyAbs lo hi => encodeAbs 0xAC#8 lo hi
  | .nop => some [0xEA#8]
  | .brk => some [0x00#8]
  | .cpxAbs lo hi => encodeAbs 0xEC#8 lo hi
  | .bneAbs lo hi => encodeAbs 0xD0#8 lo hi
  | .incAbs lo hi => encodeAbs 0xEE#8 lo hi
  | .sys => some [0xFF#8]
  | .unknown none => none
  | .unknown (some b) => if illegalOpcode b then some [b] else none

/-- How many bytes the encoding of an instruction has: the length column of R126, a SYS counted without its string. -/
def Instr.length : Instr → Nat
  | .ldaImm _ | .ldxImm _ | .ldyImm _ => 2
  | .nop | .brk | .sys | .unknown _ => 1
  | .ldaAbs _ _ | .staAbs _ _ | .adcAbs _ _ | .ldxAbs _ _ | .ldyAbs _ _ | .cpxAbs _ _ | .bneAbs _ _ | .incAbs _ _ => 3

/-- The operand bytes that R313 gives for window index `i`: `hi = i div 255` and `lo = i mod 255`, but for 0xFF00.
An index above 0xFF00 cannot be named (R99). -/
def addressOperand (i : Nat) : Option (Byte × Byte) :=
  if i = 0xFF00 then some (0xFF#8, 0xFF#8)
  else if i < 0xFF00 then some (BitVec.ofNat 8 (i % 255), BitVec.ofNat 8 (i / 255))
  else none

end Sys2Proof
end

