-- ==== Sys2Proof/Machine/State.lean ====
section
/-! DEFINITION. The state of the block (10_state.md), the transactions it answers, and the ways a step can stop. -/

namespace Sys2Proof.Machine

/-! ## Events -/

/-- The direction of an access that failed the fence (R60). -/
inductive Direction where
  | read
  | write
deriving DecidableEq, Repr

/-- The cause of the machine-fatal trap (R276, R278). -/
inductive TrapCause where
  | backingStoreMissing
deriving DecidableEq, Repr

/-- The events of the output log (R60). -/
inductive Event where
  /-- A failed fence at a window-relative index, which is absent where an operand byte was. -/
  | outOfRange (dir : Direction) (index : Index)
  /-- A TICK decoded an opcode that is not in the table; `ir` is the IR value. -/
  | unknownInstruction (ir : MaybeByte)
  /-- SYS with X = 1. -/
  | sysNumber (n : Byte)
  /-- SYS with X = 2: the non-zero bytes read. -/
  | sysString (bytes : List Byte)
  /-- A DISPATCH command completed (R259); observational only (R260). -/
  | processTableChanged
  /-- RESET with MEMORY_PRESENT false (R276). -/
  | trap (cause : TrapCause)
deriving DecidableEq, Repr

/-! ## Model faults -/

/-- A fault kind with its info, as R271 lists the recorded values. -/
inductive ModelFault where
  /-- UNDEF_USE (R280): the instruction with its operand bytes, and the values it was to compute with (log 10). -/
  | undefUse (instr : Instr) (values : List MaybeByte)
  /-- PC_OVERFLOW (R281): the old PC and the addend. -/
  | pcOverflow (oldPc addend : Nat)
  /-- WINDOW_EXCEEDS_MEMORY (R282): the absolute address. -/
  | windowExceedsMemory (address : Nat)
  /-- UNBOUND_WINDOW (R283): the index. -/
  | unboundWindow (index : Index)
  /-- INCONSISTENT_DISPATCH (R284): the PIDs involved, the incoming one first (log 11). -/
  | inconsistentDispatch (pids : List Nat)
  /-- UNKNOWN_PCB (R285): the PID. -/
  | unknownPcb (pid : Nat)
  /-- BAD_HOST_VALUE (R286): the value, or the data, the host gave. -/
  | badHostValue (values : List Nat)
deriving DecidableEq, Repr

/-! ## Process control blocks -/

/-- The lifecycle states of R57; NEW is the creation state (D21). -/
inductive ProcessState where
  | new
  | ready
  | running
  | stopped
  | done
deriving DecidableEq, Repr

/-- A process control block: the fields of R56, and no others. -/
structure Pcb where
  processID : Nat
  pc : Nat
  ir : MaybeByte
  acc : MaybeByte
  x : MaybeByte
  y : MaybeByte
  z : Bool
  /-- Opaque: never read by the block (R17, log 15). -/
  priority : Nat
  processLocation : Nat
  processState : ProcessState
deriving DecidableEq, Repr

/-- An accessor window: the answer of BIND_WINDOW (R16). `limit` is inclusive (R85). -/
structure Window where
  base : Nat
  limit : Nat
deriving DecidableEq, Repr

/-! ## Transactions -/

/-- What the environment can ask of the block: the `in` rows of R8 and the host table of R290. -/
inductive Command where
  /-- `CPU.cycle()`, R150. -/
  | tick
  /-- `CPU.init()`, R300. -/
  | cpuInit
  /-- The full system reset, R301. -/
  | reset
  /-- R244. `window` is the memory manager's answer to the BIND_WINDOW call it makes (R16, log 7). -/
  | dispatchStart (pid : Nat) (window : Window)
  /-- R247. -/
  | dispatchSync
  /-- R250. -/
  | dispatchStop (pid : Nat)
  /-- R252. -/
  | dispatchEnd (pid : Nat)
  /-- R254 and R255. `window` as in `dispatchStart`. -/
  | dispatchSwitch (outgoing : Option Nat) (incoming : Nat) (window : Window)
  /-- R88. -/
  | accUseSegment (base limit : Nat)
  /-- R92. -/
  | accGet (index : Nat)
  /-- R93. -/
  | accSet (index value : Nat)
  /-- R96. -/
  | accGetArray (start stop : Nat)
  /-- R97. -/
  | accSetArray (start : Nat) (data : List Nat)
  /-- R290. -/
  | ptCreate (pcb : Pcb)
  /-- R290. -/
  | ptSetState (pid : Nat) (state : ProcessState)
  /-- R290. -/
  | ptRemove (pid : Nat)
deriving DecidableEq, Repr

/-- What an ACC read returns to the host: `none` is the absent value (R92, R96). -/
inductive Reply where
  | byte (value : MaybeByte)
  | array (bytes : Option (List Byte))
deriving DecidableEq, Repr

/-! ## The state -/

/-- Everything the spec gives the block, and below the line the model's own fields. -/
structure State where
  /-- PC, a window-relative index (R41). -/
  pc : Nat
  /-- IR (R42). -/
  ir : MaybeByte
  /-- Acc (R43). -/
  acc : MaybeByte
  /-- X (R43). -/
  x : MaybeByte
  /-- Y (R43). -/
  y : MaybeByte
  /-- Z, the only flag (R45, R46). -/
  z : Bool
  /-- CPU_RUNNING when true, CPU_HALTED when false (R47). -/
  isExecuting : Bool
  /-- The PID that owns the register set (R48). -/
  pid : Nat
  /-- The window's base, an absolute address (R50). -/
  base : Nat
  /-- The window's limit, an absolute address, inclusive (R50, R85). -/
  limit : Nat
  /-- Whether a window has been bound since reset (R51). -/
  bound : Bool
  /-- MEM (R52): the cells written since the last RESET, addresses strictly rising (log 2). -/
  mem : List Host.Cell
  /-- PT (R55), in insertion order. -/
  pt : List Pcb
  /-- OUT (R60), oldest first. -/
  out : List Event
  /-- FAULT (R63). -/
  faults : List ModelFault
  /-- TRAPPED (R64). -/
  trapped : Bool
  /-- The model's own: the parameters of R66, changed by no step (log 1). -/
  config : Config
  /-- The model's own: the number of the current draw of free values, one more at each RESET (log 4). -/
  draw : Nat
  /-- The model's own: what the last ACC_GET or ACC_GETARRAY returned (log 8). -/
  reply : Option Reply
  /-- The model's own: the transactions the host has queued, oldest first (log 6). -/
  pending : List Command
deriving DecidableEq, Repr

/-! ## How a step can stop -/

/-- Why the machine has stopped. R287 and R276: the machine stops, and every later transaction is refused with nothing
changed; the host interface has no next state for such a transaction. -/
inductive Fault where
  /-- Raised by every transaction asked of a machine whose FAULT is not empty (R63, R287). Safe: the original software may
  go on where the model stops. -/
  | modelFault
  /-- Raised by every transaction asked of a machine whose TRAPPED is true (R64, R276). Safe: no next state is claimed. -/
  | trapped
deriving DecidableEq, Repr

/-- Why there is no transition. -/
inductive Refusal where
  /-- Raised by exec's arm of an instruction with no meaning yet. Safe. -/
  | notModelled (mnemonic : String)
  /-- Raised by PT_CREATE of a PCB whose PID is taken, whose state is not NEW, or whose saved PC is no PC value: a host
  action outside the table of R290 (I26, log 13). Safe. -/
  | ptCreateOutsideTable
  /-- Raised by PT_SET_STATE other than to READY, or of a PID that names no PCB in NEW: outside the table of R290 (C13, I26,
  log 13). Safe. -/
  | ptSetStateOutsideTable
  /-- Raised by PT_REMOVE of a PID that names no PCB: outside the table of R290 (I26, log 13). Safe. -/
  | ptRemoveOutsideTable
deriving DecidableEq, Repr

/-- What an instruction, or a step, answers. -/
abbrev Answer := Host.Outcome State Fault Refusal

/-- The machine right after reset: the RESET column of R302 with MEMORY_PRESENT true. The parameters (log 1), `base` and
`limit` (log 3), `draw` (log 4), `pending` (log 6) and `reply` (log 8) hold values the model names. -/
def State.reset : State where
  pc := 0
  ir := some 0
  acc := some 0
  x := some 0
  y := some 0
  z := false
  isExecuting := false
  pid := 0
  base := 0
  limit := 0
  bound := false
  mem := []
  pt := []
  out := []
  faults := []
  trapped := false
  config := Config.testPlatform
  draw := 0
  reply := none
  pending := []

end Sys2Proof.Machine
end

