-- ==== Sys2Proof/Machine/Ops.lean ====
section
/-! DEFINITION. The named operations: memory cells, events, halting, the model fault (the one way a transaction stops, in
place of an exception entry: R273, R287), the program counter, and the accessor's read and write (R83 to R95). -/

namespace Sys2Proof.Machine

/-! ## Memory -/

/-- The byte written at address `a` since the last RESET, if one was. An unlisted address has none: its cell still holds
the byte the reset drew, see `State.cell` (R304, log 2). -/
def memLookup : List Host.Cell → Nat → Option Byte
  | [], _ => none
  | (b, v) :: rest, a => if a = b then some v else memLookup rest a

/-- Write one cell, keeping the addresses strictly rising. -/
def memInsert : List Host.Cell → Nat → Byte → List Host.Cell
  | [], a, v => [(a, v)]
  | (b, w) :: rest, a, v =>
    if a < b then (a, v) :: (b, w) :: rest
    else if a = b then (a, v) :: rest
    else (b, w) :: memInsert rest a v

/-- The canonical form of memory: every address is below the ones after it. -/
def memWf : List Host.Cell → Bool
  | [] => true
  | c :: rest => rest.all (fun d => decide (c.1 < d.1)) && memWf rest

/-- The byte in the cell at absolute address `a`: the model's read of one byte. -/
def State.cell (s : State) (a : Nat) : Byte :=
  (memLookup s.mem a).getD (Config.resetByte s.draw a)

/-- MEM[a] <- v. -/
def State.setCell (s : State) (a : Nat) (v : Byte) : State :=
  { s with mem := memInsert s.mem a v }

/-- MEM[a], MEM[a+1], ... <- the bytes, in order. -/
def State.setCells (s : State) (a : Nat) : List Byte → State
  | [] => s
  | v :: rest => (s.setCell a v).setCells (a + 1) rest

/-! ## Events, halting, model faults -/

/-- `emit(e)` of R28. -/
def State.emit (e : Event) (s : State) : State :=
  { s with out := s.out ++ [e] }

/-- `halt()` of R28. -/
def State.halt (s : State) : State :=
  { s with isExecuting := false }

/-- `raise F(info)` of R28 and R287: the fault joins FAULT, a set (R63); the effects already made stay. -/
def State.raise (f : ModelFault) (s : State) : State :=
  { s with faults := if f ∈ s.faults then s.faults else s.faults ++ [f] }

/-- What an operation inside a transaction gives: a value and the state so far, or, after `raise`, the state in which the
transaction ends (R155, R287). -/
inductive Res (α : Type) where
  | val (a : α) (s : State)
  | raised (s : State)

/-- Go on with the value, or end with the fault. -/
def Res.bind {α β : Type} (r : Res α) (f : α → State → Res β) : Res β :=
  match r with
  | .val a s => f a s
  | .raised s => .raised s

/-- The state a finished or ended operation leaves. -/
def Res.state {α : Type} : Res α → State
  | .val _ s => s
  | .raised s => s

/-- The answer of a meaning or command: a recorded fault is a next state too (log 5). -/
def Res.answer {α : Type} (r : Res α) : Answer := .next r.state

/-- End the operation with a model fault. -/
def raise {α : Type} (f : ModelFault) (s : State) : Res α := .raised (s.raise f)

/-! ## The program counter -/

/-- PC <- PC + d. The PC never wraps: a result of 2^PC_WIDTH or more is PC_OVERFLOW (R14, R41, R281). -/
def advancePc (d : Nat) (s : State) : Res Unit :=
  if s.pc + d < 2 ^ s.config.pcWidth then .val () { s with pc := s.pc + d }
  else raise (.pcOverflow s.pc d) s

/-! ## The MemoryAccessor -/

/-- The fence of R84, one-sided: an absent index fails it. -/
def State.inSegment (s : State) : Index → Bool
  | none => false
  | some i => decide (s.base + i ≤ s.limit)

/-- The absolute address of an index (R83). Only used once the fence has passed, when the index is there. -/
def State.address (s : State) (i : Index) : Nat := s.base + i.getD 0

/-- `getValue(i)` / `MemRead(i, 1)`, R92. -/
def memRead (i : Index) (s : State) : Res MaybeByte :=
  if !s.bound then raise (.unboundWindow i) s
  else if s.inSegment i then
    if s.config.memorySize ≤ s.address i then raise (.windowExceedsMemory (s.address i)) s
    else .val (some (s.cell (s.address i))) s
  else .val none (s.emit (.outOfRange .read i))

/-- `setValue(i, v)` / `MemWrite(i, 1, v)`, R93. `undef` is the fault an absent value raises when the fence passes; a
dropped write does not look at the value. -/
def memWrite (i : Index) (v : MaybeByte) (undef : ModelFault) (s : State) : Res Unit :=
  if !s.bound then raise (.unboundWindow i) s
  else if s.inSegment i then
    if s.config.memorySize ≤ s.address i then raise (.windowExceedsMemory (s.address i)) s
    else
      match v with
      | none => raise undef s
      | some b => .val () (s.setCell (s.address i) b)
  else .val () (s.emit (.outOfRange .write i))

/-- `useSegment(b, l)`, R88: no validation, no event. -/
def State.useSegment (w : Window) (s : State) : State :=
  { s with base := w.base, limit := w.limit, bound := true }

end Sys2Proof.Machine
end

