-- ==== Sys2Proof/Machine/Accessor.lean ====
section
/-! DEFINITION. The host's accessor commands (R88, R92, R93, R96, R97, R109). They use the window the CPU uses. -/

namespace Sys2Proof.Machine

/-- ACC_GET, R92: the value goes back to the host. -/
def accGet (i : Nat) (s : State) : Res Unit :=
  (memRead (some i) s).bind fun v s => .val () { s with reply := some (.byte v) }

/-- ACC_SET, R93: the bound check, then the value check, then the fence (D32). -/
def accSet (i v : Nat) (s : State) : Res Unit :=
  if !s.bound then raise (.unboundWindow (some i)) s
  else if 255 < v then raise (.badHostValue [v]) s
  else memWrite (some i) (some (BitVec.ofNat 8 v)) (.badHostValue [v]) s

/-- Report an endpoint of a bulk access that fails the fence (R96, R97). -/
def State.checkEndpoint (dir : Direction) (i : Nat) (s : State) : State :=
  if s.inSegment (some i) then s else s.emit (.outOfRange dir (some i))

/-- Report both endpoints, the first one first. -/
def State.checkEndpoints (dir : Direction) (first last : Nat) (s : State) : State :=
  (s.checkEndpoint dir first).checkEndpoint dir last

/-- The first absolute address of `a .. last` that is not in memory, if there is one (R86, R96, R97; log 22). -/
def State.firstBeyond (s : State) (a last : Nat) : Option Nat :=
  if s.config.memorySize ≤ last then some (max a s.config.memorySize) else none

/-- The bytes of the cells from absolute address `a` on. -/
def State.cells (s : State) (a : Nat) : Nat → List Byte
  | 0 => []
  | n + 1 => s.cell a :: s.cells (a + 1) n

/-- ACC_GETARRAY, R96: inclusive of both endpoints, all or nothing (D20). -/
def accGetArray (start stop : Nat) (s : State) : Res Unit :=
  if !s.bound then raise (.unboundWindow (some start)) s
  else if !(s.inSegment (some start) && s.inSegment (some stop)) then
    .val () { s.checkEndpoints .read start stop with reply := some (.array none) }
  else if stop < start then .val () { s with reply := some (.array (some [])) }
  else
    match s.firstBeyond (s.base + start) (s.base + stop) with
    | some a => raise (.windowExceedsMemory a) s
    | none => .val () { s with reply := some (.array (some (s.cells (s.base + start) (stop - start + 1)))) }

/-- ACC_SETARRAY, R97: the data check, then both endpoints, then the write, all or nothing (D20). -/
def accSetArray (start : Nat) (data : List Nat) (s : State) : Res Unit :=
  if !s.bound then raise (.unboundWindow (some start)) s
  else if data = [] then .val () s
  else if data.any (fun v => decide (255 < v)) then raise (.badHostValue data) s
  else
    let last := start + data.length - 1
    if !(s.inSegment (some start) && s.inSegment (some last)) then .val () (s.checkEndpoints .write start last)
    else
      match s.firstBeyond (s.base + start) (s.base + last) with
      | some a => raise (.windowExceedsMemory a) s
      | none => .val () (s.setCells (s.base + start) (data.map (BitVec.ofNat 8)))

end Sys2Proof.Machine
end

