-- ==== Sys2Proof/Machine/Flags.lean ====
section
/-! DEFINITION. The byte arithmetic and the one flag computation (R45, R46). -/

namespace Sys2Proof.Machine

/-- (a + b) mod 256, with no carry in or out (R191, D1). -/
def addByte (a b : Byte) : Byte := BitVec.ofNat 8 (a.toNat + b.toNat)

/-- (m + 1) mod 256 (R197, D1). -/
def incByte (m : Byte) : Byte := BitVec.ofNat 8 (m.toNat + 1)

/-- The Z that CPX computes: true if and only if the bytes are equal (R200, R201). -/
def equalFlag (x m : Byte) : Bool := decide (x.toNat = m.toNat)

end Sys2Proof.Machine
end

