-- ==== Sys2Proof/Machine/Operands.lean ====
section
/-! DEFINITION. The operand forms: the next byte of the instruction stream, the two-byte address, and the fetch of an
instruction's operands (R25 to R27, R127, R153, R169). -/

namespace Sys2Proof.Machine

/-- `Next8()`, R25: pre-increment PC, then read. -/
def next8 (s : State) : Res MaybeByte :=
  (advancePc 1 s).bind fun _ s => memRead (some s.pc) s

/-- The value of `Addr16()` for the two bytes consumed (R26): the low byte first, and the multiplier 0xFF (R13, R98).
Absent when either byte is (D4). -/
def addr16 (lo hi : MaybeByte) : Index :=
  lo.bind fun l => hi.map fun h => l.toNat + h.toNat * 0xFF

/-- Consume the operand bytes the opcode asks for and build the instruction. They are consumed first, in stream order,
whatever the instruction then does with them (R127, R153). -/
def fetchOperands (shape : Shape) (s : State) : Res Instr :=
  match shape with
  | .none i => .val i s
  | .one mk => (next8 s).bind fun v s => .val (mk v) s
  | .two mk => (next8 s).bind fun lo s => (next8 s).bind fun hi s => .val (mk lo hi) s

/-- Read the byte a two-byte address operand names (R127). -/
def readAbs (lo hi : MaybeByte) (s : State) : Res MaybeByte := memRead (addr16 lo hi) s

end Sys2Proof.Machine
end

