-- ==== Sys2Proof/Machine/Arith.lean ====
section
/-! DEFINITION. ADC, INC, CPX (42_arith_compare.md). -/

namespace Sys2Proof.Machine

/-- R190: both Acc and the memory byte are used, so an absent one is UNDEF_USE; no flag is written. -/
def execAdcAbs (lo hi : MaybeByte) (s : State) : Answer :=
  ((readAbs lo hi s).bind fun m s =>
    match s.acc, m with
    | some a, some b => .val () { s with acc := some (addByte a b) }
    | _, _ => raise (.undefUse (.adcAbs lo hi) [s.acc, m]) s).answer

/-- R197, R198: read, then write the successor. Outside the window the write of the absent value fails the same fence and
is dropped, so nothing is computed from it. -/
def execIncAbs (lo hi : MaybeByte) (s : State) : Answer :=
  ((readAbs lo hi s).bind fun m s =>
    memWrite (addr16 lo hi) (m.map incByte) (.undefUse (.incAbs lo hi) [m]) s).answer

/-- R200: the only writer of Z. -/
def execCpxAbs (lo hi : MaybeByte) (s : State) : Answer :=
  ((readAbs lo hi s).bind fun m s =>
    match s.x, m with
    | some a, some b => .val () { s with z := equalFlag a b }
    | _, _ => raise (.undefUse (.cpxAbs lo hi) [s.x, m]) s).answer

end Sys2Proof.Machine
end

