-- ==== Sys2Proof/Machine/Control.lean ====
section
/-! DEFINITION. NOP, BRK, BNE and the unknown opcode (43_control.md). -/

namespace Sys2Proof.Machine

/-- R206: no effect. -/
def execNop (s : State) : Answer := .next s

/-- R208: halt, and nothing else; no PCB is written (R209). -/
def execBrk (s : State) : Answer := .next s.halt

/-- R210: the byte at the operand address is the offset, unsigned; it is read only when Z is false (R128, D5). -/
def execBneAbs (lo hi : MaybeByte) (s : State) : Answer :=
  if s.z then .next s
  else
    ((readAbs lo hi s).bind fun d s =>
      match d with
      | some d => advancePc d.toNat s
      | none => raise (.undefUse (.bneAbs lo hi) [none]) s).answer

/-- R212: report IR and halt; not fatal to the machine. -/
def execUnknown (ir : MaybeByte) (s : State) : Answer := .next (s.emit (.unknownInstruction ir)).halt

end Sys2Proof.Machine
end

