-- ==== Sys2Proof/Machine/LoadStore.lean ====
section
/-! DEFINITION. LDA, STA, LDX, LDY (41_load_store.md). A meaning starts with its operand bytes consumed, PC at the last of
them, and leaves the end-of-cycle increment to the cycle (R153, R154, log 9). A load moves an absent value without
computing on it (D3). -/

namespace Sys2Proof.Machine

/-- R170, R171. -/
def execLdaImm (imm : MaybeByte) (s : State) : Answer := .next { s with acc := imm }

/-- R172. -/
def execLdaAbs (lo hi : MaybeByte) (s : State) : Answer :=
  ((readAbs lo hi s).bind fun m s => .val () { s with acc := m }).answer

/-- R174. -/
def execStaAbs (lo hi : MaybeByte) (s : State) : Answer :=
  (memWrite (addr16 lo hi) s.acc (.undefUse (.staAbs lo hi) [s.acc]) s).answer

/-- R176. -/
def execLdxImm (imm : MaybeByte) (s : State) : Answer := .next { s with x := imm }

/-- R178. -/
def execLdxAbs (lo hi : MaybeByte) (s : State) : Answer :=
  ((readAbs lo hi s).bind fun m s => .val () { s with x := m }).answer

/-- R180. -/
def execLdyImm (imm : MaybeByte) (s : State) : Answer := .next { s with y := imm }

/-- R182. -/
def execLdyAbs (lo hi : MaybeByte) (s : State) : Answer :=
  ((readAbs lo hi s).bind fun m s => .val () { s with y := m }).answer

end Sys2Proof.Machine
end

