-- ==== Sys2Proof/Machine/Sys.lean ====
section
/-! DEFINITION. SYS (44_sys.md). -/

namespace Sys2Proof.Machine

/-- The loop of R220 with X = 2, which consumes the inline string after the opcode (R222): PC is incremented, the loop stops
when PC reaches MEMORY_SIZE, and otherwise the byte is read; an absent byte is UNDEF_USE, a zero byte ends the string.
`fuel` bounds the iterations: `sysStringLoop_unfold` (Laws/Sys.lean) shows that with the fuel `sysString` gives it the loop
is the spec's, so the fuel never runs out (log 18). -/
def sysStringLoop : Nat → List Byte → State → Res (List Byte)
  | 0, bytes, s => .val bytes s
  | fuel + 1, bytes, s =>
    (advancePc 1 s).bind fun _ s =>
      if s.config.memorySize ≤ s.pc then .val bytes s
      else
        (memRead (some s.pc) s).bind fun b s =>
          match b with
          | none => raise (.undefUse .sys [none]) s
          | some b => if b = 0 then .val bytes s else sysStringLoop fuel (bytes ++ [b]) s

/-- Each iteration raises PC by one and the loop stops at MEMORY_SIZE, so this many iterations are enough. -/
def sysFuel (s : State) : Nat := s.config.memorySize - s.pc + 1

/-- R222, R225: the whole string is one event, emitted after the loop. -/
def sysString (s : State) : Res Unit :=
  (sysStringLoop (sysFuel s) [] s).bind fun bytes s => .val () (s.emit (.sysString bytes))

/-- R221: the byte in Y; no memory access. -/
def sysNumber (s : State) : Res Unit :=
  match s.y with
  | some n => .val () (s.emit (.sysNumber n))
  | none => raise (.undefUse .sys [none]) s

/-- R220: X selects; a value other than 1 and 2 has no effect (R223). -/
def execSys (s : State) : Answer :=
  (match s.x with
   | none => raise (.undefUse .sys [none]) s
   | some x => if x = 1 then sysNumber s else if x = 2 then sysString s else .val () s).answer

end Sys2Proof.Machine
end

