-- ==== Sys2Proof/Machine/Dispatch.lean ====
section
/-! DEFINITION. The meaning of each instruction: one arm per constructor of Instr (R126, R155). -/

namespace Sys2Proof.Machine

def exec (i : Instr) (s : State) : Host.Outcome State Fault Refusal :=
  match i with
  | .ldaImm imm => Sys2Proof.Machine.execLdaImm imm s
  | .ldaAbs lo hi => Sys2Proof.Machine.execLdaAbs lo hi s
  | .staAbs lo hi => Sys2Proof.Machine.execStaAbs lo hi s
  | .adcAbs lo hi => Sys2Proof.Machine.execAdcAbs lo hi s
  | .ldxImm imm => Sys2Proof.Machine.execLdxImm imm s
  | .ldxAbs lo hi => Sys2Proof.Machine.execLdxAbs lo hi s
  | .ldyImm imm => Sys2Proof.Machine.execLdyImm imm s
  | .ldyAbs lo hi => Sys2Proof.Machine.execLdyAbs lo hi s
  | .nop => Sys2Proof.Machine.execNop s
  | .brk => Sys2Proof.Machine.execBrk s
  | .cpxAbs lo hi => Sys2Proof.Machine.execCpxAbs lo hi s
  | .bneAbs lo hi => Sys2Proof.Machine.execBneAbs lo hi s
  | .incAbs lo hi => Sys2Proof.Machine.execIncAbs lo hi s
  | .sys => Sys2Proof.Machine.execSys s
  | .unknown ir => Sys2Proof.Machine.execUnknown ir s

end Sys2Proof.Machine
end

