-- ==== Sys2Proof/Machine/Cycle.lean ====
section
/-! DEFINITION. The fetch-decode-execute cycle: TICK (40_cycle.md). -/

namespace Sys2Proof.Machine

/-- The fetch of R151: IR <- MemRead(PC, 1), PC unchanged. -/
def fetch (s : State) : Res MaybeByte :=
  (memRead (some s.pc) s).bind fun ir s => .val ir { s with ir := ir }

/-- Fetch, decode (R152) and consume the operand bytes (R153): the instruction and the state in which its own work starts. -/
def fetchInstr (s : State) : Res Instr :=
  (fetch s).bind fun ir s => fetchOperands (decodeOpcode ir) s

/-- The end of the cycle, R154: PC <- PC + 1 after every instruction, unless a model fault has ended the TICK (R155). -/
def endCycle (s : State) : Answer :=
  if s.faults = [] then (advancePc 1 s).answer else .next s

/-- What the cycle does with an instruction's answer: after a next state, the end of the cycle. -/
def endTick (a : Answer) : Answer :=
  match a with
  | .next s => endCycle s
  | .fault r => .fault r
  | .refused r => .refused r

/-- TICK, R150 and R155, on a machine that is not stopped. A TICK of a halted CPU changes nothing (D35). -/
def tick (s : State) : Answer :=
  if s.isExecuting then
    match fetchInstr s with
    | .raised s => .next s
    | .val i s => endTick (exec i s)
  else .next s

end Sys2Proof.Machine
end

