-- ==== Sys2Proof/Machine/ProcessTable.lean ====
section
/-! DEFINITION. The process table: lookup, the copies between a PCB and the CPU (R242), the row projection (R59), and the
host's own operations on the table (R290). -/

namespace Sys2Proof.Machine

/-- PT[pid] (R238: PIDs are unique, so a PID names one PCB). -/
def State.pcb? (s : State) (pid : Nat) : Option Pcb := s.pt.find? (fun p => p.processID == pid)

/-- Change the PCB that `pid` names. -/
def State.updatePcb (s : State) (pid : Nat) (f : Pcb → Pcb) : State :=
  { s with pt := s.pt.map fun p => if p.processID = pid then f p else p }

/-- Save(p) of R242: the six saved registers, unchanged, absent values included. -/
def State.save (s : State) (p : Pcb) : Pcb :=
  { p with pc := s.pc, ir := s.ir, acc := s.acc, x := s.x, y := s.y, z := s.z }

/-- Restore(p) of R242. -/
def State.restore (p : Pcb) (s : State) : State :=
  { s with pc := p.pc, ir := p.ir, acc := p.acc, x := p.x, y := p.y, z := p.z }

/-- The process-table row of R59. -/
structure PcbRow where
  processID : Nat
  pc : Nat
  ir : MaybeByte
  acc : MaybeByte
  x : MaybeByte
  y : MaybeByte
  z : Bool
  priority : Nat
  processState : ProcessState
deriving DecidableEq, Repr

/-- The projection of a PCB that the host may read (R59): the snapshot last saved, not the live registers. -/
def Pcb.row (p : Pcb) : PcbRow :=
  { processID := p.processID, pc := p.pc, ir := p.ir, acc := p.acc, x := p.x, y := p.y, z := p.z,
    priority := p.priority, processState := p.processState }

/-- The rows of the table, in PT order. -/
def State.rows (s : State) : List PcbRow := s.pt.map Pcb.row

/-- PT_CREATE (R290): a new unique PID, state NEW, and a saved PC that is a PC value (R56). Anything else is outside the
host table (I26, log 13). -/
def ptCreate (p : Pcb) (s : State) : Answer :=
  if (s.pcb? p.processID).isNone && p.processState = .new && p.pc < 2 ^ s.config.pcWidth then
    .next { s with pt := s.pt ++ [p] }
  else .refused .ptCreateOutsideTable

/-- PT_SET_STATE (R290, C13): only NEW to READY. -/
def ptSetState (pid : Nat) (state : ProcessState) (s : State) : Answer :=
  if state = .ready && (s.pcb? pid).any (fun p => p.processState = .new) then
    .next (s.updatePcb pid fun p => { p with processState := .ready })
  else .refused .ptSetStateOutsideTable

/-- PT_REMOVE (R290). That the PCB is not the executing one is the host's duty and is not checked (log 14). -/
def ptRemove (pid : Nat) (s : State) : Answer :=
  if (s.pcb? pid).isSome then .next { s with pt := s.pt.filter fun p => p.processID != pid }
  else .refused .ptRemoveOutsideTable

end Sys2Proof.Machine
end

