-- ==== Sys2Proof/Machine/Dispatcher.lean ====
section
/-! DEFINITION. The five Dispatcher commands (45_dispatcher.md). Each completed one ends with one ProcessTableChanged
(R259), and none reads or writes MEM (R261). -/

namespace Sys2Proof.Machine

/-- The PIDs of the PCBs other than `pid`'s that are RUNNING: R243 asserts there are none. -/
def State.othersRunning (s : State) (pid : Nat) : List Nat :=
  (s.pt.filter fun p => p.processID != pid && p.processState = .running).map Pcb.processID

/-- The changes of DISPATCH_START once its checks have passed (R244). -/
def startPcb (p : Pcb) (w : Window) (s : State) : State :=
  let s := (s.useSegment w).restore p
  let s := s.updatePcb p.processID fun q => { q with processState := .running }
  { s with pid := p.processID, isExecuting := true }.emit .processTableChanged

/-- DISPATCH_START, R244: both checks come before any change (R238, R243). `w` is `bindWindow`'s answer (R16, log 7). -/
def dispatchStart (pid : Nat) (w : Window) (s : State) : Res Unit :=
  match s.pcb? pid with
  | none => raise (.unknownPcb pid) s
  | some p =>
    if s.othersRunning pid = [] then .val () (startPcb p w s)
    else raise (.inconsistentDispatch (pid :: s.othersRunning pid)) s

/-- DISPATCH_SYNC, R247: save into the PCB the PID register names, if there is one. -/
def dispatchSync (s : State) : Res Unit :=
  .val () ((s.updatePcb s.pid fun p =>
    { s.save p with processState := if s.isExecuting then .running else .done }).emit .processTableChanged)

/-- What DISPATCH_STOP and DISPATCH_END share (R250, R252): halt if the PCB is the current one (R239), and set its state
whatever it was. No register is saved. -/
def endAs (final : ProcessState) (pid : Nat) (s : State) : Res Unit :=
  match s.pcb? pid with
  | none => raise (.unknownPcb pid) s
  | some _ =>
    let s := if pid = s.pid then s.halt else s
    .val () ((s.updatePcb pid fun p => { p with processState := final }).emit .processTableChanged)

/-- DISPATCH_STOP, R250. -/
def dispatchStop (pid : Nat) (s : State) : Res Unit := endAs .stopped pid s

/-- DISPATCH_END, R252. -/
def dispatchEnd (pid : Nat) (s : State) : Res Unit := endAs .done pid s

/-- The demotion that opens DISPATCH_SWITCH: only a RUNNING PCB becomes READY (R254). -/
def demote (p : Pcb) : Pcb :=
  if p.processState = .running then { p with processState := .ready } else p

/-- What DISPATCH_SWITCH does to the outgoing PCB: with SWITCH_SAVE = corrected the live registers are saved first, if the
PCB is the current one (R255); then the demotion. -/
def switchOut (s : State) (o : Pcb) : Pcb :=
  if s.config.switchSave = .corrected && o.processID == s.pid then demote (s.save o) else demote o

/-- DISPATCH_SWITCH, R254 and R255. If the start faults, the demotion already made stays. -/
def dispatchSwitch (outgoing : Option Nat) (incoming : Nat) (w : Window) (s : State) : Res Unit :=
  match outgoing with
  | none => dispatchStart incoming w s
  | some out =>
    match s.pcb? out with
    | none => raise (.unknownPcb out) s
    | some _ => dispatchStart incoming w (s.updatePcb out (switchOut s))

end Sys2Proof.Machine
end

