-- ==== Sys2Proof/Machine/Reset.lean ====
section
/-! DEFINITION. CPU_INIT and RESET (70_reset_and_hazards.md). -/

namespace Sys2Proof.Machine

/-- CPU_INIT, R300: the CPU register set and nothing else. -/
def State.cpuInit (s : State) : State :=
  { s with
    pc := 0
    ir := some 0
    acc := some 0
    x := some 0
    y := some 0
    z := false
    isExecuting := false
    pid := 0 }

/-- The next draw of the memory contents: every cell any value (R304, log 2). -/
def State.drawMemory (s : State) : State :=
  { s with mem := [], draw := s.draw + 1 }

/-- Leave the window unbound, its registers any value of the current draw (R51, R302, R303, log 3). -/
def State.unbindWindow (s : State) : State :=
  { s with bound := false, base := Config.resetBase s.draw, limit := Config.resetLimit s.draw }

/-- Construct the accessor over the backing memory (R303): the window is unbound, and with no memory there is the machine-fatal
trap of R276. R301's pseudocode returns from the trap before it unbinds the window; the rules that give the state after RESET
(R51, R297, R302, R303, D13, D27) set no such case apart, and the model follows them (DEDUCED, log 25). -/
def State.constructAccessor (s : State) : State :=
  if s.config.memoryPresent then s.unbindWindow
  else { s.unbindWindow.emit (.trap .backingStoreMissing) with trapped := true }

/-- RESET, R301. The reply to the host is cleared with the rest (log 8); the parameters and the transactions the host has
queued are not the block's to reset. -/
def State.resetBlock (s : State) : State :=
  let s := { s with out := [] }.cpuInit
  { s with pt := [], reply := none }.drawMemory.constructAccessor

end Sys2Proof.Machine
end

