-- ==== Sys2Proof/Machine/Transact.lean ====
section
/-! DEFINITION. One transaction (R8, R9, R290), and the choice of the next one. -/

namespace Sys2Proof.Machine

/-- What a transaction does on a machine that is not stopped. -/
def perform (c : Command) (s : State) : Answer :=
  match c with
  | .tick => tick s
  | .cpuInit => .next s.cpuInit
  | .reset => .next s.resetBlock
  | .dispatchStart pid w => (dispatchStart pid w s).answer
  | .dispatchSync => (dispatchSync s).answer
  | .dispatchStop pid => (dispatchStop pid s).answer
  | .dispatchEnd pid => (dispatchEnd pid s).answer
  | .dispatchSwitch out inc w => (dispatchSwitch out inc w s).answer
  | .accUseSegment b l => .next (s.useSegment ⟨b, l⟩)
  | .accGet i => (accGet i s).answer
  | .accSet i v => (accSet i v s).answer
  | .accGetArray a b => (accGetArray a b s).answer
  | .accSetArray a data => (accSetArray a data s).answer
  | .ptCreate p => ptCreate p s
  | .ptSetState pid st => ptSetState pid st s
  | .ptRemove pid => ptRemove pid s

/-- A transaction: refused with nothing changed while FAULT is not empty or TRAPPED is true (R63, R64, R276, R287). -/
def transact (c : Command) (s : State) : Answer :=
  if s.faults ≠ [] then .fault .modelFault
  else if s.trapped then .fault .trapped
  else perform c s

/-- The next transaction: the first one the host has queued, or a TICK when none is (R9, log 6). -/
def nextTransaction (s : State) : Answer :=
  match s.pending with
  | [] => transact .tick s
  | c :: rest => transact c { s with pending := rest }

/-- `s` with the bytes placed where the next TICK fetches, and all that this takes (log 17): no transaction queued, the
machine not stopped, the CPU executing, and a window bound that admits the bytes. A window already bound keeps its base. -/
def State.placeInstruction (bytes : List Byte) (s : State) : State :=
  let base := if s.bound then s.base else 0
  let limit := if s.bound then s.limit else 0
  { s with
    base := base
    limit := max limit (base + s.pc + bytes.length - 1)
    bound := true
    isExecuting := true
    faults := []
    trapped := false
    pending := [] }.setCells (base + s.pc) bytes

end Sys2Proof.Machine
end

