-- ==== Sys2Proof/Machine/Step.lean ====
section
/-! DEFINITION. One step: one transaction. -/

namespace Sys2Proof.Machine

/-- One step of the block is its next transaction (R9). -/
def step (s : State) : Host.Outcome State Fault Refusal := nextTransaction s

/-- `s` with the instruction whose `nbits` bits are `w` placed where `step` fetches its next instruction. -/
def State.withFetchWord (s : State) (nbits w : Nat) : State := s.placeInstruction (tableWordBytes nbits w)

end Sys2Proof.Machine
end

