-- ==== Sys2Proof/Machine/Boot.lean ====
section
/-! DEFINITION. What a host queues to load and start a program (R306 to R308). The loader is outside the block (R7); these are
the spec's reference loader and boot order, as lists of transactions. -/

namespace Sys2Proof.Machine

/-- R306: loading `bytes` into a window is two host commands. -/
def loadCommands (w : Window) (bytes : List Byte) : List Command :=
  [.accUseSegment w.base w.limit, .accSetArray 0 (bytes.map BitVec.toNat)]

/-- R307: the reference loader's PCB. -/
def referencePcb (pid priority location : Nat) : Pcb where
  processID := pid
  pc := 0
  ir := some 0
  acc := some 0
  x := some 0
  y := some 0
  z := false
  priority := priority
  processLocation := location
  processState := .new

/-- The window the reference platform binds (R89, D11): one segment from the PCB's location. -/
def referenceWindow (c : Config) (p : Pcb) : Window :=
  ⟨p.processLocation, p.processLocation + c.memSegmentSize - 1⟩

/-- R308, steps 3 to 5: place the program, create the PCB, set it READY, start it. Step 1 is RESET, step 2 the choice of the
window, and step 6 the TICKs. -/
def bootCommands (pid priority : Nat) (w : Window) (bytes : List Byte) : List Command :=
  loadCommands w bytes ++
    [.ptCreate (referencePcb pid priority w.base), .ptSetState pid .ready, .dispatchStart pid w]

end Sys2Proof.Machine
end

