-- ==== Sys2Proof/Safety.lean ====
section
/-! DEFINITION. The words the claims use: a machine that can act, an access that raises no model fault, what a read gives, and
the invariants. -/

namespace Sys2Proof.Machine

/-! ## Machines that can act -/

/-- No model fault is recorded and the trap has not fired: transactions are not refused (R63, R64). -/
abbrev State.live (s : State) : Prop := s.faults = [] ∧ s.trapped = false

/-- The next transaction is a TICK that fetches: the machine is live, no other transaction is queued, the CPU executes. -/
abbrev State.ticking (s : State) : Prop := s.live ∧ s.pending = [] ∧ s.isExecuting = true

/-- A run of the current process has ended (R161): a transaction has left isExecuting false. A faulted state is never a
finished run. DESIGN CHOICE: nor is a trapped one, which R161 and D28 leave open (log 26). -/
abbrev State.finished (s : State) : Prop := s.live ∧ s.isExecuting = false

/-! ## Accesses -/

/-- An access at index `i` raises neither UNBOUND_WINDOW nor WINDOW_EXCEEDS_MEMORY (R86, R87): a window is bound, and an
index that passes the fence is in memory. An index outside the fence is allowed. -/
abbrev State.accessible (s : State) (i : Index) : Prop :=
  s.bound = true ∧ (s.inSegment i = true → s.address i < s.config.memorySize)

/-- What a read at index `i` gives (R92): the cell, or no value outside the fence. -/
def State.peek (s : State) (i : Index) : MaybeByte :=
  if s.inSegment i then some (s.cell (s.address i)) else none

/-- The events of a read at index `i` (R92). -/
def State.readEvents (s : State) (i : Index) : List Event :=
  if s.inSegment i then [] else [.outOfRange .read i]

/-- Index `i` is in the window and in memory, and its cell holds `b`. -/
abbrev State.holds (s : State) (i : Nat) (b : Byte) : Prop :=
  s.accessible (some i) ∧ s.inSegment (some i) = true ∧ s.cell (s.base + i) = b

/-- The bytes lie at indices `i`, `i + 1`, ... of the window. -/
def State.holdsBytes (s : State) (i : Nat) : List Byte → Prop
  | [] => True
  | b :: rest => s.holds i b ∧ s.holdsBytes (i + 1) rest

/-- A PC value (R14, R41). -/
abbrev State.isPc (s : State) (n : Nat) : Prop := n < 2 ^ s.config.pcWidth

/-- The effective index of an ABS instruction at PC (R169). -/
def State.operandIndex (s : State) : Index := addr16 (s.peek (some (s.pc + 1))) (s.peek (some (s.pc + 2)))

/-- The events of the operand bytes of an ABS instruction at PC, in stream order (R288). -/
def State.operandEvents (s : State) : List Event :=
  s.readEvents (some (s.pc + 1)) ++ s.readEvents (some (s.pc + 2))

/-- An ABS instruction with this opcode is next: the TICK can fetch the opcode and its two operand bytes without a model
fault, and the opcode is there. -/
abbrev State.nextAbs (s : State) (opcode : Byte) : Prop :=
  s.ticking ∧ s.holds s.pc opcode ∧ s.accessible (some (s.pc + 1)) ∧ s.accessible (some (s.pc + 2)) ∧ s.isPc (s.pc + 3)

/-- An IMM instruction with this opcode is next. -/
abbrev State.nextImm (s : State) (opcode : Byte) : Prop :=
  s.ticking ∧ s.holds s.pc opcode ∧ s.accessible (some (s.pc + 1)) ∧ s.isPc (s.pc + 2)

/-! ## Observation -/

/-- The events of OUT that claims may rest on: all but the process-table notifications, whose number is not to be relied on
(R260). -/
def notices (out : List Event) : List Event := out.filter fun e => decide (e ≠ .processTableChanged)

/-- The transaction that the next step runs. -/
def State.nextCommand (s : State) : Command := s.pending.headD .tick

/-! ## Invariants -/

/-- The facts about the state that every step keeps. -/
structure State.Inv (s : State) : Prop where
  /-- R10 and R11: the sizes are positive. -/
  sizes : s.config.wf = true
  /-- Memory is in canonical form (log 2). -/
  memory : memWf s.mem = true
  /-- R80: only cells of the array are written. -/
  cells : ∀ c ∈ s.mem, c.1 < s.config.memorySize
  /-- R41: PC has PC_WIDTH bits. -/
  pcValue : s.isPc s.pc
  /-- R56: so has every saved PC. -/
  savedPc : ∀ p ∈ s.pt, s.isPc p.pc
  /-- R55: PIDs are unique. -/
  uniquePids : (s.pt.map Pcb.processID).Nodup
  /-- R87: a window is bound before any CPU cycle runs. -/
  boundFirst : s.isExecuting = true → s.bound = true
  /-- R287: a model fault ends the machine, so there is at most one. -/
  oneFault : s.faults.length ≤ 1

/-- The one-running invariant of R241, in the form that every transaction keeps, CPU_INIT and ACC_USESEGMENT included: at most
one PID is RUNNING, and while the CPU executes it is the one the PID register names. -/
def State.OneRunning (s : State) : Prop :=
  (∀ p ∈ s.pt, ∀ q ∈ s.pt, p.processState = .running → q.processState = .running → p.processID = q.processID) ∧
  (s.isExecuting = true → ∀ p ∈ s.pt, p.processState = .running → p.processID = s.pid)

end Sys2Proof.Machine
end

