-- ==== Sys2Proof/Certificates/Slice0/Obligations.lean ====
section
/-! DEFINITION. The statements for the provers. Statements about the Dispatcher say nothing of the number of
ProcessTableChanged events, as R260 asks: they compare `notices`. -/

open Sys2Proof Sys2Proof.Machine

/-! ## Encoding -/

/-- Every instruction, with every operand at every value, decodes from its own bytes, whatever follows them; the encoding
has the length of R126. -/
def Obligations.EncodedInstructionDecodesToItself : Prop :=
  ∀ (i : Instr) (rest : List Byte), i.wf = true →
    ∃ bytes, encode i = some bytes ∧ bytes.length = i.length ∧ decode (bytes ++ rest) = .ok (i, rest)

/-- Every instruction the decoder reads is well formed, and its encoding is the bytes it was read from. -/
def Obligations.DecodedInstructionEncodesToItsBytes : Prop :=
  ∀ (bytes : List Byte) (i : Instr) (rest : List Byte), decode bytes = .ok (i, rest) →
    i.wf = true ∧ ∃ front, encode i = some front ∧ bytes = front ++ rest

/-- R121, R122 and R123: each opcode, written out in binary, decodes to its instruction with the operand bytes of its format, at
every value of them; an immediate moves verbatim, and an ABS operand names the index lo + hi * 0xFF. The last three lines are
words of SYS (its string is not part of it), of an illegal byte and of an instruction cut short. Sanity. -/
def Obligations.WordsDecodeByTheirFormat : Prop :=
  (∀ rest : List Byte,
    decode (0b11101010#8 :: rest) = .ok (.nop, rest) ∧ decode (0b00000000#8 :: rest) = .ok (.brk, rest)) ∧
  (∀ (imm : Byte) (rest : List Byte),
    decode (0b10101001#8 :: imm :: rest) = .ok (.ldaImm (some imm), rest) ∧
    decode (0b10100010#8 :: imm :: rest) = .ok (.ldxImm (some imm), rest) ∧
    decode (0b10100000#8 :: imm :: rest) = .ok (.ldyImm (some imm), rest)) ∧
  (∀ (imm : Byte) (s : State),
    exec (.ldaImm (some imm)) s = .next { s with acc := some imm } ∧
    exec (.ldxImm (some imm)) s = .next { s with x := some imm } ∧
    exec (.ldyImm (some imm)) s = .next { s with y := some imm }) ∧
  (∀ (lo hi : Byte) (rest : List Byte),
    decode (0b10101101#8 :: lo :: hi :: rest) = .ok (.ldaAbs (some lo) (some hi), rest) ∧
    decode (0b10001101#8 :: lo :: hi :: rest) = .ok (.staAbs (some lo) (some hi), rest) ∧
    decode (0b01101101#8 :: lo :: hi :: rest) = .ok (.adcAbs (some lo) (some hi), rest) ∧
    decode (0b10101110#8 :: lo :: hi :: rest) = .ok (.ldxAbs (some lo) (some hi), rest) ∧
    decode (0b10101100#8 :: lo :: hi :: rest) = .ok (.ldyAbs (some lo) (some hi), rest) ∧
    decode (0b11101100#8 :: lo :: hi :: rest) = .ok (.cpxAbs (some lo) (some hi), rest) ∧
    decode (0b11010000#8 :: lo :: hi :: rest) = .ok (.bneAbs (some lo) (some hi), rest) ∧
    decode (0b11101110#8 :: lo :: hi :: rest) = .ok (.incAbs (some lo) (some hi), rest)) ∧
  (∀ lo hi : Byte, addr16 (some lo) (some hi) = some (lo.toNat + hi.toNat * 0xFF)) ∧
  decode [0b11111111#8, 0x48#8] = .ok (.sys, [0x48]) ∧
  decode [0b00000010#8] = .ok (.unknown (some 0x02), []) ∧
  decode [0b10101101#8, 0x10#8] = .error .missingOperand

/-- R313 and R99: the operand bytes given for an index name it, an index above 0xFF00 has none and no pair of bytes names one;
the conventional pair `(i mod 256, i div 256)` reaches `i - i div 256`; and two pairs name the same index only as `(0xFF, k -
1)` and `(0x00, k)`. Inferences the spec marks as derived. -/
def Obligations.AddressOperandNamesItsIndex : Prop :=
  (∀ i, i ≤ 0xFF00 → ∃ lo hi, addressOperand i = some (lo, hi) ∧ addr16 (some lo) (some hi) = some i) ∧
  (∀ i, 0xFF00 < i → addressOperand i = none ∧ ∀ lo hi, addr16 (some lo) (some hi) ≠ some i) ∧
  (∀ i, i ≤ 0xFFFF → addr16 (some (BitVec.ofNat 8 (i % 256))) (some (BitVec.ofNat 8 (i / 256))) = some (i - i / 256)) ∧
  (∀ lo hi lo' hi' : Byte, hi.toNat < hi'.toNat →
    (addr16 (some lo) (some hi) = addr16 (some lo') (some hi') ↔ lo = 0xFF ∧ lo' = 0x00 ∧ hi'.toNat = hi.toNat + 1))

/-! ## What exec does with each instruction -/

/-- Every instruction answers a next state in every state: a condition is an event, a halt or a recorded model fault, never a
stop of the step itself. That a recorded model fault is a next state is log 5. -/
def Obligations.ExecAnswersANextStateAlways : Prop :=
  ∀ (i : Instr) (s : State), ∃ t, exec i s = .next t

/-- LDA, LDX, LDY immediate move the operand byte, an absent one too, and change nothing else. The operand byte was fetched by
the cycle (log 9). -/
def Obligations.ImmediateLoadMovesTheOperandByte : Prop :=
  ∀ (imm : MaybeByte) (s : State),
    exec (.ldaImm imm) s = .next { s with acc := imm } ∧
    exec (.ldxImm imm) s = .next { s with x := imm } ∧
    exec (.ldyImm imm) s = .next { s with y := imm }

/-- LDA, LDX, LDY absolute move what the named index reads as, outside the window the absent value with its event, and change
nothing else. The absent index is D4; operand bytes fetched before exec, log 9. -/
def Obligations.AbsoluteLoadMovesTheNamedByte : Prop :=
  ∀ (lo hi : MaybeByte) (s : State), s.accessible (addr16 lo hi) →
    exec (.ldaAbs lo hi) s = .next { s with acc := s.peek (addr16 lo hi), out := s.out ++ s.readEvents (addr16 lo hi) } ∧
    exec (.ldxAbs lo hi) s = .next { s with x := s.peek (addr16 lo hi), out := s.out ++ s.readEvents (addr16 lo hi) } ∧
    exec (.ldyAbs lo hi) s = .next { s with y := s.peek (addr16 lo hi), out := s.out ++ s.readEvents (addr16 lo hi) }

/-- STA inside the window stores Acc at the named index; outside it the write is dropped with its event, whatever Acc holds.
That a dropped write does not look at Acc is D3. -/
def Obligations.StaStoresAccOrDropsTheWrite : Prop :=
  (∀ (lo hi : MaybeByte) (s : State) (v : Byte), s.accessible (addr16 lo hi) → s.inSegment (addr16 lo hi) = true →
    s.acc = some v → exec (.staAbs lo hi) s = .next (s.setCell (s.address (addr16 lo hi)) v)) ∧
  (∀ (lo hi : MaybeByte) (s : State), s.bound = true → s.inSegment (addr16 lo hi) = false →
    exec (.staAbs lo hi) s = .next (s.emit (.outOfRange .write (addr16 lo hi))))

/-- INC inside the window stores the successor modulo 256 (D1) at the named index; outside it two events are reported and
nothing else changes. -/
def Obligations.IncStoresTheSuccessorOrReportsBothAccesses : Prop :=
  (∀ (lo hi : MaybeByte) (s : State) (m : Byte), s.accessible (addr16 lo hi) → s.peek (addr16 lo hi) = some m →
    exec (.incAbs lo hi) s =
      .next (s.setCell (s.address (addr16 lo hi)) (BitVec.ofNat 8 ((m.toNat + 1) % 256)))) ∧
  (∀ (lo hi : MaybeByte) (s : State), s.bound = true → s.inSegment (addr16 lo hi) = false →
    exec (.incAbs lo hi) s =
      .next { s with out := s.out ++ [Event.outOfRange .read (addr16 lo hi), Event.outOfRange .write (addr16 lo hi)] })

/-- What STA and INC leave unchanged: every cell but the one at the address they store to, computed as they compute it,
and every cell when the fence fails; every register, the flag, the control state, the window and the process table. -/
def Obligations.StoresChangeOnlyTheAddressedCell : Prop :=
  ∀ (lo hi : MaybeByte) (s t : State),
    (exec (.staAbs lo hi) s = .next t ∨ exec (.incAbs lo hi) s = .next t) →
    (∀ a, (s.inSegment (addr16 lo hi) = true → a ≠ s.address (addr16 lo hi)) → t.cell a = s.cell a) ∧
    t.pc = s.pc ∧ t.ir = s.ir ∧ t.acc = s.acc ∧ t.x = s.x ∧ t.y = s.y ∧ t.z = s.z ∧
    t.isExecuting = s.isExecuting ∧ t.pid = s.pid ∧ t.base = s.base ∧ t.limit = s.limit ∧ t.bound = s.bound ∧ t.pt = s.pt

/-- ADC puts the sum modulo 256 in Acc (D1) and changes nothing else, no flag in particular. -/
def Obligations.AdcAddsModulo256 : Prop :=
  ∀ (lo hi : MaybeByte) (s : State) (a m : Byte), s.accessible (addr16 lo hi) → s.acc = some a →
    s.peek (addr16 lo hi) = some m →
    exec (.adcAbs lo hi) s = .next { s with acc := some (BitVec.ofNat 8 ((a.toNat + m.toNat) % 256)) }

/-- CPX sets Z to whether X equals the memory byte, and changes nothing else. That an absent operand faults instead is D3. -/
def Obligations.CpxSetsZToEquality : Prop :=
  ∀ (lo hi : MaybeByte) (s : State) (x m : Byte), s.accessible (addr16 lo hi) → s.x = some x →
    s.peek (addr16 lo hi) = some m →
    exec (.cpxAbs lo hi) s = .next { s with z := decide (x = m) }

/-- BNE adds the byte at the named index, unsigned (D5), to PC when Z is false, and does nothing, not even the read, when Z
is true. -/
def Obligations.BneAddsTheOffsetWhenZIsFalse : Prop :=
  (∀ (lo hi : MaybeByte) (s : State), s.z = true → exec (.bneAbs lo hi) s = .next s) ∧
  (∀ (lo hi : MaybeByte) (s : State) (d : Byte), s.z = false → s.accessible (addr16 lo hi) →
    s.peek (addr16 lo hi) = some d → s.isPc (s.pc + d.toNat) →
    exec (.bneAbs lo hi) s = .next { s with pc := s.pc + d.toNat })

/-- NOP has no effect; BRK halts; an unknown opcode reports IR and halts. Nothing else changes. The unknown instruction carries
the IR value (log 21). -/
def Obligations.NopBrkAndUnknownEffects : Prop :=
  ∀ (ir : MaybeByte) (s : State),
    exec .nop s = .next s ∧
    exec .brk s = .next { s with isExecuting := false } ∧
    exec (.unknown ir) s = .next { s with out := s.out ++ [Event.unknownInstruction ir], isExecuting := false }

/-- SYS with X = 1 reports the byte in Y; with X neither 1 nor 2 it has no effect (D8). -/
def Obligations.SysNumberAndSysOfNoMeaning : Prop :=
  (∀ (s : State) (y : Byte), s.x = some 1 → s.y = some y → exec .sys s = .next (s.emit (.sysNumber y))) ∧
  (∀ (s : State) (x : Byte), s.x = some x → x ≠ 1 → x ≠ 2 → exec .sys s = .next s)

/-- SYS with X = 2 consumes the bytes after PC up to a zero byte, which it consumes too, or until PC reaches MEMORY_SIZE,
whose byte it does not read (D10). It leaves PC at the last index reached and reports the non-zero bytes in one event. -/
def Obligations.SysStringConsumesTheInlineBytes : Prop :=
  (∀ (s : State) (bytes : List Byte), s.x = some 2 → (∀ b ∈ bytes, b ≠ 0) → s.holdsBytes (s.pc + 1) (bytes ++ [0]) →
    s.isPc (s.pc + bytes.length + 1) →
    exec .sys s = .next { s with pc := s.pc + bytes.length + 1, out := s.out ++ [.sysString bytes] }) ∧
  (∀ (s : State) (bytes : List Byte), s.x = some 2 → (∀ b ∈ bytes, b ≠ 0) → s.holdsBytes (s.pc + 1) bytes →
    s.config.memorySize ≤ s.pc + bytes.length + 1 → s.isPc (s.pc + bytes.length + 1) →
    exec .sys s = .next { s with pc := s.pc + bytes.length + 1, out := s.out ++ [.sysString bytes] })

/-- Computing with the absent value (R280, D3) is the model fault UNDEF_USE: ADC and CPX on either operand, STA inside the
window, a taken BNE, SYS on X and, when X = 1, on Y. The fault and the events of the read are all that changes. What is recorded
is log 10, that it is a next state is log 5. -/
def Obligations.UsingTheAbsentValueIsUndefUse : Prop :=
  (∀ (lo hi : MaybeByte) (s : State), s.accessible (addr16 lo hi) → (s.acc = none ∨ s.peek (addr16 lo hi) = none) →
    exec (.adcAbs lo hi) s = .next ({ s with out := s.out ++ s.readEvents (addr16 lo hi) }.raise
      (.undefUse (.adcAbs lo hi) [s.acc, s.peek (addr16 lo hi)]))) ∧
  (∀ (lo hi : MaybeByte) (s : State), s.accessible (addr16 lo hi) → (s.x = none ∨ s.peek (addr16 lo hi) = none) →
    exec (.cpxAbs lo hi) s = .next ({ s with out := s.out ++ s.readEvents (addr16 lo hi) }.raise
      (.undefUse (.cpxAbs lo hi) [s.x, s.peek (addr16 lo hi)]))) ∧
  (∀ (lo hi : MaybeByte) (s : State), s.accessible (addr16 lo hi) → s.inSegment (addr16 lo hi) = true → s.acc = none →
    exec (.staAbs lo hi) s = .next (s.raise (.undefUse (.staAbs lo hi) [none]))) ∧
  (∀ (lo hi : MaybeByte) (s : State), s.accessible (addr16 lo hi) → s.peek (addr16 lo hi) = none → s.z = false →
    exec (.bneAbs lo hi) s = .next ({ s with out := s.out ++ s.readEvents (addr16 lo hi) }.raise
      (.undefUse (.bneAbs lo hi) [none]))) ∧
  (∀ s : State, s.x = none → exec .sys s = .next (s.raise (.undefUse .sys [none]))) ∧
  (∀ s : State, s.x = some 1 → s.y = none → exec .sys s = .next (s.raise (.undefUse .sys [none])))

/-- SYS with X = 2 whose string does not end (R224): the bytes read are consumed, PC is left at the index that faulted, and no
string event is emitted. Past the window that index is reported and the absent byte is UNDEF_USE; past the memory, before a
window is bound, and at the top of the range of PC it is the fault of the access or of the increment. The faults are D3, D11,
D13 and D2; their form is log 5 and log 10. -/
def Obligations.SysStringThatDoesNotEndFaults : Prop :=
  ∀ (s : State) (bytes : List Byte), s.x = some 2 → (∀ b ∈ bytes, b ≠ 0) → s.holdsBytes (s.pc + 1) bytes →
    s.isPc (s.pc + bytes.length) →
    (s.bound = true → s.inSegment (some (s.pc + bytes.length + 1)) = false →
      s.pc + bytes.length + 1 < s.config.memorySize → s.isPc (s.pc + bytes.length + 1) →
      exec .sys s = .next ({ s with
        pc := s.pc + bytes.length + 1
        out := s.out ++ [Event.outOfRange .read (some (s.pc + bytes.length + 1))] }.raise (.undefUse .sys [none]))) ∧
    (s.bound = true → s.inSegment (some (s.pc + bytes.length + 1)) = true →
      s.pc + bytes.length + 1 < s.config.memorySize → s.config.memorySize ≤ s.base + (s.pc + bytes.length + 1) →
      s.isPc (s.pc + bytes.length + 1) →
      exec .sys s = .next ({ s with pc := s.pc + bytes.length + 1 }.raise
        (.windowExceedsMemory (s.base + (s.pc + bytes.length + 1))))) ∧
    (s.bound = false → s.pc + bytes.length + 1 < s.config.memorySize → s.isPc (s.pc + bytes.length + 1) →
      exec .sys s = .next ({ s with pc := s.pc + bytes.length + 1 }.raise
        (.unboundWindow (some (s.pc + bytes.length + 1))))) ∧
    (¬ s.isPc (s.pc + bytes.length + 1) →
      exec .sys s = .next ({ s with pc := s.pc + bytes.length }.raise (.pcOverflow (s.pc + bytes.length) 1)))

/-- The data access of an ABS instruction where it is a model fault (R86, R87): before a window is bound, and inside the fence
beyond the memory, the fault is all that changes; BNE only when it branches. A branch to 2^PC_WIDTH or more is PC_OVERFLOW
(R281). The faults are D13, D11 and D2; their form is log 5. -/
def Obligations.InstructionAccessesThatFault : Prop :=
  (∀ (lo hi : MaybeByte) (s : State) (mk : MaybeByte → MaybeByte → Instr),
    mk ∈ [Instr.ldaAbs, Instr.staAbs, Instr.adcAbs, Instr.ldxAbs, Instr.ldyAbs, Instr.cpxAbs, Instr.incAbs] ∨
      (mk = Instr.bneAbs ∧ s.z = false) →
    (s.bound = false → exec (mk lo hi) s = .next (s.raise (.unboundWindow (addr16 lo hi)))) ∧
    (s.bound = true → s.inSegment (addr16 lo hi) = true → s.config.memorySize ≤ s.address (addr16 lo hi) →
      exec (mk lo hi) s = .next (s.raise (.windowExceedsMemory (s.address (addr16 lo hi)))))) ∧
  (∀ (lo hi : MaybeByte) (s : State) (d : Byte), s.z = false → s.accessible (addr16 lo hi) →
    s.peek (addr16 lo hi) = some d → ¬ s.isPc (s.pc + d.toNat) →
    exec (.bneAbs lo hi) s = .next (s.raise (.pcOverflow s.pc d.toNat)))

/-- UNDEF_USE is raised by ADC, CPX, STA, BNE and SYS only: never by a load, INC, NOP, BRK or an unknown opcode. UNDEF_USE is
the spec's decision D3; that it records the instruction is log 10. -/
def Obligations.OnlyUsesOfValuesRaiseUndefUse : Prop :=
  ∀ (i j : Instr) (values : List MaybeByte) (s t : State), s.faults = [] → exec i s = .next t →
    ModelFault.undefUse j values ∈ t.faults →
    j = i ∧ ((∃ lo hi, i = .adcAbs lo hi) ∨ (∃ lo hi, i = .cpxAbs lo hi) ∨ (∃ lo hi, i = .staAbs lo hi) ∨
      (∃ lo hi, i = .bneAbs lo hi) ∨ i = .sys)

/-- No instruction touches the process table, PID, the window, TRAPPED, or the model's own fields (R159). The last four fields
are the model's own (log 1, log 4, log 8, log 6). -/
def Obligations.InstructionsLeaveTheControlStateAlone : Prop :=
  ∀ (i : Instr) (s t : State), exec i s = .next t →
    t.pt = s.pt ∧ t.pid = s.pid ∧ t.base = s.base ∧ t.limit = s.limit ∧ t.bound = s.bound ∧ t.trapped = s.trapped ∧
    t.config = s.config ∧ t.draw = s.draw ∧ t.reply = s.reply ∧ t.pending = s.pending

/-- Which instruction may change which register (R40, R43, R45): IR by none, Acc by LDA and ADC, X by LDX, Y by LDY, Z by CPX,
isExecuting by BRK and an unknown opcode, and PC, beyond the bytes the cycle consumes, by BNE and SYS. Every instruction but STA
and INC leaves every cell of memory as it was. That the cycle consumes the operand bytes and fetches IR outside exec is log 9.
-/
def Obligations.EachRegisterAndCellHasItsOwnWriters : Prop :=
  ∀ (i : Instr) (s t : State), exec i s = .next t →
    t.ir = s.ir ∧
    (t.acc ≠ s.acc → (∃ imm, i = .ldaImm imm) ∨ (∃ lo hi, i = .ldaAbs lo hi) ∨ (∃ lo hi, i = .adcAbs lo hi)) ∧
    (t.x ≠ s.x → (∃ imm, i = .ldxImm imm) ∨ (∃ lo hi, i = .ldxAbs lo hi)) ∧
    (t.y ≠ s.y → (∃ imm, i = .ldyImm imm) ∨ (∃ lo hi, i = .ldyAbs lo hi)) ∧
    (t.z ≠ s.z → ∃ lo hi, i = .cpxAbs lo hi) ∧
    (t.isExecuting ≠ s.isExecuting → i = .brk ∨ ∃ ir, i = .unknown ir) ∧
    (t.pc ≠ s.pc → (∃ lo hi, i = .bneAbs lo hi) ∨ i = .sys) ∧
    ((∀ lo hi, i ≠ .staAbs lo hi) → (∀ lo hi, i ≠ .incAbs lo hi) → ∀ a, t.cell a = s.cell a)

/-! ## TICK -/

/-- A step runs the decoded instruction: when the bytes of a well-formed instruction lie at PC, the step is exec of it with IR
holding the opcode and PC at the last byte consumed, and then the end-of-cycle increment. So with nothing queued, and so when
the host has queued the TICK with other transactions after it (R9, R289), which then stay queued; a queued TICK is a TICK
whatever it fetches. That an empty queue means a TICK is log 6; that the fetch precedes exec is log 9; the end of the cycle is
D6. -/
def Obligations.StepRunsTheDecodedInstruction : Prop :=
  (∀ (s : State) (i : Instr) (opcode : Byte) (operands : List Byte), s.ticking → encode i = some (opcode :: operands) →
    s.holdsBytes s.pc (opcode :: operands) → s.isPc (s.pc + operands.length) →
    step s =
      endTick (exec i { s with ir := some opcode, pc := s.pc + operands.length })) ∧
  (∀ (s : State) (rest : List Command), s.live → s.pending = .tick :: rest →
    step s = tick { s with pending := rest } ∧
    ∀ (i : Instr) (opcode : Byte) (operands : List Byte), s.isExecuting = true → encode i = some (opcode :: operands) →
      s.holdsBytes s.pc (opcode :: operands) → s.isPc (s.pc + operands.length) →
      step s = endTick (exec i { s with ir := some opcode, pc := s.pc + operands.length, pending := rest }))

/-- The same when operand bytes may lie outside the window (R127, R153, D4): they are absent, each with its event, in stream
order (R288). The conventions are D4 and D26; log 6 and log 9. -/
def Obligations.StepRunsAnInstructionWithAbsentOperands : Prop :=
  (∀ (s : State) (b : Byte) (mk : MaybeByte → Instr), s.nextImm b → decodeOpcode (some b) = .one mk →
    step s =
      endTick (exec (mk (s.peek (some (s.pc + 1))))
        { s with ir := some b, pc := s.pc + 1, out := s.out ++ s.readEvents (some (s.pc + 1)) })) ∧
  (∀ (s : State) (b : Byte) (mk : MaybeByte → MaybeByte → Instr), s.nextAbs b → decodeOpcode (some b) = .two mk →
    step s =
      endTick (exec (mk (s.peek (some (s.pc + 1))) (s.peek (some (s.pc + 2))))
        { s with ir := some b, pc := s.pc + 2, out := s.out ++ s.operandEvents }))

/-- The fetch where it is a model fault (R86, R87, R281): of the opcode, before a window is bound or beyond the memory; of an
operand byte, beyond the memory or with PC at the top of its range. What the TICK has done by then stays (R155). The faults are
D13, D11 and D2; their form is log 5. -/
def Obligations.FetchesThatFault : Prop :=
  (∀ s : State, s.ticking → s.bound = false → step s = .next (s.raise (.unboundWindow (some s.pc)))) ∧
  (∀ s : State, s.ticking → s.bound = true → s.inSegment (some s.pc) = true → s.config.memorySize ≤ s.base + s.pc →
    step s = .next (s.raise (.windowExceedsMemory (s.base + s.pc)))) ∧
  (∀ (s : State) (b : Byte), s.ticking → s.holds s.pc b → (∀ i, decodeOpcode (some b) ≠ .none i) →
    (s.isPc (s.pc + 1) → s.inSegment (some (s.pc + 1)) = true → s.config.memorySize ≤ s.base + (s.pc + 1) →
      step s = .next ({ s with ir := some b, pc := s.pc + 1 }.raise (.windowExceedsMemory (s.base + (s.pc + 1))))) ∧
    (¬ s.isPc (s.pc + 1) → step s = .next ({ s with ir := some b }.raise (.pcOverflow s.pc 1)))) ∧
  (∀ (s : State) (b : Byte) (mk : MaybeByte → MaybeByte → Instr), s.ticking → s.holds s.pc b →
    decodeOpcode (some b) = .two mk → s.accessible (some (s.pc + 1)) → s.isPc (s.pc + 1) →
    (s.isPc (s.pc + 2) → s.inSegment (some (s.pc + 2)) = true → s.config.memorySize ≤ s.base + (s.pc + 2) →
      step s = .next ({ s with
        ir := some b, pc := s.pc + 2, out := s.out ++ s.readEvents (some (s.pc + 1)) }.raise
          (.windowExceedsMemory (s.base + (s.pc + 2))))) ∧
    (¬ s.isPc (s.pc + 2) →
      step s = .next ({ s with
        ir := some b, pc := s.pc + 1, out := s.out ++ s.readEvents (some (s.pc + 1)) }.raise (.pcOverflow (s.pc + 1) 1))))

/-- The end of the cycle (R154): PC + 1 unless the TICK has faulted, and PC_OVERFLOW at the top of its range (R14, R281). The
increment on every TICK is D6 and the overflow D2. -/
def Obligations.EndOfCycleIncrementsPc : Prop :=
  ∀ s : State,
    (s.faults = [] → s.isPc (s.pc + 1) → endCycle s = .next { s with pc := s.pc + 1 }) ∧
    (s.faults = [] → ¬ s.isPc (s.pc + 1) → endCycle s = .next (s.raise (.pcOverflow s.pc 1))) ∧
    (s.faults ≠ [] → endCycle s = .next s)

/-- R170, R176, R180: a TICK of an immediate load moves the byte at p + 1, or the absent value with its event when that index
fails the fence; PC goes to p + 2; Z and the rest are unchanged. -/
def Obligations.ImmediateLoadTick : Prop :=
  ∀ s : State,
    (s.nextImm 0xA9 → step s = .next { s with
      ir := some 0xA9, pc := s.pc + 2, acc := s.peek (some (s.pc + 1))
      out := s.out ++ s.readEvents (some (s.pc + 1)) }) ∧
    (s.nextImm 0xA2 → step s = .next { s with
      ir := some 0xA2, pc := s.pc + 2, x := s.peek (some (s.pc + 1))
      out := s.out ++ s.readEvents (some (s.pc + 1)) }) ∧
    (s.nextImm 0xA0 → step s = .next { s with
      ir := some 0xA0, pc := s.pc + 2, y := s.peek (some (s.pc + 1))
      out := s.out ++ s.readEvents (some (s.pc + 1)) })

/-- R206: a TICK of NOP sets IR to 0xEA and PC to p + 1, and nothing else. -/
def Obligations.NopTick : Prop :=
  ∀ s : State, s.ticking → s.holds s.pc 0xEA → s.isPc (s.pc + 1) →
    step s = .next { s with ir := some 0xEA, pc := s.pc + 1 }

/-- A TICK of BRK halts with PC at p + 1 (D6), and every later TICK changes nothing (D35). -/
def Obligations.BrkTickHaltsForGood : Prop :=
  ∀ s : State, s.ticking → s.holds s.pc 0x00 → s.isPc (s.pc + 1) →
    let t := { s with ir := some 0x00, pc := s.pc + 1, isExecuting := false }
    step s = .next t ∧ step t = .next t

/-- R129: a byte is illegal exactly when it is not one of the 14 opcodes, there are 242 such bytes, and fetching one reports it
and halts the CPU. -/
def Obligations.IllegalOpcodeReportsAndHalts : Prop :=
  (∀ b : Byte, illegalOpcode b = true ↔
    b ∉ [0xA9#8, 0xAD#8, 0x8D#8, 0x6D#8, 0xA2#8, 0xAE#8, 0xA0#8, 0xAC#8, 0xEA#8, 0x00#8, 0xEC#8, 0xD0#8, 0xEE#8, 0xFF#8]) ∧
  ((List.range 256).filter fun n => illegalOpcode (BitVec.ofNat 8 n)).length = 242 ∧
  (∀ (s : State) (b : Byte), s.ticking → s.holds s.pc b → illegalOpcode b = true →
    ∃ t, step s = .next t ∧ t.out = s.out ++ [.unknownInstruction (some b)] ∧ t.isExecuting = false)

/-- The whole TICK of an illegal opcode, and of a fetch outside the window, whose absent IR counts as one (D6, D7). -/
def Obligations.UnknownOpcodeTick : Prop :=
  (∀ (s : State) (b : Byte), s.ticking → s.holds s.pc b → illegalOpcode b = true → s.isPc (s.pc + 1) →
    step s = .next { s with
      ir := some b, pc := s.pc + 1, isExecuting := false, out := s.out ++ [Event.unknownInstruction (some b)] }) ∧
  (∀ s : State, s.ticking → s.bound = true → s.inSegment (some s.pc) = false → s.isPc (s.pc + 1) →
    step s = .next { s with
      ir := none, pc := s.pc + 1, isExecuting := false
      out := s.out ++ [Event.outOfRange .read (some s.pc), .unknownInstruction none] })

/-- R211, with the offset unsigned (D5): a TICK of BNE goes to p + 3 + d when Z is false, and to p + 3 when Z is true. -/
def Obligations.BneTick : Prop :=
  ∀ s : State, s.nextAbs 0xD0 →
    (s.z = true → step s = .next { s with ir := some 0xD0, pc := s.pc + 3, out := s.out ++ s.operandEvents }) ∧
    (∀ d : Byte, s.z = false → s.accessible s.operandIndex → s.peek s.operandIndex = some d →
      s.isPc (s.pc + 3 + d.toNat) →
      step s = .next { s with ir := some 0xD0, pc := s.pc + 3 + d.toNat, out := s.out ++ s.operandEvents })

/-- R201: LDX immediate followed by CPX sets Z to whether the two bytes are equal. -/
def Obligations.LdxThenCpxComparesTheValues : Prop :=
  ∀ (s : State) (v lo hi m : Byte) (ea : Nat), s.ticking → s.holdsBytes s.pc [0xA2, v, 0xEC, lo, hi] →
    addr16 (some lo) (some hi) = some ea → s.holds ea m → s.isPc (s.pc + 5) →
    ∃ t, core.run 2 s = .next t ∧ t.z = decide (v = m)

/-- STA then LDA of the same index leaves the stored byte in Acc (R175), for any index in the window that is not a byte of the
LDA itself. -/
def Obligations.StoreThenLoadRoundTrips : Prop :=
  ∀ (s : State) (lo hi v : Byte) (ea : Nat), s.ticking → s.holdsBytes s.pc [0x8D, lo, hi, 0xAD, lo, hi] →
    s.acc = some v → addr16 (some lo) (some hi) = some ea → s.accessible (some ea) → s.inSegment (some ea) = true →
    (ea < s.pc + 3 ∨ s.pc + 5 < ea) → s.isPc (s.pc + 6) →
    ∃ t, core.run 2 s = .next t ∧ t.acc = some v ∧ t.cell (s.base + ea) = v ∧ t.pc = s.pc + 6 ∧
      ∀ a, a ≠ s.base + ea → t.cell a = s.cell a

/-- A store into the byte fetched next is seen by that fetch (R107). -/
def Obligations.StoreIntoTheNextOpcodeIsFetched : Prop :=
  ∀ (s : State) (v : Byte), s.nextAbs 0x8D → s.acc = some v → s.operandIndex = some (s.pc + 3) →
    s.accessible (some (s.pc + 3)) → s.inSegment (some (s.pc + 3)) = true →
    ∃ t u, step s = .next t ∧ step t = .next u ∧ u.ir = some v

/-- PC grows on every TICK that fetches and does not fault (R162): no instruction goes backwards or stays. -/
def Obligations.PcGrowsOnEveryTick : Prop :=
  ∀ s t : State, s.ticking → step s = .next t → t.faults = [] → s.pc < t.pc

/-- R162: with no other transaction queued, the CPU has halted or faulted after at most
max(0, limit - base - PC + 1) + 1 TICKs, whatever the program. -/
def Obligations.EveryProgramHaltsWithinItsWindow : Prop :=
  ∀ s : State, s.ticking → s.bound = true →
    ∃ k t, k ≤ (s.limit + 1 - (s.base + s.pc)) + 1 ∧ core.run k s = .next t ∧ (t.isExecuting = false ∨ t.faults ≠ [])

/-- A TICK neither reads nor writes the process table (R159): with another table the same thing happens. Nor does it look at
what the host has queued: a TICK queued before other transactions does the same and leaves them queued (R9, R289), so that what
the other statements say of a TICK with an empty queue holds of a queued one too. The queue is log 6. -/
def Obligations.TickIgnoresTheProcessTable : Prop :=
  ∀ (s t : State) (table : List Pcb) (rest : List Command), s.ticking → step s = .next t →
    t.pt = s.pt ∧ step { s with pt := table } = .next { t with pt := table } ∧
      step { s with pending := .tick :: rest } = .next { t with pending := rest }

/-- A TICK is confined to its window and the memory: it changes no cell outside them, and it learns nothing of the cells outside
the window. Two machines that differ only in such cells do the same, and differ afterwards only in such cells. -/
def Obligations.TickIsConfinedToItsWindow : Prop :=
  ∀ s t : State, s.ticking → step s = .next t →
    (∀ a, a < s.base ∨ s.limit < a ∨ s.config.memorySize ≤ a → t.cell a = s.cell a) ∧
    (∀ mem : List Host.Cell, (∀ a, s.base ≤ a → a ≤ s.limit → { s with mem := mem }.cell a = s.cell a) →
      ∃ t', step { s with mem := mem } = .next t' ∧ { t' with mem := [] } = { t with mem := [] } ∧
        ∀ a, s.base ≤ a → a ≤ s.limit → t'.cell a = t.cell a)

/-! ## Stopping -/

/-- While FAULT is not empty or TRAPPED is true every transaction is refused (R63, R64, R287), and otherwise a TICK of a halted
CPU changes nothing (D35), the queue apart if it was queued (log 6). A refused transaction is an Outcome.fault, log 5. -/
def Obligations.StoppedMachineRefusesAndHaltedMachineIdles : Prop :=
  (∀ s : State, s.faults ≠ [] → step s = .fault .modelFault) ∧
  (∀ s : State, s.faults = [] → s.trapped = true → step s = .fault .trapped) ∧
  (∀ s : State, s.live → s.isExecuting = false → (s.pending = [] → step s = .next s) ∧
    ∀ rest, s.pending = .tick :: rest → step s = .next { s with pending := rest })

/-! ## Reset -/

/-- R300: CPU_INIT writes the CPU register set and nothing else, and is refused on a stopped machine. The queue is log 6; a
refused transaction is an Outcome.fault, log 5. -/
def Obligations.CpuInitClearsTheRegistersOnly : Prop :=
  ∀ (s : State) (rest : List Command), s.pending = .cpuInit :: rest →
    (s.live → step s = .next { s with
      pc := 0, ir := some 0, acc := some 0, x := some 0, y := some 0, z := false, isExecuting := false, pid := 0
      pending := rest }) ∧
    (s.faults ≠ [] ∨ s.trapped = true → ∃ r, step s = .fault r)

/-- RESET (R301, R302, D27) on a live machine, with and without memory: registers zero or false, halted, no window, no process,
no fault, and memory any value, the cells of the next draw; no event with memory, and without it the fatal trap of R276, after
which every transaction is refused. The cells are the free bytes of log 2; the queue is log 6; that the window is unbound
without memory too is log 25. -/
def Obligations.ResetReinitializesTheBlock : Prop :=
  ∀ (s : State) (rest : List Command), s.pending = .reset :: rest → s.live →
    ∃ t, step s = .next t ∧
      t.pc = 0 ∧ t.ir = some 0 ∧ t.acc = some 0 ∧ t.x = some 0 ∧ t.y = some 0 ∧ t.z = false ∧
      t.isExecuting = false ∧ t.pid = 0 ∧ t.bound = false ∧ t.pt = [] ∧ t.faults = [] ∧
      t.config = s.config ∧ t.pending = rest ∧ (∀ a, t.cell a = Config.resetByte (s.draw + 1) a) ∧
      (s.config.memoryPresent = true → t.out = [] ∧ t.trapped = false) ∧
      (s.config.memoryPresent = false → t.out = [.trap .backingStoreMissing] ∧ t.trapped = true ∧ step t = .fault .trapped)

/-- The values R302 gives the state after reset. Sanity. The table of R302 is one the spec marks as derived. -/
def Obligations.ResetStateHoldsTheSpecValues : Prop :=
  let s := State.reset
  s.pc = 0 ∧ s.ir = some 0 ∧ s.acc = some 0 ∧ s.x = some 0 ∧ s.y = some 0 ∧ s.z = false ∧ s.isExecuting = false ∧
  s.pid = 0 ∧ s.bound = false ∧ s.pt = [] ∧ s.out = [] ∧ s.faults = [] ∧ s.trapped = false

/-- The boot order (R308) from the reset state, with any parameters: once the program is loaded, its PCB created and set READY,
and the process started, the CPU executes at index 0 of a window that holds the program's bytes. The reference loader and the
order are D21; how a program comes to run is log 17. -/
def Obligations.BootOrderStartsTheProgram : Prop :=
  ∀ (c : Config) (pid priority : Nat) (w : Window) (bytes : List Byte), w.base + bytes.length ≤ w.limit + 1 →
    w.limit < c.memorySize →
    ∃ t, core.run 5 { State.reset with config := c, pending := bootCommands pid priority w bytes } = .next t ∧
      t.ticking ∧ t.pc = 0 ∧ t.pid = pid ∧ t.base = w.base ∧ t.limit = w.limit ∧ t.holdsBytes 0 bytes ∧
      (t.pcb? pid).map Pcb.processState = some .running

/-! ## The Dispatcher -/

/-- After DISPATCH_START of a PCB, with no other PCB RUNNING, PID names it, it is RUNNING, the CPU executes with its saved
registers, and the window bindWindow gave is bound. Nothing else changes but the notification: not the other PCBs, the order of
the table, memory, the other events, TRAPPED or the parameters. The condition on other PCBs is D16; bindWindow's answer is log
7; the notification is D17 and log 20; that memory is not touched is R261, which the spec marks derived.
-/
def Obligations.DispatchStartLoadsTheProcess : Prop :=
  ∀ (s : State) (pid : Nat) (w : Window) (p : Pcb) (rest : List Command), s.live →
    s.pending = .dispatchStart pid w :: rest → s.pcb? pid = some p →
    (∀ q ∈ s.pt, q.processID ≠ pid → q.processState ≠ .running) →
    ∃ t, step s = .next t ∧
      t.pid = p.processID ∧ t.pcb? pid = some { p with processState := .running } ∧ t.isExecuting = true ∧
      t.pc = p.pc ∧ t.ir = p.ir ∧ t.acc = p.acc ∧ t.x = p.x ∧ t.y = p.y ∧ t.z = p.z ∧
      t.base = w.base ∧ t.limit = w.limit ∧ t.bound = true ∧
      (∀ a, t.cell a = s.cell a) ∧ (∀ other, other ≠ pid → t.pcb? other = s.pcb? other) ∧
      t.pt.map Pcb.processID = s.pt.map Pcb.processID ∧ notices t.out = notices s.out ∧
      { t with
        pc := s.pc, ir := s.ir, acc := s.acc, x := s.x, y := s.y, z := s.z, isExecuting := s.isExecuting, pid := s.pid
        base := s.base, limit := s.limit, bound := s.bound, pt := s.pt, out := s.out } = { s with pending := rest }

/-- The checks of DISPATCH_START (R238, R243, D16) come before any change: a PID not in PT is UNKNOWN_PCB, and another RUNNING
PCB is INCONSISTENT_DISPATCH. What INCONSISTENT_DISPATCH records is log 11, its form log 5. -/
def Obligations.DispatchStartChecksComeFirst : Prop :=
  ∀ (s : State) (pid : Nat) (w : Window) (rest : List Command), s.live → s.pending = .dispatchStart pid w :: rest →
    (s.pcb? pid = none → step s = .next ({ s with pending := rest }.raise (.unknownPcb pid))) ∧
    ((∃ p, s.pcb? pid = some p) → (∃ q ∈ s.pt, q.processID ≠ pid ∧ q.processState = .running) →
      ∃ pids, step s = .next ({ s with pending := rest }.raise (.inconsistentDispatch (pid :: pids))) ∧
        ∀ n, n ∈ pids ↔ ∃ q ∈ s.pt, q.processID = n ∧ n ≠ pid ∧ q.processState = .running)

/-- DISPATCH_SYNC saves the live registers into the current PCB and sets it RUNNING if the CPU executes and DONE otherwise; the
other PCBs, the CPU, memory and the window are unchanged. The notification is D17 and log 20. -/
def Obligations.DispatchSyncSavesTheCurrentProcess : Prop :=
  ∀ (s : State) (rest : List Command), s.live → s.pending = .dispatchSync :: rest →
    ∃ t, step s = .next t ∧
      (∀ p, s.pcb? s.pid = some p → t.pcb? s.pid = some { p with
        pc := s.pc, ir := s.ir, acc := s.acc, x := s.x, y := s.y, z := s.z
        processState := if s.isExecuting then .running else .done }) ∧
      (∀ other, other ≠ s.pid → t.pcb? other = s.pcb? other) ∧
      t.pt.map Pcb.processID = s.pt.map Pcb.processID ∧
      notices t.out = notices s.out ∧ { t with pt := s.pt, out := s.out } = { s with pending := rest }

/-- DISPATCH_STOP and DISPATCH_END halt the CPU if the PCB is the current one, set its state to STOPPED or DONE whatever it was,
and save no register; a PID not in PT is UNKNOWN_PCB (D16). The other PCBs and the order of the table stay (R55). The current
process is D14; the notification is log 20. -/
def Obligations.DispatchStopAndEndSetTheFinalState : Prop :=
  ∀ (s : State) (pid : Nat) (c : Command) (final : ProcessState) (rest : List Command), s.live →
    s.pending = c :: rest → ((c = .dispatchStop pid ∧ final = .stopped) ∨ (c = .dispatchEnd pid ∧ final = .done)) →
    (s.pcb? pid = none → step s = .next ({ s with pending := rest }.raise (.unknownPcb pid))) ∧
    (∀ p, s.pcb? pid = some p → ∃ t, step s = .next t ∧
      t.pcb? pid = some { p with processState := final } ∧
      (∀ other, other ≠ pid → t.pcb? other = s.pcb? other) ∧
      t.isExecuting = (s.isExecuting && decide (pid ≠ s.pid)) ∧
      t.pt.map Pcb.processID = s.pt.map Pcb.processID ∧
      notices t.out = notices s.out ∧
      { t with pt := s.pt, out := s.out, isExecuting := s.isExecuting } = { s with pending := rest })

/-- DISPATCH_SWITCH in all its forms (R254 to R257). With no outgoing process it is DISPATCH_START alone; an outgoing PID not
in PT is UNKNOWN_PCB. Otherwise `leaves` is what becomes of the outgoing PCB: READY if it was RUNNING and its state unchanged
if not; in corrected mode, if it is the current one, with the live registers saved (D15). Then the incoming process starts, from
what the outgoing PCB has become where the two are one; and where the start faults, the outgoing PCB's change stays (log 23,
for an unknown incoming PID the model's own). The assertions are D16; bindWindow's answer is log 7; what INCONSISTENT_DISPATCH
records is log 11, the form of a fault log 5; the notification is D17 and log 20. -/
def Obligations.DispatchSwitchDemotesAndStarts : Prop :=
  ∀ (s : State) (b : Nat) (w : Window) (rest : List Command), s.live →
    (s.pending = .dispatchSwitch none b w :: rest → step s = step { s with pending := .dispatchStart b w :: rest }) ∧
    (∀ a, s.pending = .dispatchSwitch (some a) b w :: rest → s.pcb? a = none →
      step s = .next ({ s with pending := rest }.raise (.unknownPcb a))) ∧
    (∀ a p, s.pending = .dispatchSwitch (some a) b w :: rest → s.pcb? a = some p →
      let leaves (r : Pcb) : Pcb :=
        { (if s.config.switchSave = .corrected ∧ a = s.pid then
            { r with pc := s.pc, ir := s.ir, acc := s.acc, x := s.x, y := s.y, z := s.z }
          else r) with
          processState := if r.processState = .running then .ready else r.processState }
      let switchedOut : State :=
        { s with pt := s.pt.map (fun r => if r.processID = a then leaves r else r), pending := rest }
      (∀ q, s.pcb? b = some q → (∀ r ∈ s.pt, r.processState = .running → r.processID = a ∨ r.processID = b) →
        let starts : Pcb := if a = b then leaves p else q
        ∃ t, step s = .next t ∧ (a ≠ b → t.pcb? a = some (leaves p)) ∧
          t.pcb? b = some { starts with processState := .running } ∧ t.pid = b ∧ t.isExecuting = true ∧
          t.pc = starts.pc ∧ t.ir = starts.ir ∧ t.acc = starts.acc ∧ t.x = starts.x ∧ t.y = starts.y ∧ t.z = starts.z ∧
          t.base = w.base ∧ t.limit = w.limit ∧ t.bound = true ∧
          (∀ addr, t.cell addr = s.cell addr) ∧ (∀ other, other ≠ a → other ≠ b → t.pcb? other = s.pcb? other) ∧
          t.pt.map Pcb.processID = s.pt.map Pcb.processID ∧ notices t.out = notices s.out ∧
          { t with
            pc := s.pc, ir := s.ir, acc := s.acc, x := s.x, y := s.y, z := s.z, isExecuting := s.isExecuting, pid := s.pid
            base := s.base, limit := s.limit, bound := s.bound, pt := s.pt, out := s.out } = { s with pending := rest }) ∧
      (s.pcb? b = none → step s = .next (switchedOut.raise (.unknownPcb b))) ∧
      ((∃ q, s.pcb? b = some q) → (∃ r ∈ s.pt, r.processID ≠ a ∧ r.processID ≠ b ∧ r.processState = .running) →
        ∃ pids, step s = .next (switchedOut.raise (.inconsistentDispatch (b :: pids))) ∧
          ∀ n, n ∈ pids ↔ ∃ r ∈ s.pt, r.processID = n ∧ n ≠ a ∧ n ≠ b ∧ r.processState = .running))

/-- The context switch that keeps the registers in faithful mode (R262): DISPATCH_SYNC and then the faithful switch leave what
the corrected switch alone leaves, but for the notifications. Derived by the spec; log 20 and log 23. -/
def Obligations.SyncThenFaithfulSwitchIsTheCorrectedSwitch : Prop :=
  ∀ (s : State) (b : Nat) (w : Window) (p : Pcb), s.live → s.isExecuting = true → s.pcb? s.pid = some p →
    p.processState = .running → (s.pt.map Pcb.processID).Nodup →
    ∃ t u : State,
      core.run 2 { s with
        config := { s.config with switchSave := .faithful }
        pending := [.dispatchSync, .dispatchSwitch (some s.pid) b w] } = .next t ∧
      core.run 1 { s with
        config := { s.config with switchSave := .corrected }
        pending := [.dispatchSwitch (some s.pid) b w] } = .next u ∧
      { t with out := [], config := s.config } = { u with out := [], config := s.config } ∧ notices t.out = notices u.out

/-- R236: a PCB's processState changes only by a transition of the table, a PCB appears only as NEW by PT_CREATE, and it goes
only by PT_REMOVE. (That RESET empties the table too is the spec's decision D27, not a row of R236.) -/
def Obligations.ProcessStatesChangeOnlyAsTheTableSays : Prop :=
  ∀ s t : State, s.Inv → step s = .next t →
    (∀ p ∈ s.pt, ∀ q ∈ t.pt, p.processID = q.processID → p.processState ≠ q.processState →
      (p.processState = .new ∧ q.processState = .ready ∧ s.nextCommand = .ptSetState p.processID .ready) ∨
      (q.processState = .running ∧ ((∃ w, s.nextCommand = .dispatchStart p.processID w) ∨
        ∃ out w, s.nextCommand = .dispatchSwitch out p.processID w)) ∨
      (p.processID = s.pid ∧ s.nextCommand = .dispatchSync ∧
        q.processState = if s.isExecuting then .running else .done) ∨
      (q.processState = .stopped ∧ s.nextCommand = .dispatchStop p.processID) ∨
      (q.processState = .done ∧ s.nextCommand = .dispatchEnd p.processID) ∨
      (p.processState = .running ∧ q.processState = .ready ∧
        ∃ inc w, s.nextCommand = .dispatchSwitch (some p.processID) inc w)) ∧
    (∀ q ∈ t.pt, (∀ p ∈ s.pt, p.processID ≠ q.processID) → q.processState = .new ∧ s.nextCommand = .ptCreate q) ∧
    (∀ p ∈ s.pt, (∀ q ∈ t.pt, q.processID ≠ p.processID) →
      s.nextCommand = .ptRemove p.processID ∨ s.nextCommand = .reset)

/-- The writers of isExecuting and PID (R47, R48): only DISPATCH_START, alone or in a switch, sets the CPU executing or gives
PID a value other than 0; a TICK halts the CPU only by BRK or an unknown opcode. No step changes the parameters (R66), and only
a live machine has a next state. The parameters are log 1; that a stopped machine has no next state is log 5. -/
def Obligations.ControlStateHasItsOwnWriters : Prop :=
  ∀ s t : State, step s = .next t →
    (s.isExecuting = false → t.isExecuting = true →
      (∃ pid w, s.nextCommand = .dispatchStart pid w) ∨ ∃ out inc w, s.nextCommand = .dispatchSwitch out inc w) ∧
    (s.isExecuting = true → t.isExecuting = false →
      (s.nextCommand = .tick ∧ (t.ir = some 0x00 ∨ decodeOpcode t.ir = .none (.unknown t.ir))) ∨
      s.nextCommand = .dispatchStop s.pid ∨ s.nextCommand = .dispatchEnd s.pid ∨
      s.nextCommand = .cpuInit ∨ s.nextCommand = .reset) ∧
    (t.pid ≠ s.pid →
      (∃ pid w, s.nextCommand = .dispatchStart pid w) ∨ (∃ out inc w, s.nextCommand = .dispatchSwitch out inc w) ∨
      (t.pid = 0 ∧ (s.nextCommand = .cpuInit ∨ s.nextCommand = .reset))) ∧
    t.config = s.config ∧ s.live

/-- Every step keeps the one-running invariant (R241), whatever transaction it runs. The form is the model's: R310 and R315 say
which transactions break the fuller one. -/
def Obligations.StepKeepsOneProcessRunning : Prop :=
  ∀ s t : State, s.OneRunning → step s = .next t → t.OneRunning

/-- The reset state has both invariants, the one-running one and `State.Inv`. The parameters of State.reset are log 1. -/
def Obligations.ResetMeetsTheInvariants : Prop := State.reset.OneRunning ∧ State.reset.Inv

/-- Every step keeps the invariant: canonical memory inside the array, PC and saved PCs of PC_WIDTH bits, unique PIDs, a window
bound before the CPU executes, at most one model fault. The canonical form is log 2, the single fault log 12. -/
def Obligations.StepKeepsTheInvariant : Prop :=
  ∀ s t : State, s.Inv → step s = .next t → t.Inv

/-! ## The host's accessor and table operations -/

/-- R88: ACC_USESEGMENT rebinds the window and does nothing else: no check, no event, no memory access, no register. The queue
is log 6. -/
def Obligations.UseSegmentOnlyRebinds : Prop :=
  ∀ (s : State) (b l : Nat) (rest : List Command), s.live → s.pending = .accUseSegment b l :: rest →
    step s = .next { s with base := b, limit := l, bound := true, pending := rest }

/-- Outside the fence a read yields no value, a write is dropped and changes no cell, each reports its event, and execution
goes on with isExecuting unchanged (R94); so for the host's getValue and setValue, and for getArray and setArray, where each
failed endpoint reports, the first one first, and nothing is copied (D20). That an absent index fails the fence is D4, that a
dropped write does not look at an absent value D3. The reply is log 8 and the queue log 6. -/
def Obligations.OutOfRangeAccessIsNotFatal : Prop :=
  (∀ (s : State) (i : Index) (v : MaybeByte) (undef : ModelFault), s.bound = true → s.inSegment i = false →
    memRead i s = .val none { s with out := s.out ++ [Event.outOfRange .read i] } ∧
    memWrite i v undef s = .val () { s with out := s.out ++ [Event.outOfRange .write i] }) ∧
  (∀ (s : State) (i v : Nat) (rest : List Command), s.live → s.bound = true → s.limit < s.base + i → v ≤ 255 →
    (s.pending = .accGet i :: rest → step s = .next { s with
      reply := some (.byte none), out := s.out ++ [Event.outOfRange .read (some i)], pending := rest }) ∧
    (s.pending = .accSet i v :: rest → step s = .next { s with
      out := s.out ++ [Event.outOfRange .write (some i)], pending := rest })) ∧
  (∀ (s : State) (first last : Nat) (rest : List Command), s.live → s.bound = true →
    (s.limit < s.base + first ∨ s.limit < s.base + last) →
    let notes (d : Direction) : List Event :=
      (if s.limit < s.base + first then [Event.outOfRange d (some first)] else []) ++
      (if s.limit < s.base + last then [Event.outOfRange d (some last)] else [])
    (s.pending = .accGetArray first last :: rest → step s = .next { s with
      reply := some (.array none), out := s.out ++ notes .read, pending := rest }) ∧
    (∀ data : List Nat, s.pending = .accSetArray first data :: rest → data ≠ [] → last = first + data.length - 1 →
      (∀ v ∈ data, v ≤ 255) → step s = .next { s with out := s.out ++ notes .write, pending := rest }))

/-- A host write and then the host read of the same place return what was written: ACC_SET and ACC_GET of a byte (R92, R93),
ACC_SETARRAY and ACC_GETARRAY of a list that fits the window and the memory (R96, R97). Every other cell is unchanged, and so is
everything else but the reply: the CPU registers, the window, PT, OUT and FAULT. A host read alone returns the bytes of the
cells, whoever wrote them (R109), and changes nothing but the reply. An empty range inside the fence reads as the empty list,
and writing no data does nothing. The inclusive range is D20; the reply is log 8, the queue log 6. -/
def Obligations.HostAccessesRoundTrip : Prop :=
  (∀ (s : State) (i v : Nat), s.live → s.accessible (some i) → s.inSegment (some i) = true → v ≤ 255 →
    ∃ t, core.run 2 { s with pending := [.accSet i v, .accGet i] } = .next t ∧
      t.reply = some (.byte (some (BitVec.ofNat 8 v))) ∧ t.cell (s.base + i) = BitVec.ofNat 8 v ∧
      (∀ a, a ≠ s.base + i → t.cell a = s.cell a) ∧
      { t with mem := s.mem, reply := s.reply } = { s with pending := [] }) ∧
  (∀ (s : State) (start : Nat) (data : List Byte), s.live → s.bound = true → data ≠ [] →
    s.base + start + data.length ≤ s.limit + 1 → s.base + start + data.length ≤ s.config.memorySize →
    ∃ t, core.run 2 { s with
        pending := [.accSetArray start (data.map BitVec.toNat), .accGetArray start (start + data.length - 1)] } = .next t ∧
      t.reply = some (.array (some data)) ∧
      (∀ a, (a < s.base + start ∨ s.base + start + data.length ≤ a) → t.cell a = s.cell a) ∧
      { t with mem := s.mem, reply := s.reply } = { s with pending := [] }) ∧
  (∀ (s : State) (i : Nat) (rest : List Command), s.live → s.accessible (some i) → s.inSegment (some i) = true →
    s.pending = .accGet i :: rest →
    step s = .next { s with reply := some (.byte (some (s.cell (s.base + i)))), pending := rest }) ∧
  (∀ (s : State) (start stop : Nat) (rest : List Command), s.live → s.bound = true → start ≤ stop →
    s.base + stop ≤ s.limit → s.base + stop < s.config.memorySize → s.pending = .accGetArray start stop :: rest →
    step s = .next { s with
      reply := some (.array (some ((List.range' (s.base + start) (stop - start + 1)).map s.cell))), pending := rest }) ∧
  (∀ (s : State) (start stop : Nat) (rest : List Command), s.live → s.bound = true →
    (s.pending = .accGetArray start stop :: rest → stop < start → s.base + start ≤ s.limit →
      step s = .next { s with reply := some (.array (some [])), pending := rest }) ∧
    (s.pending = .accSetArray start [] :: rest → step s = .next { s with pending := rest }))

/-- The model faults of a host access, single or bulk (R86, R87, R93, R96, R97, D11, D13, D32): before a window is bound every
one faults; inside the fence and beyond the memory likewise, a bulk access at the first address beyond it (log 22), nothing
copied or written; a host value above 255 faults before the fence is tested. The form is log 5. -/
def Obligations.AccessesThatFault : Prop :=
  ∀ (s : State) (i : Nat) (rest : List Command), s.live →
    (s.bound = false → (s.pending = .accGet i :: rest ∨ (∃ v, s.pending = .accSet i v :: rest) ∨
        (∃ stop, s.pending = .accGetArray i stop :: rest) ∨ (∃ data, s.pending = .accSetArray i data :: rest)) →
      step s = .next ({ s with pending := rest }.raise (.unboundWindow (some i)))) ∧
    (s.bound = true → s.base + i ≤ s.limit → s.config.memorySize ≤ s.base + i →
      (s.pending = .accGet i :: rest ∨ (∃ v, v ≤ 255 ∧ s.pending = .accSet i v :: rest)) →
      step s = .next ({ s with pending := rest }.raise (.windowExceedsMemory (s.base + i)))) ∧
    (∀ last, s.bound = true → i ≤ last → s.base + last ≤ s.limit → s.config.memorySize ≤ s.base + last →
      (s.pending = .accGetArray i last :: rest ∨
        (∃ data, last + 1 = i + data.length ∧ (∀ v ∈ data, v ≤ 255) ∧ s.pending = .accSetArray i data :: rest)) →
      step s = .next ({ s with pending := rest }.raise (.windowExceedsMemory (max (s.base + i) s.config.memorySize)))) ∧
    (∀ v, s.bound = true → 255 < v → s.pending = .accSet i v :: rest →
      step s = .next ({ s with pending := rest }.raise (.badHostValue [v]))) ∧
    (∀ data, s.bound = true → (∃ v ∈ data, 255 < v) → s.pending = .accSetArray i data :: rest →
      step s = .next ({ s with pending := rest }.raise (.badHostValue data)))

/-- The host's table operations (R290, C13): PT_CREATE appends a PCB in NEW with a fresh PID, PT_SET_STATE moves NEW to READY,
PT_REMOVE takes the PCB away; nothing else changes, not even the order of the PCBs (R55). What lies outside the host's
table is log 13. -/
def Obligations.HostTableOperations : Prop :=
  ∀ (s : State) (rest : List Command), s.live →
    (∀ p : Pcb, s.pending = .ptCreate p :: rest → s.pcb? p.processID = none → p.processState = .new → s.isPc p.pc →
      step s = .next { s with pt := s.pt ++ [p], pending := rest }) ∧
    (∀ (pid : Nat) (p : Pcb), s.pending = .ptSetState pid .ready :: rest → s.pcb? pid = some p → p.processState = .new →
      ∃ t, step s = .next t ∧ t.pcb? pid = some { p with processState := .ready } ∧
        (∀ other, other ≠ pid → t.pcb? other = s.pcb? other) ∧
        t.pt.map Pcb.processID = s.pt.map Pcb.processID ∧ { t with pt := s.pt } = { s with pending := rest }) ∧
    (∀ (pid : Nat) (p : Pcb), s.pending = .ptRemove pid :: rest → s.pcb? pid = some p →
      ∃ t, step s = .next t ∧ t.pcb? pid = none ∧
        (∀ other, other ≠ pid → t.pcb? other = s.pcb? other) ∧
        t.pt.map Pcb.processID = (s.pt.map Pcb.processID).filter (fun n => n ≠ pid) ∧ { t with pt := s.pt } = { s with pending := rest })
end

