-- ==== Sys2Proof/Laws/State.lean ====
section
/-! SUPPORT. One lemma per field per named update of the state, so that no proof unfolds an update. -/

namespace Sys2Proof.Machine

/-! ### emit -/

@[simp] theorem State.emit_pc (s : State) (e : Event) : (s.emit e).pc = s.pc := rfl
@[simp] theorem State.emit_ir (s : State) (e : Event) : (s.emit e).ir = s.ir := rfl
@[simp] theorem State.emit_acc (s : State) (e : Event) : (s.emit e).acc = s.acc := rfl
@[simp] theorem State.emit_x (s : State) (e : Event) : (s.emit e).x = s.x := rfl
@[simp] theorem State.emit_y (s : State) (e : Event) : (s.emit e).y = s.y := rfl
@[simp] theorem State.emit_z (s : State) (e : Event) : (s.emit e).z = s.z := rfl
@[simp] theorem State.emit_isExecuting (s : State) (e : Event) : (s.emit e).isExecuting = s.isExecuting := rfl
@[simp] theorem State.emit_pid (s : State) (e : Event) : (s.emit e).pid = s.pid := rfl
@[simp] theorem State.emit_base (s : State) (e : Event) : (s.emit e).base = s.base := rfl
@[simp] theorem State.emit_limit (s : State) (e : Event) : (s.emit e).limit = s.limit := rfl
@[simp] theorem State.emit_bound (s : State) (e : Event) : (s.emit e).bound = s.bound := rfl
@[simp] theorem State.emit_mem (s : State) (e : Event) : (s.emit e).mem = s.mem := rfl
@[simp] theorem State.emit_pt (s : State) (e : Event) : (s.emit e).pt = s.pt := rfl
@[simp] theorem State.emit_out (s : State) (e : Event) : (s.emit e).out = s.out ++ [e] := rfl
@[simp] theorem State.emit_faults (s : State) (e : Event) : (s.emit e).faults = s.faults := rfl
@[simp] theorem State.emit_trapped (s : State) (e : Event) : (s.emit e).trapped = s.trapped := rfl
@[simp] theorem State.emit_config (s : State) (e : Event) : (s.emit e).config = s.config := rfl
@[simp] theorem State.emit_draw (s : State) (e : Event) : (s.emit e).draw = s.draw := rfl
@[simp] theorem State.emit_reply (s : State) (e : Event) : (s.emit e).reply = s.reply := rfl
@[simp] theorem State.emit_pending (s : State) (e : Event) : (s.emit e).pending = s.pending := rfl

/-! ### halt -/

@[simp] theorem State.halt_pc (s : State) : (s.halt).pc = s.pc := rfl
@[simp] theorem State.halt_ir (s : State) : (s.halt).ir = s.ir := rfl
@[simp] theorem State.halt_acc (s : State) : (s.halt).acc = s.acc := rfl
@[simp] theorem State.halt_x (s : State) : (s.halt).x = s.x := rfl
@[simp] theorem State.halt_y (s : State) : (s.halt).y = s.y := rfl
@[simp] theorem State.halt_z (s : State) : (s.halt).z = s.z := rfl
@[simp] theorem State.halt_isExecuting (s : State) : (s.halt).isExecuting = false := rfl
@[simp] theorem State.halt_pid (s : State) : (s.halt).pid = s.pid := rfl
@[simp] theorem State.halt_base (s : State) : (s.halt).base = s.base := rfl
@[simp] theorem State.halt_limit (s : State) : (s.halt).limit = s.limit := rfl
@[simp] theorem State.halt_bound (s : State) : (s.halt).bound = s.bound := rfl
@[simp] theorem State.halt_mem (s : State) : (s.halt).mem = s.mem := rfl
@[simp] theorem State.halt_pt (s : State) : (s.halt).pt = s.pt := rfl
@[simp] theorem State.halt_out (s : State) : (s.halt).out = s.out := rfl
@[simp] theorem State.halt_faults (s : State) : (s.halt).faults = s.faults := rfl
@[simp] theorem State.halt_trapped (s : State) : (s.halt).trapped = s.trapped := rfl
@[simp] theorem State.halt_config (s : State) : (s.halt).config = s.config := rfl
@[simp] theorem State.halt_draw (s : State) : (s.halt).draw = s.draw := rfl
@[simp] theorem State.halt_reply (s : State) : (s.halt).reply = s.reply := rfl
@[simp] theorem State.halt_pending (s : State) : (s.halt).pending = s.pending := rfl

/-! ### raise -/

@[simp] theorem State.raise_pc (s : State) (f : ModelFault) : (s.raise f).pc = s.pc := rfl
@[simp] theorem State.raise_ir (s : State) (f : ModelFault) : (s.raise f).ir = s.ir := rfl
@[simp] theorem State.raise_acc (s : State) (f : ModelFault) : (s.raise f).acc = s.acc := rfl
@[simp] theorem State.raise_x (s : State) (f : ModelFault) : (s.raise f).x = s.x := rfl
@[simp] theorem State.raise_y (s : State) (f : ModelFault) : (s.raise f).y = s.y := rfl
@[simp] theorem State.raise_z (s : State) (f : ModelFault) : (s.raise f).z = s.z := rfl
@[simp] theorem State.raise_isExecuting (s : State) (f : ModelFault) : (s.raise f).isExecuting = s.isExecuting := rfl
@[simp] theorem State.raise_pid (s : State) (f : ModelFault) : (s.raise f).pid = s.pid := rfl
@[simp] theorem State.raise_base (s : State) (f : ModelFault) : (s.raise f).base = s.base := rfl
@[simp] theorem State.raise_limit (s : State) (f : ModelFault) : (s.raise f).limit = s.limit := rfl
@[simp] theorem State.raise_bound (s : State) (f : ModelFault) : (s.raise f).bound = s.bound := rfl
@[simp] theorem State.raise_mem (s : State) (f : ModelFault) : (s.raise f).mem = s.mem := rfl
@[simp] theorem State.raise_pt (s : State) (f : ModelFault) : (s.raise f).pt = s.pt := rfl
@[simp] theorem State.raise_out (s : State) (f : ModelFault) : (s.raise f).out = s.out := rfl
@[simp] theorem State.raise_faults (s : State) (f : ModelFault) : (s.raise f).faults = if f ∈ s.faults then s.faults else s.faults ++ [f] := rfl
@[simp] theorem State.raise_trapped (s : State) (f : ModelFault) : (s.raise f).trapped = s.trapped := rfl
@[simp] theorem State.raise_config (s : State) (f : ModelFault) : (s.raise f).config = s.config := rfl
@[simp] theorem State.raise_draw (s : State) (f : ModelFault) : (s.raise f).draw = s.draw := rfl
@[simp] theorem State.raise_reply (s : State) (f : ModelFault) : (s.raise f).reply = s.reply := rfl
@[simp] theorem State.raise_pending (s : State) (f : ModelFault) : (s.raise f).pending = s.pending := rfl

/-! ### setCell -/

@[simp] theorem State.setCell_pc (s : State) (a : Nat) (v : Byte) : (s.setCell a v).pc = s.pc := rfl
@[simp] theorem State.setCell_ir (s : State) (a : Nat) (v : Byte) : (s.setCell a v).ir = s.ir := rfl
@[simp] theorem State.setCell_acc (s : State) (a : Nat) (v : Byte) : (s.setCell a v).acc = s.acc := rfl
@[simp] theorem State.setCell_x (s : State) (a : Nat) (v : Byte) : (s.setCell a v).x = s.x := rfl
@[simp] theorem State.setCell_y (s : State) (a : Nat) (v : Byte) : (s.setCell a v).y = s.y := rfl
@[simp] theorem State.setCell_z (s : State) (a : Nat) (v : Byte) : (s.setCell a v).z = s.z := rfl
@[simp] theorem State.setCell_isExecuting (s : State) (a : Nat) (v : Byte) : (s.setCell a v).isExecuting = s.isExecuting := rfl
@[simp] theorem State.setCell_pid (s : State) (a : Nat) (v : Byte) : (s.setCell a v).pid = s.pid := rfl
@[simp] theorem State.setCell_base (s : State) (a : Nat) (v : Byte) : (s.setCell a v).base = s.base := rfl
@[simp] theorem State.setCell_limit (s : State) (a : Nat) (v : Byte) : (s.setCell a v).limit = s.limit := rfl
@[simp] theorem State.setCell_bound (s : State) (a : Nat) (v : Byte) : (s.setCell a v).bound = s.bound := rfl
@[simp] theorem State.setCell_mem (s : State) (a : Nat) (v : Byte) : (s.setCell a v).mem = memInsert s.mem a v := rfl
@[simp] theorem State.setCell_pt (s : State) (a : Nat) (v : Byte) : (s.setCell a v).pt = s.pt := rfl
@[simp] theorem State.setCell_out (s : State) (a : Nat) (v : Byte) : (s.setCell a v).out = s.out := rfl
@[simp] theorem State.setCell_faults (s : State) (a : Nat) (v : Byte) : (s.setCell a v).faults = s.faults := rfl
@[simp] theorem State.setCell_trapped (s : State) (a : Nat) (v : Byte) : (s.setCell a v).trapped = s.trapped := rfl
@[simp] theorem State.setCell_config (s : State) (a : Nat) (v : Byte) : (s.setCell a v).config = s.config := rfl
@[simp] theorem State.setCell_draw (s : State) (a : Nat) (v : Byte) : (s.setCell a v).draw = s.draw := rfl
@[simp] theorem State.setCell_reply (s : State) (a : Nat) (v : Byte) : (s.setCell a v).reply = s.reply := rfl
@[simp] theorem State.setCell_pending (s : State) (a : Nat) (v : Byte) : (s.setCell a v).pending = s.pending := rfl

/-! ### useSegment -/

@[simp] theorem State.useSegment_pc (s : State) (w : Window) : (s.useSegment w).pc = s.pc := rfl
@[simp] theorem State.useSegment_ir (s : State) (w : Window) : (s.useSegment w).ir = s.ir := rfl
@[simp] theorem State.useSegment_acc (s : State) (w : Window) : (s.useSegment w).acc = s.acc := rfl
@[simp] theorem State.useSegment_x (s : State) (w : Window) : (s.useSegment w).x = s.x := rfl
@[simp] theorem State.useSegment_y (s : State) (w : Window) : (s.useSegment w).y = s.y := rfl
@[simp] theorem State.useSegment_z (s : State) (w : Window) : (s.useSegment w).z = s.z := rfl
@[simp] theorem State.useSegment_isExecuting (s : State) (w : Window) : (s.useSegment w).isExecuting = s.isExecuting := rfl
@[simp] theorem State.useSegment_pid (s : State) (w : Window) : (s.useSegment w).pid = s.pid := rfl
@[simp] theorem State.useSegment_base (s : State) (w : Window) : (s.useSegment w).base = w.base := rfl
@[simp] theorem State.useSegment_limit (s : State) (w : Window) : (s.useSegment w).limit = w.limit := rfl
@[simp] theorem State.useSegment_bound (s : State) (w : Window) : (s.useSegment w).bound = true := rfl
@[simp] theorem State.useSegment_mem (s : State) (w : Window) : (s.useSegment w).mem = s.mem := rfl
@[simp] theorem State.useSegment_pt (s : State) (w : Window) : (s.useSegment w).pt = s.pt := rfl
@[simp] theorem State.useSegment_out (s : State) (w : Window) : (s.useSegment w).out = s.out := rfl
@[simp] theorem State.useSegment_faults (s : State) (w : Window) : (s.useSegment w).faults = s.faults := rfl
@[simp] theorem State.useSegment_trapped (s : State) (w : Window) : (s.useSegment w).trapped = s.trapped := rfl
@[simp] theorem State.useSegment_config (s : State) (w : Window) : (s.useSegment w).config = s.config := rfl
@[simp] theorem State.useSegment_draw (s : State) (w : Window) : (s.useSegment w).draw = s.draw := rfl
@[simp] theorem State.useSegment_reply (s : State) (w : Window) : (s.useSegment w).reply = s.reply := rfl
@[simp] theorem State.useSegment_pending (s : State) (w : Window) : (s.useSegment w).pending = s.pending := rfl

/-! ### restore -/

@[simp] theorem State.restore_pc (s : State) (p : Pcb) : (s.restore p).pc = p.pc := rfl
@[simp] theorem State.restore_ir (s : State) (p : Pcb) : (s.restore p).ir = p.ir := rfl
@[simp] theorem State.restore_acc (s : State) (p : Pcb) : (s.restore p).acc = p.acc := rfl
@[simp] theorem State.restore_x (s : State) (p : Pcb) : (s.restore p).x = p.x := rfl
@[simp] theorem State.restore_y (s : State) (p : Pcb) : (s.restore p).y = p.y := rfl
@[simp] theorem State.restore_z (s : State) (p : Pcb) : (s.restore p).z = p.z := rfl
@[simp] theorem State.restore_isExecuting (s : State) (p : Pcb) : (s.restore p).isExecuting = s.isExecuting := rfl
@[simp] theorem State.restore_pid (s : State) (p : Pcb) : (s.restore p).pid = s.pid := rfl
@[simp] theorem State.restore_base (s : State) (p : Pcb) : (s.restore p).base = s.base := rfl
@[simp] theorem State.restore_limit (s : State) (p : Pcb) : (s.restore p).limit = s.limit := rfl
@[simp] theorem State.restore_bound (s : State) (p : Pcb) : (s.restore p).bound = s.bound := rfl
@[simp] theorem State.restore_mem (s : State) (p : Pcb) : (s.restore p).mem = s.mem := rfl
@[simp] theorem State.restore_pt (s : State) (p : Pcb) : (s.restore p).pt = s.pt := rfl
@[simp] theorem State.restore_out (s : State) (p : Pcb) : (s.restore p).out = s.out := rfl
@[simp] theorem State.restore_faults (s : State) (p : Pcb) : (s.restore p).faults = s.faults := rfl
@[simp] theorem State.restore_trapped (s : State) (p : Pcb) : (s.restore p).trapped = s.trapped := rfl
@[simp] theorem State.restore_config (s : State) (p : Pcb) : (s.restore p).config = s.config := rfl
@[simp] theorem State.restore_draw (s : State) (p : Pcb) : (s.restore p).draw = s.draw := rfl
@[simp] theorem State.restore_reply (s : State) (p : Pcb) : (s.restore p).reply = s.reply := rfl
@[simp] theorem State.restore_pending (s : State) (p : Pcb) : (s.restore p).pending = s.pending := rfl

/-! ### updatePcb -/

@[simp] theorem State.updatePcb_pc (s : State) (n : Nat) (f : Pcb → Pcb) : (s.updatePcb n f).pc = s.pc := rfl
@[simp] theorem State.updatePcb_ir (s : State) (n : Nat) (f : Pcb → Pcb) : (s.updatePcb n f).ir = s.ir := rfl
@[simp] theorem State.updatePcb_acc (s : State) (n : Nat) (f : Pcb → Pcb) : (s.updatePcb n f).acc = s.acc := rfl
@[simp] theorem State.updatePcb_x (s : State) (n : Nat) (f : Pcb → Pcb) : (s.updatePcb n f).x = s.x := rfl
@[simp] theorem State.updatePcb_y (s : State) (n : Nat) (f : Pcb → Pcb) : (s.updatePcb n f).y = s.y := rfl
@[simp] theorem State.updatePcb_z (s : State) (n : Nat) (f : Pcb → Pcb) : (s.updatePcb n f).z = s.z := rfl
@[simp] theorem State.updatePcb_isExecuting (s : State) (n : Nat) (f : Pcb → Pcb) : (s.updatePcb n f).isExecuting = s.isExecuting := rfl
@[simp] theorem State.updatePcb_pid (s : State) (n : Nat) (f : Pcb → Pcb) : (s.updatePcb n f).pid = s.pid := rfl
@[simp] theorem State.updatePcb_base (s : State) (n : Nat) (f : Pcb → Pcb) : (s.updatePcb n f).base = s.base := rfl
@[simp] theorem State.updatePcb_limit (s : State) (n : Nat) (f : Pcb → Pcb) : (s.updatePcb n f).limit = s.limit := rfl
@[simp] theorem State.updatePcb_bound (s : State) (n : Nat) (f : Pcb → Pcb) : (s.updatePcb n f).bound = s.bound := rfl
@[simp] theorem State.updatePcb_mem (s : State) (n : Nat) (f : Pcb → Pcb) : (s.updatePcb n f).mem = s.mem := rfl
@[simp] theorem State.updatePcb_pt (s : State) (n : Nat) (f : Pcb → Pcb) : (s.updatePcb n f).pt = s.pt.map fun p => if p.processID = n then f p else p := rfl
@[simp] theorem State.updatePcb_out (s : State) (n : Nat) (f : Pcb → Pcb) : (s.updatePcb n f).out = s.out := rfl
@[simp] theorem State.updatePcb_faults (s : State) (n : Nat) (f : Pcb → Pcb) : (s.updatePcb n f).faults = s.faults := rfl
@[simp] theorem State.updatePcb_trapped (s : State) (n : Nat) (f : Pcb → Pcb) : (s.updatePcb n f).trapped = s.trapped := rfl
@[simp] theorem State.updatePcb_config (s : State) (n : Nat) (f : Pcb → Pcb) : (s.updatePcb n f).config = s.config := rfl
@[simp] theorem State.updatePcb_draw (s : State) (n : Nat) (f : Pcb → Pcb) : (s.updatePcb n f).draw = s.draw := rfl
@[simp] theorem State.updatePcb_reply (s : State) (n : Nat) (f : Pcb → Pcb) : (s.updatePcb n f).reply = s.reply := rfl
@[simp] theorem State.updatePcb_pending (s : State) (n : Nat) (f : Pcb → Pcb) : (s.updatePcb n f).pending = s.pending := rfl

/-! ### cpuInit -/

@[simp] theorem State.cpuInit_pc (s : State) : (s.cpuInit).pc = 0 := rfl
@[simp] theorem State.cpuInit_ir (s : State) : (s.cpuInit).ir = some 0 := rfl
@[simp] theorem State.cpuInit_acc (s : State) : (s.cpuInit).acc = some 0 := rfl
@[simp] theorem State.cpuInit_x (s : State) : (s.cpuInit).x = some 0 := rfl
@[simp] theorem State.cpuInit_y (s : State) : (s.cpuInit).y = some 0 := rfl
@[simp] theorem State.cpuInit_z (s : State) : (s.cpuInit).z = false := rfl
@[simp] theorem State.cpuInit_isExecuting (s : State) : (s.cpuInit).isExecuting = false := rfl
@[simp] theorem State.cpuInit_pid (s : State) : (s.cpuInit).pid = 0 := rfl
@[simp] theorem State.cpuInit_base (s : State) : (s.cpuInit).base = s.base := rfl
@[simp] theorem State.cpuInit_limit (s : State) : (s.cpuInit).limit = s.limit := rfl
@[simp] theorem State.cpuInit_bound (s : State) : (s.cpuInit).bound = s.bound := rfl
@[simp] theorem State.cpuInit_mem (s : State) : (s.cpuInit).mem = s.mem := rfl
@[simp] theorem State.cpuInit_pt (s : State) : (s.cpuInit).pt = s.pt := rfl
@[simp] theorem State.cpuInit_out (s : State) : (s.cpuInit).out = s.out := rfl
@[simp] theorem State.cpuInit_faults (s : State) : (s.cpuInit).faults = s.faults := rfl
@[simp] theorem State.cpuInit_trapped (s : State) : (s.cpuInit).trapped = s.trapped := rfl
@[simp] theorem State.cpuInit_config (s : State) : (s.cpuInit).config = s.config := rfl
@[simp] theorem State.cpuInit_draw (s : State) : (s.cpuInit).draw = s.draw := rfl
@[simp] theorem State.cpuInit_reply (s : State) : (s.cpuInit).reply = s.reply := rfl
@[simp] theorem State.cpuInit_pending (s : State) : (s.cpuInit).pending = s.pending := rfl

/-! ### setCells -/

@[simp] theorem State.setCells_pc (s : State) (a : Nat) (l : List Byte) : (s.setCells a l).pc = s.pc := by
  induction l generalizing s a with
  | nil => rfl
  | cons v l ih => exact ih _ _
@[simp] theorem State.setCells_ir (s : State) (a : Nat) (l : List Byte) : (s.setCells a l).ir = s.ir := by
  induction l generalizing s a with
  | nil => rfl
  | cons v l ih => exact ih _ _
@[simp] theorem State.setCells_acc (s : State) (a : Nat) (l : List Byte) : (s.setCells a l).acc = s.acc := by
  induction l generalizing s a with
  | nil => rfl
  | cons v l ih => exact ih _ _
@[simp] theorem State.setCells_x (s : State) (a : Nat) (l : List Byte) : (s.setCells a l).x = s.x := by
  induction l generalizing s a with
  | nil => rfl
  | cons v l ih => exact ih _ _
@[simp] theorem State.setCells_y (s : State) (a : Nat) (l : List Byte) : (s.setCells a l).y = s.y := by
  induction l generalizing s a with
  | nil => rfl
  | cons v l ih => exact ih _ _
@[simp] theorem State.setCells_z (s : State) (a : Nat) (l : List Byte) : (s.setCells a l).z = s.z := by
  induction l generalizing s a with
  | nil => rfl
  | cons v l ih => exact ih _ _
@[simp] theorem State.setCells_isExecuting (s : State) (a : Nat) (l : List Byte) : (s.setCells a l).isExecuting = s.isExecuting := by
  induction l generalizing s a with
  | nil => rfl
  | cons v l ih => exact ih _ _
@[simp] theorem State.setCells_pid (s : State) (a : Nat) (l : List Byte) : (s.setCells a l).pid = s.pid := by
  induction l generalizing s a with
  | nil => rfl
  | cons v l ih => exact ih _ _
@[simp] theorem State.setCells_base (s : State) (a : Nat) (l : List Byte) : (s.setCells a l).base = s.base := by
  induction l generalizing s a with
  | nil => rfl
  | cons v l ih => exact ih _ _
@[simp] theorem State.setCells_limit (s : State) (a : Nat) (l : List Byte) : (s.setCells a l).limit = s.limit := by
  induction l generalizing s a with
  | nil => rfl
  | cons v l ih => exact ih _ _
@[simp] theorem State.setCells_bound (s : State) (a : Nat) (l : List Byte) : (s.setCells a l).bound = s.bound := by
  induction l generalizing s a with
  | nil => rfl
  | cons v l ih => exact ih _ _
@[simp] theorem State.setCells_pt (s : State) (a : Nat) (l : List Byte) : (s.setCells a l).pt = s.pt := by
  induction l generalizing s a with
  | nil => rfl
  | cons v l ih => exact ih _ _
@[simp] theorem State.setCells_out (s : State) (a : Nat) (l : List Byte) : (s.setCells a l).out = s.out := by
  induction l generalizing s a with
  | nil => rfl
  | cons v l ih => exact ih _ _
@[simp] theorem State.setCells_faults (s : State) (a : Nat) (l : List Byte) : (s.setCells a l).faults = s.faults := by
  induction l generalizing s a with
  | nil => rfl
  | cons v l ih => exact ih _ _
@[simp] theorem State.setCells_trapped (s : State) (a : Nat) (l : List Byte) : (s.setCells a l).trapped = s.trapped := by
  induction l generalizing s a with
  | nil => rfl
  | cons v l ih => exact ih _ _
@[simp] theorem State.setCells_config (s : State) (a : Nat) (l : List Byte) : (s.setCells a l).config = s.config := by
  induction l generalizing s a with
  | nil => rfl
  | cons v l ih => exact ih _ _
@[simp] theorem State.setCells_draw (s : State) (a : Nat) (l : List Byte) : (s.setCells a l).draw = s.draw := by
  induction l generalizing s a with
  | nil => rfl
  | cons v l ih => exact ih _ _
@[simp] theorem State.setCells_reply (s : State) (a : Nat) (l : List Byte) : (s.setCells a l).reply = s.reply := by
  induction l generalizing s a with
  | nil => rfl
  | cons v l ih => exact ih _ _
@[simp] theorem State.setCells_pending (s : State) (a : Nat) (l : List Byte) : (s.setCells a l).pending = s.pending := by
  induction l generalizing s a with
  | nil => rfl
  | cons v l ih => exact ih _ _

/-! ### save -/

@[simp] theorem State.save_processID (s : State) (p : Pcb) : (s.save p).processID = p.processID := rfl
@[simp] theorem State.save_pc (s : State) (p : Pcb) : (s.save p).pc = s.pc := rfl
@[simp] theorem State.save_ir (s : State) (p : Pcb) : (s.save p).ir = s.ir := rfl
@[simp] theorem State.save_acc (s : State) (p : Pcb) : (s.save p).acc = s.acc := rfl
@[simp] theorem State.save_x (s : State) (p : Pcb) : (s.save p).x = s.x := rfl
@[simp] theorem State.save_y (s : State) (p : Pcb) : (s.save p).y = s.y := rfl
@[simp] theorem State.save_z (s : State) (p : Pcb) : (s.save p).z = s.z := rfl
@[simp] theorem State.save_priority (s : State) (p : Pcb) : (s.save p).priority = p.priority := rfl
@[simp] theorem State.save_processLocation (s : State) (p : Pcb) : (s.save p).processLocation = p.processLocation := rfl
@[simp] theorem State.save_processState (s : State) (p : Pcb) : (s.save p).processState = p.processState := rfl

/-! ### resetBlock -/

/-- With memory, what RESET leaves in the fields that depend on it. -/
theorem State.resetBlock_present (s : State) (h : s.config.memoryPresent = true) :
    s.resetBlock.bound = false ∧ s.resetBlock.out = [] ∧ s.resetBlock.trapped = s.trapped := by
  simp [State.resetBlock, State.constructAccessor, State.unbindWindow, State.drawMemory, State.cpuInit, h]

/-- Without memory, the trap of R276. -/
theorem State.resetBlock_absent (s : State) (h : s.config.memoryPresent = false) :
    s.resetBlock.out = [.trap .backingStoreMissing] ∧ s.resetBlock.trapped = true := by
  simp [State.resetBlock, State.constructAccessor, State.unbindWindow, State.drawMemory, State.cpuInit, State.emit, h]

@[simp] theorem State.resetBlock_pc (s : State) : s.resetBlock.pc = 0 := by
  cases h : s.config.memoryPresent <;>
    simp [State.resetBlock, State.constructAccessor, State.unbindWindow, State.drawMemory, State.cpuInit, h]

@[simp] theorem State.resetBlock_ir (s : State) : s.resetBlock.ir = some 0 := by
  cases h : s.config.memoryPresent <;>
    simp [State.resetBlock, State.constructAccessor, State.unbindWindow, State.drawMemory, State.cpuInit, h]

@[simp] theorem State.resetBlock_acc (s : State) : s.resetBlock.acc = some 0 := by
  cases h : s.config.memoryPresent <;>
    simp [State.resetBlock, State.constructAccessor, State.unbindWindow, State.drawMemory, State.cpuInit, h]

@[simp] theorem State.resetBlock_x (s : State) : s.resetBlock.x = some 0 := by
  cases h : s.config.memoryPresent <;>
    simp [State.resetBlock, State.constructAccessor, State.unbindWindow, State.drawMemory, State.cpuInit, h]

@[simp] theorem State.resetBlock_y (s : State) : s.resetBlock.y = some 0 := by
  cases h : s.config.memoryPresent <;>
    simp [State.resetBlock, State.constructAccessor, State.unbindWindow, State.drawMemory, State.cpuInit, h]

@[simp] theorem State.resetBlock_z (s : State) : s.resetBlock.z = false := by
  cases h : s.config.memoryPresent <;>
    simp [State.resetBlock, State.constructAccessor, State.unbindWindow, State.drawMemory, State.cpuInit, h]

@[simp] theorem State.resetBlock_isExecuting (s : State) : s.resetBlock.isExecuting = false := by
  cases h : s.config.memoryPresent <;>
    simp [State.resetBlock, State.constructAccessor, State.unbindWindow, State.drawMemory, State.cpuInit, h]

@[simp] theorem State.resetBlock_pid (s : State) : s.resetBlock.pid = 0 := by
  cases h : s.config.memoryPresent <;>
    simp [State.resetBlock, State.constructAccessor, State.unbindWindow, State.drawMemory, State.cpuInit, h]

@[simp] theorem State.resetBlock_base (s : State) : s.resetBlock.base = Config.resetBase (s.draw + 1) := by
  cases h : s.config.memoryPresent <;>
    simp [State.resetBlock, State.constructAccessor, State.unbindWindow, State.drawMemory, State.cpuInit, h]

@[simp] theorem State.resetBlock_limit (s : State) : s.resetBlock.limit = Config.resetLimit (s.draw + 1) := by
  cases h : s.config.memoryPresent <;>
    simp [State.resetBlock, State.constructAccessor, State.unbindWindow, State.drawMemory, State.cpuInit, h]

@[simp] theorem State.resetBlock_bound (s : State) : s.resetBlock.bound = false := by
  cases h : s.config.memoryPresent <;>
    simp [State.resetBlock, State.constructAccessor, State.unbindWindow, State.drawMemory, State.cpuInit, h]

@[simp] theorem State.resetBlock_mem (s : State) : s.resetBlock.mem = [] := by
  cases h : s.config.memoryPresent <;>
    simp [State.resetBlock, State.constructAccessor, State.unbindWindow, State.drawMemory, State.cpuInit, h]

@[simp] theorem State.resetBlock_pt (s : State) : s.resetBlock.pt = [] := by
  cases h : s.config.memoryPresent <;>
    simp [State.resetBlock, State.constructAccessor, State.unbindWindow, State.drawMemory, State.cpuInit, h]

@[simp] theorem State.resetBlock_faults (s : State) : s.resetBlock.faults = s.faults := by
  cases h : s.config.memoryPresent <;>
    simp [State.resetBlock, State.constructAccessor, State.unbindWindow, State.drawMemory, State.cpuInit, h]

@[simp] theorem State.resetBlock_config (s : State) : s.resetBlock.config = s.config := by
  cases h : s.config.memoryPresent <;>
    simp [State.resetBlock, State.constructAccessor, State.unbindWindow, State.drawMemory, State.cpuInit, h]

@[simp] theorem State.resetBlock_draw (s : State) : s.resetBlock.draw = s.draw + 1 := by
  cases h : s.config.memoryPresent <;>
    simp [State.resetBlock, State.constructAccessor, State.unbindWindow, State.drawMemory, State.cpuInit, h]

@[simp] theorem State.resetBlock_reply (s : State) : s.resetBlock.reply = none := by
  cases h : s.config.memoryPresent <;>
    simp [State.resetBlock, State.constructAccessor, State.unbindWindow, State.drawMemory, State.cpuInit, h]

@[simp] theorem State.resetBlock_pending (s : State) : s.resetBlock.pending = s.pending := by
  cases h : s.config.memoryPresent <;>
    simp [State.resetBlock, State.constructAccessor, State.unbindWindow, State.drawMemory, State.cpuInit, h]

end Sys2Proof.Machine
end

