-- ==== Sys2Proof/Laws/Memory.lean ====
section
/-! SUPPORT. The memory laws: reading after writing, and the canonical form. -/

namespace Sys2Proof.Machine

theorem memLookup_memInsert (m : List Host.Cell) (a b : Nat) (v : Byte) :
    memLookup (memInsert m a v) b = if b = a then some v else memLookup m b := by
  induction m with
  | nil => rfl
  | cons c rest ih =>
    obtain ⟨k, w⟩ := c
    simp only [memInsert]
    split
    · rfl
    · split
      · subst_vars
        simp only [memLookup]
        split <;> simp_all
      · simp only [memLookup, ih]
        split <;> split <;> first | rfl | omega

theorem memInsert_addresses (m : List Host.Cell) (a : Nat) (v : Byte) (c : Host.Cell) (h : c ∈ memInsert m a v) :
    c = (a, v) ∨ c ∈ m := by
  induction m with
  | nil => exact .inl (List.mem_singleton.mp h)
  | cons d rest ih =>
    obtain ⟨k, w⟩ := d
    simp only [memInsert] at h
    split at h
    · simpa using h
    · split at h <;> simp only [List.mem_cons] at h ⊢ <;> tauto

theorem memWf_cons (c : Host.Cell) (m : List Host.Cell) :
    memWf (c :: m) = true ↔ (∀ d ∈ m, c.1 < d.1) ∧ memWf m = true := by
  simp [memWf]

/-- Writing keeps the canonical form. -/
theorem memInsert_wf (m : List Host.Cell) (a : Nat) (v : Byte) (h : memWf m = true) : memWf (memInsert m a v) = true := by
  induction m with
  | nil => rfl
  | cons c rest ih =>
    obtain ⟨k, w⟩ := c
    rw [memWf_cons] at h
    simp only [memInsert]
    split
    · rename_i hlt
      rw [memWf_cons, memWf_cons]
      refine ⟨fun d hd => ?_, h⟩
      rcases List.mem_cons.mp hd with rfl | hd
      · exact hlt
      · exact lt_trans hlt (h.1 d hd)
    · split
      · subst_vars
        rw [memWf_cons]
        exact h
      · rw [memWf_cons]
        refine ⟨fun d hd => ?_, ih h.2⟩
        rcases memInsert_addresses rest a v d hd with rfl | hd
        · simp only at *
          omega
        · exact h.1 d hd

/-- A canonical memory is determined by what it answers: equal memories are equal data. -/
theorem memWf_ext (m n : List Host.Cell) (hm : memWf m = true) (hn : memWf n = true)
    (h : ∀ a, memLookup m a = memLookup n a) : m = n := by
  have absent : ∀ (l : List Host.Cell) (k : Nat), (∀ d ∈ l, k < d.1) → memLookup l k = none := by
    intro l k
    induction l with
    | nil => intro _; rfl
    | cons c l ih =>
      intro hl
      have hc := hl c (by simp)
      simp only [memLookup]
      rw [if_neg (by omega), ih fun d hd => hl d (by simp [hd])]
  induction m generalizing n with
  | nil =>
    cases n with
    | nil => rfl
    | cons c n => have := h c.1; simp [memLookup] at this
  | cons c m ih =>
    cases n with
    | nil => have := h c.1; simp [memLookup] at this
    | cons d n =>
      rw [memWf_cons] at hm hn
      have key : c.1 = d.1 := by
        by_contra hne
        rcases Nat.lt_or_gt_of_ne hne with hlt | hlt
        · have := h c.1
          simp only [memLookup, if_neg hne] at this
          rw [absent n c.1 fun e he => lt_trans hlt (hn.1 e he)] at this
          simp at this
        · have := h d.1
          simp only [memLookup, if_neg (Ne.symm hne)] at this
          rw [absent m d.1 fun e he => lt_trans hlt (hm.1 e he)] at this
          simp at this
      have val : c.2 = d.2 := by
        have := h c.1
        simpa [memLookup, key] using this
      have rest : m = n := by
        refine ih n hm.2 hn.2 fun a => ?_
        by_cases ha : a = c.1
        · subst ha
          rw [absent m c.1 hm.1, absent n c.1 (by rw [key]; exact hn.1)]
        · have := h a
          simpa only [memLookup, if_neg ha, if_neg (key ▸ ha)] using this
      rw [Prod.ext key val, rest]

/-- Reading one cell after writing one. -/
theorem State.cell_setCell (s : State) (a b : Nat) (v : Byte) :
    (s.setCell a v).cell b = if b = a then v else s.cell b := by
  simp only [State.cell, State.setCell_mem, State.setCell_draw, memLookup_memInsert]
  split <;> rfl

@[simp] theorem State.cell_setCell_same (s : State) (a : Nat) (v : Byte) : (s.setCell a v).cell a = v := by
  simp [State.cell_setCell]

theorem State.cell_setCell_other (s : State) (a b : Nat) (v : Byte) (h : b ≠ a) :
    (s.setCell a v).cell b = s.cell b := by
  simp [State.cell_setCell, h]

/-- A cell outside the range that a list of bytes is written to. -/
theorem State.cell_setCells_outside (s : State) (a b : Nat) (l : List Byte) (h : b < a ∨ a + l.length ≤ b) :
    (s.setCells a l).cell b = s.cell b := by
  induction l generalizing s a with
  | nil => rfl
  | cons v l ih =>
    simp only [List.length_cons] at h
    rw [State.setCells, ih _ _ (by omega), State.cell_setCell_other _ _ _ _ (by omega)]

/-- A cell inside it. -/
theorem State.cell_setCells_inside (s : State) (a k : Nat) (l : List Byte) (v : Byte) (h : l[k]? = some v) :
    (s.setCells a l).cell (a + k) = v := by
  induction l generalizing s a k with
  | nil => simp at h
  | cons w l ih =>
    cases k with
    | zero =>
      simp only [List.getElem?_cons_zero, Option.some.injEq] at h
      rw [State.setCells, State.cell_setCells_outside _ _ _ _ (by omega), Nat.add_zero, State.cell_setCell_same, h]
    | succ k =>
      simp only [List.getElem?_cons_succ] at h
      rw [State.setCells, show a + (k + 1) = (a + 1) + k by omega]
      exact ih _ _ _ h

/-- Two states with the same memory and the same draw read the same. -/
theorem State.cell_congr {s t : State} (hm : t.mem = s.mem) (hd : t.draw = s.draw) (a : Nat) : t.cell a = s.cell a := by
  simp only [State.cell, hm, hd]

/-- Writing a list of bytes keeps the canonical form. -/
theorem State.setCells_wf (s : State) (a : Nat) (l : List Byte) (h : memWf s.mem = true) :
    memWf (s.setCells a l).mem = true := by
  induction l generalizing s a with
  | nil => exact h
  | cons v l ih => exact ih _ _ (memInsert_wf _ _ _ h)

/-- It lists no address outside the old ones and the range written. -/
theorem State.setCells_addresses (s : State) (a : Nat) (l : List Byte) (c : Host.Cell) (h : c ∈ (s.setCells a l).mem) :
    c ∈ s.mem ∨ (a ≤ c.1 ∧ c.1 < a + l.length) := by
  induction l generalizing s a with
  | nil => exact .inl h
  | cons v l ih =>
    rcases ih _ _ h with h | h
    · rcases memInsert_addresses _ _ _ _ h with rfl | h
      · right; simp
      · exact .inl h
    · right
      simp only [List.length_cons]
      omega

end Sys2Proof.Machine
end

