-- ==== Sys2Proof/Laws/Ops.lean ====
section
/-! SUPPORT. What each shared operation does, said once: the equation where it succeeds, and the list of all it can do. -/

namespace Sys2Proof.Machine

@[simp] theorem Res.bind_val {α β : Type} (a : α) (s : State) (f : α → State → Res β) : (Res.val a s).bind f = f a s := rfl

@[simp] theorem Res.bind_raised {α β : Type} (s : State) (f : α → State → Res β) :
    (Res.raised s : Res α).bind f = .raised s := rfl

@[simp] theorem Res.answer_val {α : Type} (a : α) (s : State) : (Res.val a s).answer = .next s := rfl

@[simp] theorem Res.answer_raised {α : Type} (s : State) : (Res.raised s : Res α).answer = .next s := rfl

theorem Res.answer_next {α : Type} (r : Res α) (t : State) (h : r.answer = .next t) : r.state = t := by
  cases r <;> simpa [Res.answer] using h

theorem State.raise_ne_nil (s : State) (f : ModelFault) : (s.raise f).faults ≠ [] := by
  simp only [State.raise_faults]
  split
  · rename_i h
    exact List.ne_nil_of_mem h
  · simp

theorem State.raise_first (s : State) (f : ModelFault) (h : s.faults = []) : (s.raise f).faults = [f] := by
  simp [State.raise_faults, h]

/-! ## PC -/

theorem advancePc_ok (d : Nat) (s : State) (h : s.isPc (s.pc + d)) :
    advancePc d s = .val () { s with pc := s.pc + d } := by
  simp only [advancePc, if_pos h]

theorem advancePc_overflow (d : Nat) (s : State) (h : ¬ s.isPc (s.pc + d)) :
    advancePc d s = .raised (s.raise (.pcOverflow s.pc d)) := by
  simp only [advancePc, if_neg h, Machine.raise]

theorem advancePc_cases (d : Nat) (s : State) :
    (s.isPc (s.pc + d) ∧ advancePc d s = .val () { s with pc := s.pc + d }) ∨
    (¬ s.isPc (s.pc + d) ∧ advancePc d s = .raised (s.raise (.pcOverflow s.pc d))) := by
  by_cases h : s.isPc (s.pc + d)
  · exact .inl ⟨h, advancePc_ok d s h⟩
  · exact .inr ⟨h, advancePc_overflow d s h⟩

/-! ## Reads -/

@[simp] theorem State.inSegment_some (s : State) (i : Nat) : s.inSegment (some i) = decide (s.base + i ≤ s.limit) := rfl

@[simp] theorem State.inSegment_none (s : State) : s.inSegment none = false := rfl

@[simp] theorem State.address_some (s : State) (i : Nat) : s.address (some i) = s.base + i := rfl

/-- A read that raises no model fault. -/
theorem memRead_ok (i : Index) (s : State) (h : s.accessible i) :
    memRead i s = .val (s.peek i) { s with out := s.out ++ s.readEvents i } := by
  obtain ⟨hb, hm⟩ := h
  cases hs : s.inSegment i with
  | true =>
    rw [memRead, if_neg (by simp [hb]), if_pos hs, if_neg (Nat.not_le.mpr (hm hs))]
    simp [State.peek, State.readEvents, hs]
  | false =>
    rw [memRead, if_neg (by simp [hb]), if_neg (by simp [hs])]
    simp [State.peek, State.readEvents, hs, State.emit]

/-- A read inside the window: no event, no change. -/
theorem memRead_inside (i : Index) (s : State) (h : s.accessible i) (hs : s.inSegment i = true) :
    memRead i s = .val (some (s.cell (s.address i))) s := by
  rw [memRead_ok i s h]
  simp [State.peek, State.readEvents, hs]

theorem memRead_holds (i : Nat) (b : Byte) (s : State) (h : s.holds i b) : memRead (some i) s = .val (some b) s := by
  rw [memRead_inside _ s h.1 h.2.1]
  simp [h.2.2]

theorem memRead_outside (i : Index) (s : State) (hb : s.bound = true) (hs : s.inSegment i = false) :
    memRead i s = .val none (s.emit (.outOfRange .read i)) := by
  simp [memRead, hb, hs]

theorem memRead_unbound (i : Index) (s : State) (h : s.bound = false) :
    memRead i s = .raised (s.raise (.unboundWindow i)) := by
  simp [memRead, h, Machine.raise]

theorem memRead_beyond (i : Index) (s : State) (h : s.bound = true) (hs : s.inSegment i = true)
    (hm : s.config.memorySize ≤ s.address i) :
    memRead i s = .raised (s.raise (.windowExceedsMemory (s.address i))) := by
  simp [memRead, h, hs, hm, Machine.raise]

/-- All that a read can do. -/
theorem memRead_cases (i : Index) (s : State) :
    (s.bound = false ∧ memRead i s = .raised (s.raise (.unboundWindow i))) ∨
    (s.inSegment i = true ∧ s.config.memorySize ≤ s.address i ∧
      memRead i s = .raised (s.raise (.windowExceedsMemory (s.address i)))) ∨
    (s.bound = true ∧ s.inSegment i = true ∧ s.address i < s.config.memorySize ∧
      memRead i s = .val (some (s.cell (s.address i))) s) ∨
    (s.bound = true ∧ s.inSegment i = false ∧ memRead i s = .val none (s.emit (.outOfRange .read i))) := by
  cases hb : s.bound <;> cases hs : s.inSegment i
  · simp [memRead, hb, Machine.raise]
  · simp [memRead, hb, Machine.raise]
  · simp [memRead, hb, hs]
  · by_cases hm : s.config.memorySize ≤ s.address i
    · simp [memRead, hb, hs, hm, Machine.raise]
    · simp [memRead, hb, hs, hm, Nat.not_le.mp hm]

/-- A read that gives a byte was inside the window. -/
theorem State.peek_eq_some {s : State} {i : Index} {b : Byte} (h : s.peek i = some b) :
    s.inSegment i = true ∧ s.cell (s.address i) = b ∧ s.readEvents i = [] := by
  simp only [State.peek] at h
  split at h
  · rename_i hs
    exact ⟨hs, by simpa using h, by simp [State.readEvents, hs]⟩
  · simp at h

theorem State.peek_of_holds {s : State} {i : Nat} {b : Byte} (h : s.holds i b) : s.peek (some i) = some b := by
  simp [State.peek, h.2.1, h.2.2]

theorem State.readEvents_of_holds {s : State} {i : Nat} {b : Byte} (h : s.holds i b) : s.readEvents (some i) = [] := by
  simp [State.readEvents, h.2.1]

theorem State.holdsBytes_append (s : State) (i : Nat) (a b : List Byte) :
    s.holdsBytes i (a ++ b) ↔ s.holdsBytes i a ∧ s.holdsBytes (i + a.length) b := by
  induction a generalizing i with
  | nil => simp [State.holdsBytes]
  | cons x a ih =>
    simp only [List.cons_append, State.holdsBytes, ih, List.length_cons, and_assoc, Nat.add_assoc, Nat.add_comm 1]

/-- Whether an access faults, and what a read gives, depend on the window, the memory and its size only. -/
theorem State.accessible_congr {s t : State} (hb : t.base = s.base) (hl : t.limit = s.limit) (hbd : t.bound = s.bound)
    (hc : t.config = s.config) (i : Index) : t.accessible i ↔ s.accessible i := by
  have h : t.inSegment i = s.inSegment i := by cases i <;> simp [hb, hl]
  simp only [State.accessible, h, State.address, hb, hbd, hc]

theorem State.peek_congr {s t : State} (hb : t.base = s.base) (hl : t.limit = s.limit) (hm : t.mem = s.mem)
    (hd : t.draw = s.draw) (i : Index) : t.peek i = s.peek i := by
  have h : t.inSegment i = s.inSegment i := by cases i <;> simp [hb, hl]
  simp only [State.peek, h, State.address, hb, State.cell, hm, hd]

/-- What lies at an index depends on the window, the memory and its size only. -/
theorem State.holds_congr {s t : State} (hb : t.base = s.base) (hl : t.limit = s.limit) (hbd : t.bound = s.bound)
    (hm : t.mem = s.mem) (hd : t.draw = s.draw) (hc : t.config = s.config) (i : Nat) (b : Byte) :
    t.holds i b ↔ s.holds i b := by
  simp only [State.holds, State.accessible, State.inSegment_some, State.address_some, State.cell, hb, hl, hbd, hm, hd, hc]

theorem State.holdsBytes_congr {s t : State} (hb : t.base = s.base) (hl : t.limit = s.limit) (hbd : t.bound = s.bound)
    (hm : t.mem = s.mem) (hd : t.draw = s.draw) (hc : t.config = s.config) (i : Nat) (l : List Byte) :
    t.holdsBytes i l ↔ s.holdsBytes i l := by
  induction l generalizing i with
  | nil => exact Iff.rfl
  | cons x l ih => exact and_congr (State.holds_congr hb hl hbd hm hd hc i x) (ih (i + 1))

/-! ## Writes -/

theorem memWrite_inside (i : Index) (b : Byte) (f : ModelFault) (s : State) (h : s.accessible i)
    (hs : s.inSegment i = true) : memWrite i (some b) f s = .val () (s.setCell (s.address i) b) := by
  simp [memWrite, h.1, hs, Nat.not_le.mpr (h.2 hs)]

theorem memWrite_absent (i : Index) (f : ModelFault) (s : State) (h : s.accessible i) (hs : s.inSegment i = true) :
    memWrite i none f s = .raised (s.raise f) := by
  simp [memWrite, h.1, hs, Nat.not_le.mpr (h.2 hs), Machine.raise]

theorem memWrite_outside (i : Index) (v : MaybeByte) (f : ModelFault) (s : State) (hb : s.bound = true)
    (hs : s.inSegment i = false) : memWrite i v f s = .val () (s.emit (.outOfRange .write i)) := by
  simp [memWrite, hb, hs]

theorem memWrite_unbound (i : Index) (v : MaybeByte) (f : ModelFault) (s : State) (h : s.bound = false) :
    memWrite i v f s = .raised (s.raise (.unboundWindow i)) := by
  simp [memWrite, h, Machine.raise]

theorem memWrite_beyond (i : Index) (v : MaybeByte) (f : ModelFault) (s : State) (h : s.bound = true)
    (hs : s.inSegment i = true) (hm : s.config.memorySize ≤ s.address i) :
    memWrite i v f s = .raised (s.raise (.windowExceedsMemory (s.address i))) := by
  simp [memWrite, h, hs, hm, Machine.raise]

/-- All that a write can do. -/
theorem memWrite_cases (i : Index) (v : MaybeByte) (f : ModelFault) (s : State) :
    (s.bound = false ∧ memWrite i v f s = .raised (s.raise (.unboundWindow i))) ∨
    (s.inSegment i = true ∧ s.config.memorySize ≤ s.address i ∧
      memWrite i v f s = .raised (s.raise (.windowExceedsMemory (s.address i)))) ∨
    (s.inSegment i = true ∧ v = none ∧ memWrite i v f s = .raised (s.raise f)) ∨
    (∃ b, s.bound = true ∧ s.inSegment i = true ∧ s.address i < s.config.memorySize ∧ v = some b ∧
      memWrite i v f s = .val () (s.setCell (s.address i) b)) ∨
    (s.bound = true ∧ s.inSegment i = false ∧ memWrite i v f s = .val () (s.emit (.outOfRange .write i))) := by
  cases hb : s.bound <;> cases hs : s.inSegment i
  · simp [memWrite, hb, Machine.raise]
  · simp [memWrite, hb, Machine.raise]
  · simp [memWrite, hb, hs]
  · by_cases hm : s.config.memorySize ≤ s.address i
    · simp [memWrite, hb, hs, hm, Machine.raise]
    · cases v <;> simp [memWrite, hb, hs, hm, Nat.not_le.mp hm, Machine.raise]

/-- An index that passes the fence is a number. -/
theorem State.inSegment_isSome (s : State) (i : Index) (h : s.inSegment i = true) :
    ∃ n, i = some n ∧ s.base + n ≤ s.limit ∧ s.address i = s.base + n := by
  cases i with
  | none => simp at h
  | some n => exact ⟨n, rfl, by simpa using h, rfl⟩

end Sys2Proof.Machine
end

