-- ==== Sys2Proof/Laws/Accessor.lean ====
section
/-! SUPPORT. What the host's reads and writes through the accessor can change: cells, events, the reply and the faults, and case by
case what a bulk access answers. -/

namespace Sys2Proof.Machine

/-- What the accessor commands leave alone, and how they may change memory and FAULT. -/
structure AccessorFrame (s t : State) : Prop where
  pc : t.pc = s.pc
  ir : t.ir = s.ir
  acc : t.acc = s.acc
  x : t.x = s.x
  y : t.y = s.y
  z : t.z = s.z
  isExecuting : t.isExecuting = s.isExecuting
  pid : t.pid = s.pid
  base : t.base = s.base
  limit : t.limit = s.limit
  bound : t.bound = s.bound
  pt : t.pt = s.pt
  trapped : t.trapped = s.trapped
  config : t.config = s.config
  draw : t.draw = s.draw
  pending : t.pending = s.pending
  memory : memWf s.mem = true → memWf t.mem = true
  cells : ∀ c ∈ t.mem, c ∈ s.mem ∨ c.1 < s.config.memorySize
  oneFault : s.faults = [] → t.faults.length ≤ 1

theorem AccessorFrame.refl (s : State) : AccessorFrame s s :=
  ⟨rfl, rfl, rfl, rfl, rfl, rfl, rfl, rfl, rfl, rfl, rfl, rfl, rfl, rfl, rfl, rfl, id, fun _ => .inl, fun h => by simp [h]⟩

theorem AccessorFrame.emit (s : State) (e : Event) : AccessorFrame s (s.emit e) := { AccessorFrame.refl s with }

theorem AccessorFrame.raise (s : State) (f : ModelFault) : AccessorFrame s (s.raise f) :=
  { AccessorFrame.refl s with oneFault := fun h => by rw [s.raise_first f h]; rfl }

theorem AccessorFrame.reply {s t : State} (h : AccessorFrame s t) (r : Option Reply) :
    AccessorFrame s { t with reply := r } := { h with }

theorem AccessorFrame.checkEndpoints (s : State) (d : Direction) (i j : Nat) :
    AccessorFrame s (s.checkEndpoints d i j) := by
  simp only [State.checkEndpoints, State.checkEndpoint]
  split <;> split
  · exact .refl s
  · exact .emit s _
  · exact .emit s _
  · exact { AccessorFrame.refl s with }

/-- Writing cells that are in memory. -/
theorem AccessorFrame.setCells (s : State) (a : Nat) (l : List Byte) (h : l ≠ [] → a + l.length ≤ s.config.memorySize) :
    AccessorFrame s (s.setCells a l) where
  pc := by simp
  ir := by simp
  acc := by simp
  x := by simp
  y := by simp
  z := by simp
  isExecuting := by simp
  pid := by simp
  base := by simp
  limit := by simp
  bound := by simp
  pt := by simp
  trapped := by simp
  config := by simp
  draw := by simp
  pending := by simp
  memory := s.setCells_wf a l
  cells c hc := by
    rcases s.setCells_addresses a l c hc with hc | ⟨h1, h2⟩
    · exact .inl hc
    · have := h (by rintro rfl; simp at h2; omega)
      exact .inr (by omega)
  oneFault := fun h => by simp [h]

theorem AccessorFrame.setCell (s : State) (a : Nat) (v : Byte) (h : a < s.config.memorySize) :
    AccessorFrame s (s.setCell a v) := AccessorFrame.setCells s a [v] fun _ => h

theorem AccessorFrame.memRead (i : Index) (s : State) : AccessorFrame s (memRead i s).state := by
  rcases memRead_cases i s with ⟨-, h⟩ | ⟨-, -, h⟩ | ⟨-, -, -, h⟩ | ⟨-, -, h⟩ <;> rw [h]
  · exact .raise s _
  · exact .raise s _
  · exact .refl s
  · exact .emit s _

theorem AccessorFrame.memWrite (i : Index) (v : MaybeByte) (f : ModelFault) (s : State) :
    AccessorFrame s (memWrite i v f s).state := by
  rcases memWrite_cases i v f s with ⟨-, h⟩ | ⟨-, -, h⟩ | ⟨-, -, h⟩ | ⟨b, -, -, hm, -, h⟩ | ⟨-, -, h⟩ <;> rw [h]
  · exact .raise s _
  · exact .raise s _
  · exact .raise s _
  · exact .setCell s _ b hm
  · exact .emit s _

theorem accGet_frame (i : Nat) (s : State) : AccessorFrame s (accGet i s).state := by
  have h := AccessorFrame.memRead (some i) s
  rw [accGet]
  cases hr : memRead (some i) s with
  | val v t => rw [hr] at h; exact h.reply _
  | raised t => rw [hr] at h; exact h

theorem accSet_frame (i v : Nat) (s : State) : AccessorFrame s (accSet i v s).state := by
  rw [accSet]
  split
  · exact .raise s _
  · split
    · exact .raise s _
    · exact .memWrite _ _ _ s

theorem accGetArray_frame (a b : Nat) (s : State) : AccessorFrame s (accGetArray a b s).state := by
  rw [accGetArray]
  split
  · exact .raise s _
  · split
    · exact (AccessorFrame.checkEndpoints s _ _ _).reply _
    · split
      · exact (AccessorFrame.refl s).reply _
      · split
        · exact .raise s _
        · exact (AccessorFrame.refl s).reply _

theorem accSetArray_frame (a : Nat) (data : List Nat) (s : State) : AccessorFrame s (accSetArray a data s).state := by
  rw [accSetArray]
  split
  · exact .raise s _
  · split
    · exact .refl s
    · split
      · exact .raise s _
      · simp only
        split
        · exact .checkEndpoints s _ _ _
        · split
          · exact .raise s _
          · rename_i hd _ _ _ hb
            refine .setCells s _ _ fun _ => ?_
            have hl : 0 < data.length := List.length_pos_of_ne_nil hd
            simp only [State.firstBeyond, ite_eq_right_iff, reduceCtorEq, imp_false, Nat.not_le] at hb
            rw [List.length_map]
            omega

/-! ## The bulk accesses: all that each can do -/

theorem State.cells_eq_map (s : State) (a n : Nat) : s.cells a n = (List.range' a n).map s.cell := by
  induction n generalizing a with
  | zero => rfl
  | succ n ih => rw [State.cells, ih, List.range'_succ, List.map_cons]

/-- What the report of the endpoints of a bulk access adds. -/
theorem State.checkEndpoints_eq (s : State) (d : Direction) (i j : Nat) :
    s.checkEndpoints d i j = { s with out := s.out ++
      ((if s.limit < s.base + i then [Event.outOfRange d (some i)] else []) ++
       (if s.limit < s.base + j then [Event.outOfRange d (some j)] else [])) } := by
  by_cases hi : s.base + i ≤ s.limit <;> by_cases hj : s.base + j ≤ s.limit <;>
    simp [State.checkEndpoints, State.checkEndpoint, State.emit, State.inSegment, hi, hj, ← Nat.not_le]

/-- All that ACC_GETARRAY can do. -/
theorem accGetArray_cases (start stop : Nat) (s : State) :
    (s.bound = false ∧ accGetArray start stop s = .raised (s.raise (.unboundWindow (some start)))) ∨
    (s.bound = true ∧ (s.limit < s.base + start ∨ s.limit < s.base + stop) ∧ accGetArray start stop s =
      .val () { s.checkEndpoints .read start stop with reply := some (.array none) }) ∨
    (s.bound = true ∧ s.base + start ≤ s.limit ∧ s.base + stop ≤ s.limit ∧ stop < start ∧
      accGetArray start stop s = .val () { s with reply := some (.array (some [])) }) ∨
    (s.bound = true ∧ s.base + start ≤ s.limit ∧ s.base + stop ≤ s.limit ∧ start ≤ stop ∧
      s.config.memorySize ≤ s.base + stop ∧ accGetArray start stop s =
        .raised (s.raise (.windowExceedsMemory (max (s.base + start) s.config.memorySize)))) ∨
    (s.bound = true ∧ s.base + start ≤ s.limit ∧ s.base + stop ≤ s.limit ∧ start ≤ stop ∧
      s.base + stop < s.config.memorySize ∧ accGetArray start stop s =
        .val () { s with reply := some (.array (some (s.cells (s.base + start) (stop - start + 1)))) }) := by
  cases hb : s.bound
  · exact .inl ⟨rfl, by simp [accGetArray, hb, Machine.raise]⟩
  · by_cases hf : s.base + start ≤ s.limit ∧ s.base + stop ≤ s.limit
    · by_cases ho : stop < start
      · exact .inr (.inr (.inl ⟨rfl, hf.1, hf.2, ho, by simp [accGetArray, hb, State.inSegment, hf, ho]⟩))
      · by_cases hm : s.config.memorySize ≤ s.base + stop
        · exact .inr (.inr (.inr (.inl ⟨rfl, hf.1, hf.2, by omega, hm,
            by simp [accGetArray, hb, State.inSegment, hf, ho, State.firstBeyond, hm, Machine.raise]⟩)))
        · exact .inr (.inr (.inr (.inr ⟨rfl, hf.1, hf.2, by omega, by omega,
            by simp [accGetArray, hb, State.inSegment, hf, ho, State.firstBeyond, hm]⟩)))
    · refine .inr (.inl ⟨rfl, by omega, ?_⟩)
      have : (decide (s.base + start ≤ s.limit) && decide (s.base + stop ≤ s.limit)) = false := by
        simpa only [Bool.and_eq_false_iff, decide_eq_false_iff_not, ← not_and_or] using hf
      simp [accGetArray, hb, State.inSegment, this]

/-- All that ACC_SETARRAY can do. -/
theorem accSetArray_cases (start : Nat) (data : List Nat) (s : State) :
    (s.bound = false ∧ accSetArray start data s = .raised (s.raise (.unboundWindow (some start)))) ∨
    (s.bound = true ∧ data = [] ∧ accSetArray start data s = .val () s) ∨
    (s.bound = true ∧ (∃ v ∈ data, 255 < v) ∧ accSetArray start data s = .raised (s.raise (.badHostValue data))) ∨
    (s.bound = true ∧ data ≠ [] ∧ (∀ v ∈ data, v ≤ 255) ∧
      (s.limit < s.base + start ∨ s.limit < s.base + (start + data.length - 1)) ∧
      accSetArray start data s = .val () (s.checkEndpoints .write start (start + data.length - 1))) ∨
    (s.bound = true ∧ data ≠ [] ∧ (∀ v ∈ data, v ≤ 255) ∧ s.base + (start + data.length - 1) ≤ s.limit ∧
      s.config.memorySize ≤ s.base + (start + data.length - 1) ∧ accSetArray start data s =
        .raised (s.raise (.windowExceedsMemory (max (s.base + start) s.config.memorySize)))) ∨
    (s.bound = true ∧ data ≠ [] ∧ (∀ v ∈ data, v ≤ 255) ∧ s.base + (start + data.length - 1) ≤ s.limit ∧
      s.base + (start + data.length - 1) < s.config.memorySize ∧ accSetArray start data s =
        .val () (s.setCells (s.base + start) (data.map (BitVec.ofNat 8)))) := by
  cases hb : s.bound
  · exact .inl ⟨rfl, by simp [accSetArray, hb, Machine.raise]⟩
  by_cases hd : data = []
  · exact .inr (.inl ⟨rfl, hd, by simp [accSetArray, hb, hd]⟩)
  by_cases hv : data.any (fun v => decide (255 < v)) = true
  · exact .inr (.inr (.inl ⟨rfl, by simpa using hv,
      by rw [accSetArray, hb, if_neg (by simp), if_neg hd, if_pos hv, Machine.raise]⟩))
  have hl : 0 < data.length := List.length_pos_of_ne_nil hd
  have hv' : ∀ v ∈ data, v ≤ 255 := by simpa using hv
  have hr : accSetArray start data s =
      if !(s.inSegment (some start) && s.inSegment (some (start + data.length - 1))) then
        .val () (s.checkEndpoints .write start (start + data.length - 1))
      else
        match s.firstBeyond (s.base + start) (s.base + (start + data.length - 1)) with
        | some a => Machine.raise (.windowExceedsMemory a) s
        | none => .val () (s.setCells (s.base + start) (data.map (BitVec.ofNat 8))) := by
    exact (if_neg (by simp [hb])).trans ((if_neg hd).trans (if_neg hv))
  rw [hr]
  by_cases hf : s.base + (start + data.length - 1) ≤ s.limit
  · have hs : s.base + start ≤ s.limit := by omega
    by_cases hm : s.config.memorySize ≤ s.base + (start + data.length - 1)
    · exact .inr (.inr (.inr (.inr (.inl ⟨rfl, hd, hv', hf, hm,
        by simp [State.inSegment, hf, hs, State.firstBeyond, hm, Machine.raise]⟩))))
    · exact .inr (.inr (.inr (.inr (.inr ⟨rfl, hd, hv', hf, by omega,
        by simp [State.inSegment, hf, hs, State.firstBeyond, hm]⟩))))
  · exact .inr (.inr (.inr (.inl ⟨rfl, hd, hv', by omega, by simp [State.inSegment, hf]⟩)))
end Sys2Proof.Machine
end

