-- ==== Sys2Proof/Laws/Decode.lean ====
section
/-! SUPPORT. The opcode map: no byte has two rows, and the illegal bytes are those with none. -/

namespace Sys2Proof

/-- No two rows of the map overlap. -/
theorem opcodeTable_disjoint : (opcodeTable.map OpcodeRow.opcode).Nodup := by decide

set_option maxRecDepth 20000 in
/-- A byte has a row exactly when R129 does not list it as illegal. -/
theorem illegalOpcode_iff_no_row (b : Byte) :
    illegalOpcode b = true ↔ opcodeTable.find? (fun row => row.opcode == b) = none := by
  have h : ∀ n < 256, illegalOpcode (BitVec.ofNat 8 n) =
      (opcodeTable.find? fun row => row.opcode == BitVec.ofNat 8 n).isNone := by decide
  have hb := h b.toNat b.isLt
  rw [BitVec.ofNat_toNat, BitVec.setWidth_eq] at hb
  rw [hb, Option.isNone_iff_eq_none]

/-- An illegal byte selects the unknown-instruction handler. -/
theorem decodeOpcode_illegal (b : Byte) (h : illegalOpcode b = true) :
    decodeOpcode (some b) = .none (.unknown (some b)) := by
  simp only [decodeOpcode, (illegalOpcode_iff_no_row b).mp h]

@[simp] theorem decodeOpcode_absent : decodeOpcode none = .none (.unknown none) := rfl

/-! ### The rows -/

@[simp] theorem decodeOpcode_A9 : decodeOpcode (some 0xA9#8) = .one .ldaImm := rfl
@[simp] theorem decodeOpcode_AD : decodeOpcode (some 0xAD#8) = .two .ldaAbs := rfl
@[simp] theorem decodeOpcode_8D : decodeOpcode (some 0x8D#8) = .two .staAbs := rfl
@[simp] theorem decodeOpcode_6D : decodeOpcode (some 0x6D#8) = .two .adcAbs := rfl
@[simp] theorem decodeOpcode_A2 : decodeOpcode (some 0xA2#8) = .one .ldxImm := rfl
@[simp] theorem decodeOpcode_AE : decodeOpcode (some 0xAE#8) = .two .ldxAbs := rfl
@[simp] theorem decodeOpcode_A0 : decodeOpcode (some 0xA0#8) = .one .ldyImm := rfl
@[simp] theorem decodeOpcode_AC : decodeOpcode (some 0xAC#8) = .two .ldyAbs := rfl
@[simp] theorem decodeOpcode_EA : decodeOpcode (some 0xEA#8) = .none .nop := rfl
@[simp] theorem decodeOpcode_00 : decodeOpcode (some 0x00#8) = .none .brk := rfl
@[simp] theorem decodeOpcode_EC : decodeOpcode (some 0xEC#8) = .two .cpxAbs := rfl
@[simp] theorem decodeOpcode_D0 : decodeOpcode (some 0xD0#8) = .two .bneAbs := rfl
@[simp] theorem decodeOpcode_EE : decodeOpcode (some 0xEE#8) = .two .incAbs := rfl
@[simp] theorem decodeOpcode_FF : decodeOpcode (some 0xFF#8) = .none .sys := rfl

set_option maxRecDepth 20000 in
/-- The byte of a row, or an illegal byte: all that a byte can be. -/
theorem opcode_cases (b : Byte) :
    illegalOpcode b = true ∨ b ∈ [0xA9#8, 0xAD#8, 0x8D#8, 0x6D#8, 0xA2#8, 0xAE#8, 0xA0#8, 0xAC#8, 0xEA#8, 0x00#8, 0xEC#8,
      0xD0#8, 0xEE#8, 0xFF#8] := by
  have h : ∀ n < 256, illegalOpcode (BitVec.ofNat 8 n) = true ∨ BitVec.ofNat 8 n ∈ [0xA9#8, 0xAD#8, 0x8D#8, 0x6D#8, 0xA2#8,
      0xAE#8, 0xA0#8, 0xAC#8, 0xEA#8, 0x00#8, 0xEC#8, 0xD0#8, 0xEE#8, 0xFF#8] := by decide
  have hb := h b.toNat b.isLt
  rwa [BitVec.ofNat_toNat, BitVec.setWidth_eq] at hb

end Sys2Proof
end

