-- ==== Sys2Proof/Laws/Operands.lean ====
section
/-! SUPPORT. The operand forms. -/

namespace Sys2Proof.Machine

@[simp] theorem addr16_some (lo hi : Byte) : addr16 (some lo) (some hi) = some (lo.toNat + hi.toNat * 0xFF) := rfl

@[simp] theorem addr16_none_low (hi : MaybeByte) : addr16 none hi = none := rfl

@[simp] theorem addr16_none_high (lo : MaybeByte) : addr16 lo none = none := by cases lo <;> rfl

/-- R82: no operand names an index above 0xFF00. -/
theorem addr16_le (lo hi : MaybeByte) (i : Nat) (h : addr16 lo hi = some i) : i ≤ 0xFF00 := by
  cases lo <;> cases hi <;> simp at h
  omega

/-- The next stream byte: PC first, then the read. -/
theorem next8_ok (s : State) (hp : s.isPc (s.pc + 1)) (h : s.accessible (some (s.pc + 1))) :
    next8 s = .val (s.peek (some (s.pc + 1)))
      { s with pc := s.pc + 1, out := s.out ++ s.readEvents (some (s.pc + 1)) } := by
  rw [next8, advancePc_ok 1 s hp]
  exact memRead_ok (some (s.pc + 1)) { s with pc := s.pc + 1 } h

/-- A stream byte that is in the window. -/
theorem next8_holds (s : State) (b : Byte) (hp : s.isPc (s.pc + 1)) (h : s.holds (s.pc + 1) b) :
    next8 s = .val (some b) { s with pc := s.pc + 1 } := by
  rw [next8, advancePc_ok 1 s hp]
  exact memRead_holds (s.pc + 1) b { s with pc := s.pc + 1 } h

/-- Reading the byte that a two-byte operand names. -/
theorem readAbs_ok (lo hi : MaybeByte) (s : State) (h : s.accessible (addr16 lo hi)) :
    readAbs lo hi s = .val (s.peek (addr16 lo hi)) { s with out := s.out ++ s.readEvents (addr16 lo hi) } :=
  memRead_ok _ _ h

theorem readAbs_some (lo hi : MaybeByte) (s : State) (b : Byte) (h : s.accessible (addr16 lo hi))
    (hb : s.peek (addr16 lo hi) = some b) : readAbs lo hi s = .val (some b) s := by
  rw [readAbs_ok lo hi s h, hb, (State.peek_eq_some hb).2.2, List.append_nil]

/-- Fetching no operand changes nothing. -/
@[simp] theorem fetchOperands_none (i : Instr) (s : State) : fetchOperands (.none i) s = .val i s := rfl

theorem fetchOperands_one (mk : MaybeByte → Instr) (s : State) (hp : s.isPc (s.pc + 1))
    (h : s.accessible (some (s.pc + 1))) :
    fetchOperands (.one mk) s = .val (mk (s.peek (some (s.pc + 1))))
      { s with pc := s.pc + 1, out := s.out ++ s.readEvents (some (s.pc + 1)) } := by
  rw [fetchOperands, next8_ok s hp h]
  rfl

theorem fetchOperands_two (mk : MaybeByte → MaybeByte → Instr) (s : State) (hp : s.isPc (s.pc + 2))
    (h1 : s.accessible (some (s.pc + 1))) (h2 : s.accessible (some (s.pc + 2))) :
    fetchOperands (.two mk) s = .val (mk (s.peek (some (s.pc + 1))) (s.peek (some (s.pc + 2))))
      { s with pc := s.pc + 2, out := s.out ++ s.operandEvents } := by
  have hp1 : s.isPc (s.pc + 1) := Nat.lt_of_succ_lt hp
  rw [fetchOperands, next8_ok s hp1 h1, Res.bind_val,
    next8_ok { s with pc := s.pc + 1, out := s.out ++ s.readEvents (some (s.pc + 1)) } hp h2]
  simp only [Res.bind_val, State.operandEvents, List.append_assoc]
  rfl

end Sys2Proof.Machine
end

