-- ==== Sys2Proof/Laws/Sys.lean ====
section
/-! SUPPORT. The SYS string loop: its fuel never runs out, so it is the spec's loop. -/

namespace Sys2Proof.Machine

/-- With enough fuel, more fuel changes nothing. -/
theorem sysStringLoop_fuel (n m : Nat) (bytes : List Byte) (s : State) (hn : s.config.memorySize < s.pc + n + 1)
    (hm : s.config.memorySize < s.pc + m + 1) (hn0 : 0 < n) (hm0 : 0 < m) :
    sysStringLoop n bytes s = sysStringLoop m bytes s := by
  induction n generalizing m bytes s with
  | zero => omega
  | succ n ih =>
    obtain ⟨m, rfl⟩ : ∃ k, m = k + 1 := ⟨m - 1, by omega⟩
    simp only [sysStringLoop]
    rcases advancePc_cases 1 s with ⟨-, h⟩ | ⟨-, h⟩
    · rw [h]
      simp only [Res.bind_val]
      split
      · rfl
      · rename_i hlt
        rcases memRead_cases (some (s.pc + 1)) { s with pc := s.pc + 1 } with
          ⟨-, h⟩ | ⟨-, -, h⟩ | ⟨-, -, -, h⟩ | ⟨-, -, h⟩
        · rw [h]; rfl
        · rw [h]; rfl
        · rw [h]
          simp only [Res.bind_val]
          split
          · rfl
          · exact ih m _ _ (by simp only; omega) (by simp only; omega) (by omega) (by omega)
        · rw [h]; rfl
    · rw [h]; rfl

/-- One turn of the loop of R220, with the fuel that `sysString` gives: the recursive call is again the loop with that fuel
(log 18). -/
theorem sysStringLoop_unfold (bytes : List Byte) (s : State) :
    sysStringLoop (sysFuel s) bytes s =
      (advancePc 1 s).bind fun _ s =>
        if s.config.memorySize ≤ s.pc then .val bytes s
        else
          (memRead (some s.pc) s).bind fun b s =>
            match b with
            | none => raise (.undefUse .sys [none]) s
            | some b => if b = 0 then .val bytes s else sysStringLoop (sysFuel s) (bytes ++ [b]) s := by
  have h : sysFuel s = (s.config.memorySize - s.pc) + 1 := rfl
  rw [h, sysStringLoop]
  rcases advancePc_cases 1 s with ⟨-, h⟩ | ⟨-, h⟩
  · rw [h]
    simp only [Res.bind_val]
    split
    · rfl
    · rename_i hlt
      rcases memRead_cases (some (s.pc + 1)) { s with pc := s.pc + 1 } with
        ⟨-, h⟩ | ⟨-, -, h⟩ | ⟨-, -, -, h⟩ | ⟨-, -, h⟩
      · rw [h]; rfl
      · rw [h]; rfl
      · rw [h]
        simp only [Res.bind_val]
        split
        · rfl
        · refine sysStringLoop_fuel _ _ _ _ ?_ ?_ ?_ ?_ <;> (try simp only [sysFuel]) <;> omega
      · rw [h]; rfl
  · rw [h]; rfl

/-- A string byte is consumed. -/
theorem sysStringLoop_byte (bytes : List Byte) (b : Byte) (s : State) (hp : s.isPc (s.pc + 1))
    (h : s.holds (s.pc + 1) b) (hb : b ≠ 0) :
    sysStringLoop (sysFuel s) bytes s =
      sysStringLoop (sysFuel { s with pc := s.pc + 1 }) (bytes ++ [b]) { s with pc := s.pc + 1 } := by
  have hm : ¬ s.config.memorySize ≤ s.pc + 1 := by
    have h1 := h.1.2 h.2.1
    simp only [State.address_some] at h1
    omega
  rw [sysStringLoop_unfold, advancePc_ok 1 s hp]
  simp only [Res.bind_val, if_neg hm]
  rw [memRead_holds (s.pc + 1) b { s with pc := s.pc + 1 } h]
  simp only [Res.bind_val, if_neg hb]

/-- The zero byte ends the string, consumed. -/
theorem sysStringLoop_zero (bytes : List Byte) (s : State) (hp : s.isPc (s.pc + 1)) (h : s.holds (s.pc + 1) 0) :
    sysStringLoop (sysFuel s) bytes s = .val bytes { s with pc := s.pc + 1 } := by
  have hm : ¬ s.config.memorySize ≤ s.pc + 1 := by
    have h1 := h.1.2 h.2.1
    simp only [State.address_some] at h1
    omega
  rw [sysStringLoop_unfold, advancePc_ok 1 s hp]
  simp only [Res.bind_val, if_neg hm]
  rw [memRead_holds (s.pc + 1) 0 { s with pc := s.pc + 1 } h]
  simp only [Res.bind_val, if_true]

/-- Reaching MEMORY_SIZE ends it too, with no read. -/
theorem sysStringLoop_end (bytes : List Byte) (s : State) (hp : s.isPc (s.pc + 1))
    (hm : s.config.memorySize ≤ s.pc + 1) :
    sysStringLoop (sysFuel s) bytes s = .val bytes { s with pc := s.pc + 1 } := by
  rw [sysStringLoop_unfold, advancePc_ok 1 s hp]
  simp only [Res.bind_val, if_pos hm]

/-- A run of string bytes is consumed. -/
theorem sysStringLoop_bytes (bytes front : List Byte) (s : State) (hb : ∀ b ∈ bytes, b ≠ 0)
    (h : s.holdsBytes (s.pc + 1) bytes) (hp : s.isPc (s.pc + bytes.length)) :
    sysStringLoop (sysFuel s) front s =
      sysStringLoop (sysFuel { s with pc := s.pc + bytes.length }) (front ++ bytes)
        { s with pc := s.pc + bytes.length } := by
  induction bytes generalizing s front with
  | nil => simp
  | cons b bs ih =>
    obtain ⟨h1, h2⟩ := h
    rw [List.length_cons] at hp
    have hp1 : s.isPc (s.pc + 1) := by simp only [State.isPc] at *; omega
    rw [sysStringLoop_byte front b s hp1 h1 (hb b List.mem_cons_self),
      ih (front ++ [b]) { s with pc := s.pc + 1 } (fun c hc => hb c (List.mem_cons_of_mem _ hc))
        ((State.holdsBytes_congr (s := s) (t := { s with pc := s.pc + 1 }) rfl rfl rfl rfl rfl rfl _ _).mpr h2) (by simp only [State.isPc] at *; omega)]
    simp [Nat.add_assoc, Nat.add_comm 1]

/-- SYS with X = 2 is the string operation. -/
theorem execSys_two (s : State) (h : s.x = some 2) : execSys s = (sysString s).answer := by
  simp [execSys, h]

/-- SYS with X = 1 is the number operation. -/
theorem execSys_one (s : State) (h : s.x = some 1) : execSys s = (sysNumber s).answer := by
  simp [execSys, h]

/-- SYS with another X does nothing. -/
theorem execSys_other (s : State) (x : Byte) (h : s.x = some x) (h1 : x ≠ 1) (h2 : x ≠ 2) : execSys s = .next s := by
  rw [execSys, h]
  simp only
  rw [if_neg h1, if_neg h2]
  rfl

end Sys2Proof.Machine
end

