-- ==== Sys2Proof/Laws/Moves.lean ====
section
/-! SUPPORT. All that a TICK can do: a list of elementary moves, and at most one model fault, which ends it. An invariant of
the CPU is proved on the moves. -/

namespace Sys2Proof.Machine

/-- The elementary moves of the CPU. -/
inductive CpuMove : State → State → Prop where
  | advance (s : State) (d : Nat) (h : s.isPc (s.pc + d)) : CpuMove s { s with pc := s.pc + d }
  | setIr (s : State) (v : MaybeByte) : CpuMove s { s with ir := v }
  | setAcc (s : State) (v : MaybeByte) : CpuMove s { s with acc := v }
  | setX (s : State) (v : MaybeByte) : CpuMove s { s with x := v }
  | setY (s : State) (v : MaybeByte) : CpuMove s { s with y := v }
  | setZ (s : State) (v : Bool) : CpuMove s { s with z := v }
  | emit (s : State) (e : Event) (h : e ≠ .processTableChanged) : CpuMove s (s.emit e)
  | halt (s : State) : CpuMove s s.halt
  | store (s : State) (a : Nat) (v : Byte) (hb : s.bound = true) (hl : s.base ≤ a) (hu : a ≤ s.limit)
      (hm : a < s.config.memorySize) : CpuMove s (s.setCell a v)

/-- Any number of moves. -/
inductive CpuMoves : State → State → Prop where
  | refl (s : State) : CpuMoves s s
  | step {s t u : State} (h : CpuMoves s t) (m : CpuMove t u) : CpuMoves s u

theorem CpuMove.moves {s t : State} (m : CpuMove s t) : CpuMoves s t := .step (.refl s) m

theorem CpuMoves.trans {s t u : State} (h : CpuMoves s t) (k : CpuMoves t u) : CpuMoves s u := by
  induction k with
  | refl => exact h
  | step _ m ih => exact .step ih m

/-- What moves keep holds after them: the one induction over moves. -/
theorem CpuMoves.keeps {s t : State} (h : CpuMoves s t) (P : State → Prop)
    (hP : ∀ a b, CpuMove a b → P a → P b) (hs : P s) : P t := by
  induction h with
  | refl => exact hs
  | step _ m ih => exact hP _ _ m ih

/-- An operation makes moves, and if it ends with a fault the fault is all it does after them. -/
def Res.Moves {α : Type} (s : State) (r : Res α) : Prop :=
  (∃ a t, r = .val a t ∧ CpuMoves s t) ∨ ∃ t f, r = .raised (t.raise f) ∧ CpuMoves s t

theorem Res.Moves.val {α : Type} {s t : State} (a : α) (h : CpuMoves s t) : Res.Moves s (.val a t) := .inl ⟨a, t, rfl, h⟩

theorem Res.Moves.raise {α : Type} {s t : State} (f : ModelFault) (h : CpuMoves s t) :
    Res.Moves s (Machine.raise f t : Res α) := .inr ⟨t, f, rfl, h⟩

theorem Res.Moves.bind {α β : Type} {s : State} {r : Res α} {f : α → State → Res β} (h : r.Moves s)
    (hf : ∀ a t, CpuMoves s t → (f a t).Moves s) : (r.bind f).Moves s := by
  rcases h with ⟨a, t, rfl, h⟩ | ⟨t, g, rfl, h⟩
  · exact hf a t h
  · exact .inr ⟨t, g, rfl, h⟩

/-- The operation goes on from a state that moves have led to. -/
theorem Res.Moves.after {α : Type} {s t : State} {r : Res α} (h : CpuMoves s t) (k : r.Moves t) : r.Moves s := by
  rcases k with ⟨a, u, rfl, k⟩ | ⟨u, g, rfl, k⟩
  · exact .inl ⟨a, u, rfl, h.trans k⟩
  · exact .inr ⟨u, g, rfl, h.trans k⟩

theorem advancePc_moves (d : Nat) (s : State) : (advancePc d s).Moves s := by
  rcases advancePc_cases d s with ⟨hp, h⟩ | ⟨-, h⟩ <;> rw [h]
  · exact .val _ (CpuMove.advance s d hp).moves
  · exact .raise _ (.refl s)

theorem memRead_moves (i : Index) (s : State) : (memRead i s).Moves s := by
  rcases memRead_cases i s with ⟨-, h⟩ | ⟨-, -, h⟩ | ⟨-, -, -, h⟩ | ⟨-, -, h⟩ <;> rw [h]
  · exact .raise _ (.refl s)
  · exact .raise _ (.refl s)
  · exact .val _ (.refl s)
  · exact .val _ (CpuMove.emit s _ (by simp)).moves

theorem memWrite_moves (i : Index) (v : MaybeByte) (f : ModelFault) (s : State) : (memWrite i v f s).Moves s := by
  rcases memWrite_cases i v f s with ⟨-, h⟩ | ⟨-, -, h⟩ | ⟨-, -, h⟩ | ⟨b, hb, hi, hm, -, h⟩ | ⟨-, -, h⟩ <;> rw [h]
  · exact .raise _ (.refl s)
  · exact .raise _ (.refl s)
  · exact .raise _ (.refl s)
  · obtain ⟨n, rfl, hl, ha⟩ := s.inSegment_isSome i hi
    exact .val _ (CpuMove.store s _ b hb (by omega) (by omega) hm).moves
  · exact .val _ (CpuMove.emit s _ (by simp)).moves

theorem next8_moves (s : State) : (next8 s).Moves s :=
  (advancePc_moves 1 s).bind fun _ t h => .after h (memRead_moves _ t)

theorem fetchOperands_moves (shape : Shape) (s : State) : (fetchOperands shape s).Moves s := by
  cases shape with
  | none i => exact .val i (.refl s)
  | one mk => exact (next8_moves s).bind fun v t h => .val _ h
  | two mk =>
    exact (next8_moves s).bind fun lo t h => .after h ((next8_moves t).bind fun hi u k => .val _ k)

theorem sysStringLoop_moves (n : Nat) (bytes : List Byte) (s : State) : (sysStringLoop n bytes s).Moves s := by
  induction n generalizing bytes s with
  | zero => exact .val _ (.refl s)
  | succ n ih =>
    refine (advancePc_moves 1 s).bind fun _ t h => ?_
    split
    · exact .val _ h
    · refine .after h ((memRead_moves _ t).bind fun b u k => ?_)
      split
      · exact .raise _ k
      · split
        · exact .val _ k
        · exact .after k (ih _ u)

/-- The answer of an operation, read through its moves. -/
theorem Res.Moves.answer {α : Type} {s t : State} {r : Res α} (h : r.Moves s) (ht : r.answer = .next t) :
    ∃ u, CpuMoves s u ∧ (t = u ∨ ∃ f, t = u.raise f) := by
  rcases h with ⟨a, u, rfl, h⟩ | ⟨u, f, rfl, h⟩
  · obtain rfl : u = t := by simpa using ht
    exact ⟨u, h, .inl rfl⟩
  · obtain rfl : u.raise f = t := by simpa using ht
    exact ⟨u, h, .inr ⟨f, rfl⟩⟩

end Sys2Proof.Machine
end

