-- ==== Sys2Proof/Laws/Cycle.lean ====
section
/-! SUPPORT. The step, the cycle and the instructions: which transaction a step runs, the stages of a TICK where they succeed,
and the moves of every instruction and of the whole TICK. -/

namespace Sys2Proof.Machine

/-! ## Which transaction a step runs -/

theorem transact_live (c : Command) (s : State) (h : s.live) : transact c s = perform c s := by
  simp [transact, h.1, h.2]

/-- The TICK of a machine with nothing queued. -/
theorem step_tick (s : State) (h : s.live) (hp : s.pending = []) : step s = tick s := by
  rw [step, nextTransaction, hp]
  exact transact_live .tick s h

/-- A queued transaction. -/
theorem step_command (s : State) (c : Command) (rest : List Command) (h : s.live) (hp : s.pending = c :: rest) :
    step s = perform c { s with pending := rest } := by
  rw [step, nextTransaction, hp]
  exact transact_live c { s with pending := rest } h

/-- A step with a next state started from a live machine. -/
theorem step_next_live (s t : State) (h : step s = .next t) : s.live := by
  by_contra hl
  rw [step, nextTransaction] at h
  split at h <;> rw [transact] at h <;> split at h
  · simp at h
  · split at h
    · simp at h
    · simp_all
  · simp at h
  · split at h
    · simp at h
    · simp_all

/-- What a step that has a next state did. -/
theorem step_cases (s t : State) (h : step s = .next t) :
    (s.live ∧ s.pending = [] ∧ s.nextCommand = .tick ∧ tick s = .next t) ∨
    ∃ rest, s.live ∧ s.pending = s.nextCommand :: rest ∧ perform s.nextCommand { s with pending := rest } = .next t := by
  have hl := step_next_live s t h
  cases hp : s.pending with
  | nil =>
    rw [step_tick s hl hp] at h
    exact .inl ⟨hl, rfl, by rw [State.nextCommand, hp]; rfl, h⟩
  | cons c rest =>
    rw [step_command s c rest hl hp] at h
    have hc : s.nextCommand = c := by rw [State.nextCommand, hp]; rfl
    exact .inr ⟨rest, hl, by rw [hc], by rw [hc]; exact h⟩

/-! ## The stages of a TICK -/

theorem fetch_holds (s : State) (b : Byte) (h : s.holds s.pc b) : fetch s = .val (some b) { s with ir := some b } := by
  rw [fetch, memRead_holds s.pc b s h]
  rfl

theorem fetch_outside (s : State) (hb : s.bound = true) (h : s.inSegment (some s.pc) = false) :
    fetch s = .val none ({ s with ir := none }.emit (.outOfRange .read (some s.pc))) := by
  rw [fetch, memRead_outside _ s hb h]
  rfl

/-- The fetch of an instruction with no operand byte. -/
theorem fetchInstr_none (s : State) (b : Byte) (i : Instr) (h : s.holds s.pc b)
    (hd : decodeOpcode (some b) = .none i) : fetchInstr s = .val i { s with ir := some b } := by
  rw [fetchInstr, fetch_holds s b h, Res.bind_val, hd]
  rfl

/-- The fetch of an instruction with one operand byte, which may be absent. -/
theorem fetchInstr_one (s : State) (b : Byte) (mk : MaybeByte → Instr) (h : s.nextImm b)
    (hd : decodeOpcode (some b) = .one mk) :
    fetchInstr s = .val (mk (s.peek (some (s.pc + 1))))
      { s with ir := some b, pc := s.pc + 1, out := s.out ++ s.readEvents (some (s.pc + 1)) } := by
  obtain ⟨-, hh, h1, hp⟩ := h
  rw [fetchInstr, fetch_holds s b hh, Res.bind_val, hd]
  exact fetchOperands_one mk { s with ir := some b } (Nat.lt_of_succ_lt hp) h1

/-- The fetch of an instruction with two operand bytes, which may be absent. -/
theorem fetchInstr_two (s : State) (b : Byte) (mk : MaybeByte → MaybeByte → Instr) (h : s.nextAbs b)
    (hd : decodeOpcode (some b) = .two mk) :
    fetchInstr s = .val (mk (s.peek (some (s.pc + 1))) (s.peek (some (s.pc + 2))))
      { s with ir := some b, pc := s.pc + 2, out := s.out ++ s.operandEvents } := by
  obtain ⟨-, hh, h1, h2, hp⟩ := h
  rw [fetchInstr, fetch_holds s b hh, Res.bind_val, hd]
  exact fetchOperands_two mk { s with ir := some b } (Nat.lt_of_succ_lt hp) h1 h2

theorem endCycle_ok (s : State) (hf : s.faults = []) (h : s.isPc (s.pc + 1)) :
    endCycle s = .next { s with pc := s.pc + 1 } := by
  rw [endCycle, if_pos hf, advancePc_ok 1 s h]
  rfl

theorem endCycle_overflow (s : State) (hf : s.faults = []) (h : ¬ s.isPc (s.pc + 1)) :
    endCycle s = .next (s.raise (.pcOverflow s.pc 1)) := by
  rw [endCycle, if_pos hf, advancePc_overflow 1 s h]
  rfl

theorem endCycle_faulted (s : State) (hf : s.faults ≠ []) : endCycle s = .next s := by
  rw [endCycle, if_neg hf]

theorem tick_halted (s : State) (h : s.isExecuting = false) : tick s = .next s := by
  simp [tick, h]

/-- The rest of a TICK once the instruction is fetched. -/
theorem tick_run (s t : State) (i : Instr) (he : s.isExecuting = true) (h : fetchInstr s = .val i t) :
    tick s = endTick (exec i t) := by
  rw [tick, if_pos he, h]

@[simp] theorem endTick_next (s : State) : endTick (.next s) = endCycle s := rfl

theorem tick_raised (s t : State) (he : s.isExecuting = true) (h : fetchInstr s = .raised t) : tick s = .next t := by
  rw [tick, if_pos he, h]

/-! ## Moves -/

theorem readAbs_moves (lo hi : MaybeByte) (s : State) : (readAbs lo hi s).Moves s := memRead_moves _ s

/-- Every instruction answers, and makes moves and at most one fault after them. -/
theorem exec_moves (i : Instr) (s : State) :
    ∃ t u, exec i s = .next t ∧ CpuMoves s u ∧ (t = u ∨ ∃ f, t = u.raise f) := by
  have op : ∀ (r : Res Unit), r.Moves s → ∃ t u, r.answer = .next t ∧ CpuMoves s u ∧ (t = u ∨ ∃ f, t = u.raise f) :=
    fun r h => by
      obtain ⟨u, hu, hf⟩ := h.answer (t := r.state) rfl
      exact ⟨_, u, rfl, hu, hf⟩
  cases i with
  | ldaImm v => exact ⟨_, _, rfl, (CpuMove.setAcc s v).moves, .inl rfl⟩
  | ldxImm v => exact ⟨_, _, rfl, (CpuMove.setX s v).moves, .inl rfl⟩
  | ldyImm v => exact ⟨_, _, rfl, (CpuMove.setY s v).moves, .inl rfl⟩
  | ldaAbs lo hi =>
    exact op _ ((readAbs_moves lo hi s).bind fun m t h => .val _ (h.trans (CpuMove.setAcc t m).moves))
  | ldxAbs lo hi =>
    exact op _ ((readAbs_moves lo hi s).bind fun m t h => .val _ (h.trans (CpuMove.setX t m).moves))
  | ldyAbs lo hi =>
    exact op _ ((readAbs_moves lo hi s).bind fun m t h => .val _ (h.trans (CpuMove.setY t m).moves))
  | staAbs lo hi => exact op _ (memWrite_moves _ _ _ s)
  | adcAbs lo hi =>
    refine op _ ((readAbs_moves lo hi s).bind fun m t h => ?_)
    split
    · exact .val _ (h.trans (CpuMove.setAcc t _).moves)
    · exact .raise _ h
  | incAbs lo hi =>
    exact op _ ((readAbs_moves lo hi s).bind fun m t h => .after h (memWrite_moves _ _ _ t))
  | cpxAbs lo hi =>
    refine op _ ((readAbs_moves lo hi s).bind fun m t h => ?_)
    split
    · exact .val _ (h.trans (CpuMove.setZ t _).moves)
    · exact .raise _ h
  | nop => exact ⟨_, _, rfl, .refl s, .inl rfl⟩
  | brk => exact ⟨_, _, rfl, (CpuMove.halt s).moves, .inl rfl⟩
  | bneAbs lo hi =>
    rw [exec, execBneAbs]
    split
    · exact ⟨_, _, rfl, .refl s, .inl rfl⟩
    · refine op _ ((readAbs_moves lo hi s).bind fun m t h => ?_)
      split
      · exact .after h (advancePc_moves _ t)
      · exact .raise _ h
  | sys =>
    refine op _ ?_
    split
    · exact .raise _ (.refl s)
    · split
      · rw [sysNumber]
        split
        · exact .val _ (CpuMove.emit s _ (by simp)).moves
        · exact .raise _ (.refl s)
      · split
        · exact (sysStringLoop_moves _ _ s).bind fun bs t h => .val _ (h.trans (CpuMove.emit t _ (by simp)).moves)
        · exact .val _ (.refl s)
  | unknown ir =>
    exact ⟨_, _, rfl, (CpuMove.emit s _ (by simp)).moves.trans (CpuMove.halt _).moves, .inl rfl⟩

theorem fetchInstr_moves (s : State) : (fetchInstr s).Moves s :=
  ((memRead_moves _ s).bind fun ir t h => .val _ (h.trans (CpuMove.setIr t ir).moves)).bind
    fun _ t h => .after h (fetchOperands_moves _ t)

/-- A TICK answers, and makes moves and at most one fault after them. -/
theorem tick_moves (s : State) :
    ∃ t u, tick s = .next t ∧ CpuMoves s u ∧ (t = u ∨ ∃ f, t = u.raise f) := by
  cases he : s.isExecuting with
  | false => exact ⟨s, s, tick_halted s he, .refl s, .inl rfl⟩
  | true =>
    rcases fetchInstr_moves s with ⟨i, a, h, ha⟩ | ⟨a, f, h, ha⟩
    · rw [tick_run s a i he h]
      obtain ⟨t, u, ht, hu, hf⟩ := exec_moves i a
      rw [ht]
      by_cases hn : t.faults = []
      · rcases hf with rfl | ⟨f, rfl⟩
        · rcases advancePc_cases 1 t with ⟨hp, -⟩ | ⟨hp, -⟩
          · exact ⟨_, _, endCycle_ok t hn hp, (ha.trans hu).trans (CpuMove.advance t 1 hp).moves, .inl rfl⟩
          · exact ⟨_, t, endCycle_overflow t hn hp, ha.trans hu, .inr ⟨_, rfl⟩⟩
        · exact absurd hn (u.raise_ne_nil f)
      · exact ⟨t, u, endCycle_faulted t hn, ha.trans hu, hf⟩
    · exact ⟨_, a, tick_raised s _ he h, ha, .inr ⟨f, rfl⟩⟩

/-- What moves leave alone, and that they never lower PC nor set the CPU executing. -/
structure CpuFrame (s t : State) : Prop where
  pc : s.pc ≤ t.pc
  base : t.base = s.base
  limit : t.limit = s.limit
  bound : t.bound = s.bound
  pt : t.pt = s.pt
  pid : t.pid = s.pid
  trapped : t.trapped = s.trapped
  config : t.config = s.config
  pending : t.pending = s.pending
  faults : t.faults = s.faults
  draw : t.draw = s.draw
  isExecuting : t.isExecuting = true → s.isExecuting = true

theorem CpuMoves.frame {s t : State} (h : CpuMoves s t) : CpuFrame s t := by
  refine h.keeps (CpuFrame s) ?_ ⟨le_rfl, rfl, rfl, rfl, rfl, rfl, rfl, rfl, rfl, rfl, rfl, id⟩
  intro a b m f
  cases m with
  | advance d hd => exact { f with pc := Nat.le_add_right_of_le f.pc }
  | halt => exact { f with isExecuting := nofun }
  | _ => exact { f with }

/-- A TICK that fetches and does not fault ends with the increment of PC. -/
theorem tick_unfaulted (s t : State) (hs : s.ticking) (h : tick s = .next t) (hf : t.faults = []) :
    ∃ u, CpuMoves s u ∧ u.isPc (u.pc + 1) ∧ t = { u with pc := u.pc + 1 } := by
  rcases fetchInstr_moves s with ⟨i, a, ha, hm⟩ | ⟨a, f, ha, -⟩
  · rw [tick_run s a i hs.2.2 ha] at h
    obtain ⟨t', u, ht', hu, hf'⟩ := exec_moves i a
    rw [ht'] at h
    by_cases hn : t'.faults = []
    · rcases hf' with rfl | ⟨f, rfl⟩
      · by_cases hp : t'.isPc (t'.pc + 1)
        · exact ⟨t', hm.trans hu, hp, by simpa [endCycle_ok t' hn hp] using h.symm⟩
        · obtain rfl : t'.raise (.pcOverflow t'.pc 1) = t := by simpa [endCycle_overflow t' hn hp] using h
          exact absurd hf (t'.raise_ne_nil _)
      · exact absurd hn (u.raise_ne_nil f)
    · obtain rfl : t' = t := by simpa [endCycle_faulted t' hn] using h
      exact absurd hf hn
  · obtain rfl : a.raise f = t := by simpa [tick_raised s _ hs.2.2 ha] using h
    exact absurd hf (a.raise_ne_nil f)

/-! ## Runs -/

/-- A run of one more step, where the first has a next state. -/
theorem run_next (k : Nat) (s t : State) (h : step s = .next t) : core.run (k + 1) s = core.run k t := by
  have hc : core.step s = .next t := h
  simp only [Host.Core.run, hc]

end Sys2Proof.Machine
end

