-- ==== Sys2Proof/Laws/Independence.lean ====
section
/-! SUPPORT. The operations of the CPU neither read nor write the process table and the queue: each of them, on a state with
another table and another queue, does the same and leaves those. -/

namespace Sys2Proof.Machine

/-- `s` with another process table and another queue. -/
def State.withTQ (tb : List Pcb) (q : List Command) (s : State) : State := { s with pt := tb, pending := q }

/-- Change the state an operation leaves. -/
def Res.mapState {α : Type} (f : State → State) : Res α → Res α
  | .val a s => .val a (f s)
  | .raised s => .raised (f s)

/-- Change the state of a next state. -/
def mapAnswer (f : State → State) : Answer → Answer
  | .next s => .next (f s)
  | .fault r => .fault r
  | .refused r => .refused r

variable (tb : List Pcb) (q : List Command)

/-- Going on, where what goes on does not look. -/
theorem Res.bind_withTQ {α β : Type} (r : Res α) (f g : α → State → Res β)
    (h : ∀ a s, g a (State.withTQ tb q s) = (f a s).mapState (State.withTQ tb q)) :
    (r.mapState (State.withTQ tb q)).bind g = (r.bind f).mapState (State.withTQ tb q) := by
  cases r
  · exact h _ _
  · rfl

theorem Res.answer_withTQ {α : Type} (r : Res α) :
    (r.mapState (State.withTQ tb q)).answer = mapAnswer (State.withTQ tb q) r.answer := by
  cases r <;> rfl

theorem advancePc_withTQ (d : Nat) (s : State) :
    advancePc d (State.withTQ tb q s) = (advancePc d s).mapState (State.withTQ tb q) := by
  simp only [advancePc, apply_ite (Res.mapState (State.withTQ tb q))]; rfl

theorem memRead_withTQ (i : Index) (s : State) :
    memRead i (State.withTQ tb q s) = (memRead i s).mapState (State.withTQ tb q) := by
  have h : (State.withTQ tb q s).inSegment i = s.inSegment i := by cases i <;> rfl
  simp only [memRead, apply_ite (Res.mapState (State.withTQ tb q)), h]; rfl

theorem memWrite_withTQ (i : Index) (v : MaybeByte) (f : ModelFault) (s : State) :
    memWrite i v f (State.withTQ tb q s) = (memWrite i v f s).mapState (State.withTQ tb q) := by
  have h : (State.withTQ tb q s).inSegment i = s.inSegment i := by cases i <;> rfl
  cases v <;> simp only [memWrite, apply_ite (Res.mapState (State.withTQ tb q)), h] <;> rfl

theorem next8_withTQ (s : State) : next8 (State.withTQ tb q s) = (next8 s).mapState (State.withTQ tb q) := by
  rw [next8, advancePc_withTQ]; exact Res.bind_withTQ tb q _ _ _ fun _ t => memRead_withTQ tb q _ t

theorem fetchOperands_withTQ (sh : Shape) (s : State) :
    fetchOperands sh (State.withTQ tb q s) = (fetchOperands sh s).mapState (State.withTQ tb q) := by
  cases sh
  · rfl
  · rw [fetchOperands, next8_withTQ]; exact Res.bind_withTQ tb q _ _ _ fun _ t => rfl
  · rw [fetchOperands, next8_withTQ]
    refine Res.bind_withTQ tb q _ _ _ fun _ t => ?_
    rw [next8_withTQ]; exact Res.bind_withTQ tb q _ _ _ fun _ t => rfl

/-- Nor do fetch, decode and the operand bytes. -/
theorem fetchInstr_withTQ (s : State) : fetchInstr (State.withTQ tb q s) = (fetchInstr s).mapState (State.withTQ tb q) := by
  have : fetch (State.withTQ tb q s) = (fetch s).mapState (State.withTQ tb q) := by
    rw [fetch, memRead_withTQ]; exact Res.bind_withTQ tb q _ _ _ fun _ t => rfl
  rw [fetchInstr, this]; exact Res.bind_withTQ tb q _ _ _ fun _ t => fetchOperands_withTQ tb q _ t

theorem sysStringLoop_withTQ (n : Nat) (b : List Byte) (s : State) :
    sysStringLoop n b (State.withTQ tb q s) = (sysStringLoop n b s).mapState (State.withTQ tb q) := by
  induction n generalizing b s with
  | zero => rfl
  | succ n ih =>
    rw [sysStringLoop, advancePc_withTQ]
    refine Res.bind_withTQ tb q _ _ _ fun _ t => ?_
    by_cases hm : t.config.memorySize ≤ t.pc
    · rw [if_pos hm, if_pos (show (State.withTQ tb q t).config.memorySize ≤ (State.withTQ tb q t).pc from hm)]; rfl
    · rw [if_neg hm, if_neg (show ¬ (State.withTQ tb q t).config.memorySize ≤ (State.withTQ tb q t).pc from hm),
        show (State.withTQ tb q t).pc = t.pc from rfl, memRead_withTQ]
      refine Res.bind_withTQ tb q _ _ _ fun v u => ?_
      cases v with
      | none => rfl
      | some v =>
        show (if v = 0 then _ else _) = Res.mapState _ (if v = 0 then _ else _)
        split
        · rfl
        · exact ih _ _

/-- No instruction looks at the process table or the queue. -/
theorem exec_withTQ (i : Instr) (s : State) : exec i (State.withTQ tb q s) = mapAnswer (State.withTQ tb q) (exec i s) := by
  have rd : ∀ {α : Type} lo hi (f g : MaybeByte → State → Res α) (s : State),
      (∀ a s, g a (State.withTQ tb q s) = (f a s).mapState (State.withTQ tb q)) →
     ((readAbs lo hi (State.withTQ tb q s)).bind g).answer = mapAnswer (State.withTQ tb q) ((readAbs lo hi s).bind f).answer := by
    intro α lo hi f g s h
    rw [readAbs, memRead_withTQ, Res.bind_withTQ tb q _ f g h, Res.answer_withTQ]; rfl
  cases i with
  | ldaImm v | ldxImm v | ldyImm v | nop | brk | unknown v => rfl
  | ldaAbs lo hi | ldxAbs lo hi | ldyAbs lo hi => exact rd lo hi _ _ s fun _ _ => rfl
  | staAbs lo hi => exact (congrArg Res.answer (memWrite_withTQ tb q _ _ _ s)).trans (Res.answer_withTQ tb q _)
  | adcAbs lo hi =>
    exact rd lo hi _ _ s fun m t => by
      simp only [show (State.withTQ tb q t).acc = t.acc from rfl]
      cases h : t.acc <;> cases m <;> rfl
  | cpxAbs lo hi =>
    exact rd lo hi _ _ s fun m t => by
      simp only [show (State.withTQ tb q t).x = t.x from rfl]
      cases h : t.x <;> cases m <;> rfl
  | incAbs lo hi => exact rd lo hi _ _ s fun m t => memWrite_withTQ tb q _ _ _ t
  | bneAbs lo hi =>
    show execBneAbs lo hi _ = mapAnswer _ (execBneAbs lo hi s)
    rw [execBneAbs, execBneAbs]
    show (if s.z then _ else _) = _
    cases s.z
    · exact rd lo hi _ _ s fun m t => by cases m <;> [rfl; exact advancePc_withTQ tb q _ t]
    · rfl
  | sys =>
    show execSys _ = mapAnswer _ (execSys s)
    rw [execSys, execSys, ← Res.answer_withTQ]
    congr 1
    show (match s.x with | none => _ | some x => _) = _
    cases s.x with
    | none => rfl
    | some x =>
      show (if x = 1 then _ else if x = 2 then _ else _) = Res.mapState _ (if x = 1 then _ else if x = 2 then _ else _)
      split
      · show sysNumber _ = Res.mapState _ (sysNumber s)
        rw [sysNumber, sysNumber]
        show (match s.y with | some n => _ | none => _) = _
        cases s.y <;> rfl
      · split
        · show sysString _ = Res.mapState _ (sysString s)
          rw [sysString, show sysFuel (State.withTQ tb q s) = sysFuel s from rfl, sysStringLoop_withTQ]
          exact Res.bind_withTQ tb q _ _ _ fun _ _ => rfl
        · rfl

end Sys2Proof.Machine
end

