-- ==== Sys2Proof/Laws/PerInstr.lean ====
section
/-! SUPPORT. Facts about every instruction as syntax, one lemma per constructor (LAWS.json). -/

namespace Sys2Proof.Laws.EncodedLength

/-- A well-formed instruction has an encoding, as long as the length column of R126 says. -/
def Statement (i : Instr) : Prop := i.wf = true → ∃ bytes, encode i = some bytes ∧ bytes.length = i.length

theorem imm (op : Byte) (v : MaybeByte) (h : v.isSome = true) :
    ∃ bytes, encodeImm op v = some bytes ∧ bytes.length = 2 := by
  obtain ⟨v, rfl⟩ := Option.isSome_iff_exists.mp h
  exact ⟨_, rfl, rfl⟩

theorem abs (op : Byte) (lo hi : MaybeByte) (h : (lo.isSome && hi.isSome) = true) :
    ∃ bytes, encodeAbs op lo hi = some bytes ∧ bytes.length = 3 := by
  rw [Bool.and_eq_true] at h
  obtain ⟨lo, rfl⟩ := Option.isSome_iff_exists.mp h.1
  obtain ⟨hi, rfl⟩ := Option.isSome_iff_exists.mp h.2
  exact ⟨_, rfl, rfl⟩

theorem ldaImm (v : MaybeByte) : Statement (.ldaImm v) := imm _ v
theorem ldaAbs (lo hi : MaybeByte) : Statement (.ldaAbs lo hi) := abs _ lo hi
theorem staAbs (lo hi : MaybeByte) : Statement (.staAbs lo hi) := abs _ lo hi
theorem adcAbs (lo hi : MaybeByte) : Statement (.adcAbs lo hi) := abs _ lo hi
theorem ldxImm (v : MaybeByte) : Statement (.ldxImm v) := imm _ v
theorem ldxAbs (lo hi : MaybeByte) : Statement (.ldxAbs lo hi) := abs _ lo hi
theorem ldyImm (v : MaybeByte) : Statement (.ldyImm v) := imm _ v
theorem ldyAbs (lo hi : MaybeByte) : Statement (.ldyAbs lo hi) := abs _ lo hi
theorem nop : Statement .nop := fun _ => ⟨_, rfl, rfl⟩
theorem brk : Statement .brk := fun _ => ⟨_, rfl, rfl⟩
theorem cpxAbs (lo hi : MaybeByte) : Statement (.cpxAbs lo hi) := abs _ lo hi
theorem bneAbs (lo hi : MaybeByte) : Statement (.bneAbs lo hi) := abs _ lo hi
theorem incAbs (lo hi : MaybeByte) : Statement (.incAbs lo hi) := abs _ lo hi
theorem sys : Statement .sys := fun _ => ⟨_, rfl, rfl⟩
theorem unknown (ir : MaybeByte) : Statement (.unknown ir) := by
  intro h
  cases ir with
  | none => simp [Instr.wf] at h
  | some b => exact ⟨[b], by simpa [encode, Instr.wf] using h, rfl⟩

end Sys2Proof.Laws.EncodedLength
end

