-- ==== Sys2Proof/Laws/ProcessTable.lean ====
section
/-! SUPPORT. Looking up and changing PCBs. -/

namespace Sys2Proof.Machine

theorem State.pcb?_some_pid {s : State} {n : Nat} {p : Pcb} (h : s.pcb? n = some p) : p.processID = n := by
  simpa using List.find?_some h

theorem State.pcb?_mem {s : State} {n : Nat} {p : Pcb} (h : s.pcb? n = some p) : p ∈ s.pt := List.mem_of_find?_eq_some h

theorem State.pcb?_eq_none {s : State} {n : Nat} : s.pcb? n = none ↔ ∀ p ∈ s.pt, p.processID ≠ n := by
  simp [State.pcb?]

/-- With unique PIDs the lookup finds any PCB of the table. -/
theorem State.pcb?_of_mem {s : State} {p : Pcb} (hu : (s.pt.map Pcb.processID).Nodup) (h : p ∈ s.pt) :
    s.pcb? p.processID = some p := by
  rw [State.pcb?]
  generalize s.pt = pt at hu h
  induction pt with
  | nil => simp at h
  | cons q rest ih =>
    simp only [List.map_cons, List.nodup_cons] at hu
    rcases List.mem_cons.mp h with rfl | h
    · simp
    · have hne : q.processID ≠ p.processID := fun he => hu.1 (he ▸ List.mem_map_of_mem h)
      rw [List.find?_cons_of_neg (by simpa using hne)]
      exact ih hu.2 h

/-- Looking up a PCB after one was changed, its PID kept. -/
theorem State.pcb?_updatePcb (s : State) (n m : Nat) (f : Pcb → Pcb) (hf : ∀ p, (f p).processID = p.processID) :
    (s.updatePcb n f).pcb? m = if m = n then (s.pcb? m).map f else s.pcb? m := by
  rw [State.pcb?, State.updatePcb_pt, State.pcb?]
  generalize s.pt = pt
  induction pt with
  | nil => simp
  | cons q rest ih =>
    rw [List.map_cons]
    have hid : (if q.processID = n then f q else q).processID = q.processID := by split <;> simp [hf]
    by_cases hq : q.processID = m
    · rw [List.find?_cons_of_pos (by simpa [hid] using hq), List.find?_cons_of_pos (by simpa using hq)]
      subst hq
      split <;> rfl
    · rw [List.find?_cons_of_neg (by simpa [hid] using hq), List.find?_cons_of_neg (by simpa using hq)]
      exact ih

/-- Changing a PCB keeps the PIDs. -/
theorem State.updatePcb_pids (s : State) (n : Nat) (f : Pcb → Pcb) (hf : ∀ p, (f p).processID = p.processID) :
    (s.updatePcb n f).pt.map Pcb.processID = s.pt.map Pcb.processID := by
  rw [State.updatePcb_pt, List.map_map]
  refine List.map_congr_left fun p _ => ?_
  simp only [Function.comp_apply]
  split <;> simp [hf]

/-- The PCBs after a change. -/
theorem State.mem_updatePcb {s : State} {n : Nat} {f : Pcb → Pcb} {q : Pcb} (h : q ∈ (s.updatePcb n f).pt) :
    ∃ p ∈ s.pt, q = if p.processID = n then f p else p := by
  rw [State.updatePcb_pt, List.mem_map] at h
  obtain ⟨p, hp, rfl⟩ := h
  exact ⟨p, hp, rfl⟩

@[simp] theorem demote_processID (p : Pcb) : (demote p).processID = p.processID := by
  rw [demote]; split <;> rfl

@[simp] theorem switchOut_processID (s : State) (p : Pcb) : (switchOut s p).processID = p.processID := by
  rw [switchOut]; split <;> simp

theorem demote_ne_running (p : Pcb) : (demote p).processState ≠ .running := by
  rw [demote]; split <;> simp_all

/-- The outgoing PCB of a switch is not RUNNING afterwards. -/
theorem switchOut_ne_running (s : State) (p : Pcb) : (switchOut s p).processState ≠ .running := by
  rw [switchOut]; split <;> exact demote_ne_running _

/-- The PIDs that the assertion of R243 finds. -/
theorem State.mem_othersRunning (s : State) (n m : Nat) :
    m ∈ s.othersRunning n ↔ ∃ q ∈ s.pt, q.processID = m ∧ m ≠ n ∧ q.processState = .running := by
  simp only [State.othersRunning, List.mem_map, List.mem_filter, Bool.and_eq_true, bne_iff_ne, decide_eq_true_eq]
  constructor
  · rintro ⟨q, ⟨hq, hne, hr⟩, rfl⟩
    exact ⟨q, hq, rfl, hne, hr⟩
  · rintro ⟨q, hq, rfl, hne, hr⟩
    exact ⟨q, ⟨hq, hne, hr⟩, rfl⟩

theorem State.othersRunning_eq_nil (s : State) (n : Nat) :
    s.othersRunning n = [] ↔ ∀ q ∈ s.pt, q.processID ≠ n → q.processState ≠ .running := by
  rw [List.eq_nil_iff_forall_not_mem]
  constructor
  · intro h q hq hne hr
    exact h q.processID ((s.mem_othersRunning n _).mpr ⟨q, hq, rfl, hne, hr⟩)
  · intro h m hm
    obtain ⟨q, hq, rfl, hne, hr⟩ := (s.mem_othersRunning n m).mp hm
    exact h q hq hne hr

/-! ## What a start does to the table, and the Dispatcher commands -/

/-- Looking up a PCB after a start. -/
theorem startPcb_pcb? (p : Pcb) (w : Window) (s : State) (n : Nat) :
    (startPcb p w s).pcb? n =
      if n = p.processID then (s.pcb? n).map fun q => { q with processState := .running } else s.pcb? n :=
  State.pcb?_updatePcb ((s.useSegment w).restore p) p.processID n _ fun _ => rfl

/-- A start keeps the PIDs and the order of the table. -/
theorem startPcb_pids (p : Pcb) (w : Window) (s : State) :
    (startPcb p w s).pt.map Pcb.processID = s.pt.map Pcb.processID :=
  State.updatePcb_pids ((s.useSegment w).restore p) p.processID _ fun _ => rfl

/-- A start adds no event but the notification. -/
theorem startPcb_notices (p : Pcb) (w : Window) (s : State) : notices (startPcb p w s).out = notices s.out := by
  simp [startPcb, notices]

theorem dispatchStart_ok (s : State) (n : Nat) (w : Window) (p : Pcb) (hp : s.pcb? n = some p)
    (hr : s.othersRunning n = []) : dispatchStart n w s = .val () (startPcb p w s) := by
  simp only [dispatchStart, hp, hr, if_true]

theorem dispatchStart_unknown (s : State) (n : Nat) (w : Window) (hp : s.pcb? n = none) :
    dispatchStart n w s = .raised (s.raise (.unknownPcb n)) := by
  simp only [dispatchStart, hp, Machine.raise]

theorem dispatchStart_inconsistent (s : State) (n : Nat) (w : Window) (p : Pcb) (hp : s.pcb? n = some p)
    (hr : s.othersRunning n ≠ []) :
    dispatchStart n w s = .raised (s.raise (.inconsistentDispatch (n :: s.othersRunning n))) := by
  simp only [dispatchStart, hp, if_neg hr, Machine.raise]

/-- All that DISPATCH_START can do. -/
theorem dispatchStart_cases (s : State) (n : Nat) (w : Window) :
    (s.pcb? n = none ∧ dispatchStart n w s = .raised (s.raise (.unknownPcb n))) ∨
    (∃ p, s.pcb? n = some p ∧ s.othersRunning n = [] ∧ dispatchStart n w s = .val () (startPcb p w s)) ∨
    (s.othersRunning n ≠ [] ∧
      dispatchStart n w s = .raised (s.raise (.inconsistentDispatch (n :: s.othersRunning n)))) := by
  cases hp : s.pcb? n with
  | none => exact .inl ⟨rfl, dispatchStart_unknown s n w hp⟩
  | some p =>
    by_cases hr : s.othersRunning n = []
    · exact .inr (.inl ⟨p, rfl, hr, dispatchStart_ok s n w p hp hr⟩)
    · exact .inr (.inr ⟨hr, dispatchStart_inconsistent s n w p hp hr⟩)

/-- All that DISPATCH_STOP and DISPATCH_END can do. -/
theorem endAs_cases (final : ProcessState) (n : Nat) (s : State) :
    (s.pcb? n = none ∧ endAs final n s = .raised (s.raise (.unknownPcb n))) ∨
    (∃ p, s.pcb? n = some p ∧ endAs final n s =
      .val () (((if n = s.pid then s.halt else s).updatePcb n fun p => { p with processState := final }).emit
        .processTableChanged)) := by
  cases hp : s.pcb? n with
  | none => exact .inl ⟨rfl, by simp only [endAs, hp, Machine.raise]⟩
  | some p => exact .inr ⟨p, rfl, by simp only [endAs, hp]⟩

/-- All that DISPATCH_SWITCH can do. -/
theorem dispatchSwitch_cases (out : Option Nat) (n : Nat) (w : Window) (s : State) :
    (out = none ∧ dispatchSwitch out n w s = dispatchStart n w s) ∨
    (∃ o, out = some o ∧ s.pcb? o = none ∧ dispatchSwitch out n w s = .raised (s.raise (.unknownPcb o))) ∨
    (∃ o p, out = some o ∧ s.pcb? o = some p ∧
      dispatchSwitch out n w s = dispatchStart n w (s.updatePcb o (switchOut s))) := by
  cases out with
  | none => exact .inl ⟨rfl, rfl⟩
  | some o =>
    cases hp : s.pcb? o with
    | none => exact .inr (.inl ⟨o, rfl, hp, by simp only [dispatchSwitch, hp, Machine.raise]⟩)
    | some p => exact .inr (.inr ⟨o, p, rfl, hp, by simp only [dispatchSwitch, hp]⟩)

end Sys2Proof.Machine
end

