-- ==== Sys2Proof/Machine/Assembly.lean ====
section
/-! DEFINITION. The spec's assembler syntax (R133, D24), for readers of test programs. -/

namespace Sys2Proof.Machine

/-- One hexadecimal digit, in capitals. -/
def hexDigit (n : Nat) : Char := "0123456789ABCDEF".toList.getD n '0'

/-- A byte as two hexadecimal digits. -/
def hexByte (b : Byte) : String := String.ofList [hexDigit (b.toNat / 16), hexDigit (b.toNat % 16)]

/-- `OP #$nn` (R133). -/
def assembleImm (op : String) (imm : MaybeByte) : Option String :=
  imm.map fun v => op ++ " #$" ++ hexByte v

/-- `OP $HHLL` (R133): the two encoded bytes, the high one spelt first; not the effective index. -/
def assembleAbs (op : String) (lo hi : MaybeByte) : Option String :=
  lo.bind fun l => hi.map fun h => op ++ " $" ++ hexByte h ++ hexByte l

/-- The assembler text of an instruction whose operand bytes are there. -/
def assembly : Instr → Option String
  | .ldaImm imm => assembleImm "LDA" imm
  | .ldaAbs lo hi => assembleAbs "LDA" lo hi
  | .staAbs lo hi => assembleAbs "STA" lo hi
  | .adcAbs lo hi => assembleAbs "ADC" lo hi
  | .ldxImm imm => assembleImm "LDX" imm
  | .ldxAbs lo hi => assembleAbs "LDX" lo hi
  | .ldyImm imm => assembleImm "LDY" imm
  | .ldyAbs lo hi => assembleAbs "LDY" lo hi
  | .nop => some "NOP"
  | .brk => some "BRK"
  | .cpxAbs lo hi => assembleAbs "CPX" lo hi
  | .bneAbs lo hi => assembleAbs "BNE" lo hi
  | .incAbs lo hi => assembleAbs "INC" lo hi
  | .sys => some "SYS"
  | .unknown ir => ir.map fun b => ".byte $" ++ hexByte b

end Sys2Proof.Machine
end

