-- ==== Sys2Proof/Machine/Conditions.lean ====
section
/-! DEFINITION. The condition codes of R271 (D25: they are the spec's own numbers and carry no meaning). -/

namespace Sys2Proof.Machine

/-- The code of the architectural condition an event reports; an event that reports none has none. -/
def Event.conditionCode : Event → Option Nat
  | .outOfRange .read _ => some 1
  | .outOfRange .write _ => some 2
  | .unknownInstruction _ => some 3
  | .trap .backingStoreMissing => some 4
  | .sysNumber _ => none
  | .sysString _ => none
  | .processTableChanged => none

/-- The code of a model fault. -/
def ModelFault.conditionCode : ModelFault → Nat
  | .undefUse _ _ => 16
  | .pcOverflow _ _ => 17
  | .windowExceedsMemory _ => 18
  | .unboundWindow _ => 19
  | .inconsistentDispatch _ => 20
  | .unknownPcb _ => 21
  | .badHostValue _ => 22

end Sys2Proof.Machine
end

