-- ==== Sys2Proof/Tests/Slice0.lean ====
section
/-! SUPPORT. Tests, each one step (or one short host exchange) on a small state. The expected results are those of
95_test_vectors.md, whose row is named, or of the rule named. After them, for every obligation with hypotheses, a witness that
meets them. -/

namespace Sys2Proof.Tests

open Sys2Proof Sys2Proof.Machine

/-! ## Small states -/

/-- A PCB of the reference loader (R307) in a given state. -/
def pcbIn (n : Nat) (st : ProcessState) (location : Nat) : Pcb := { referencePcb n 0 location with processState := st }

/-- The default start state of 95_test_vectors.md, the bytes placed from window index `p`. -/
def atIndex (p : Nat) (bytes : List Byte) : State :=
  { State.reset with
    pc := p, limit := 0x1FF, bound := true, isExecuting := true, pid := 1
    pt := [pcbIn 1 .running 0] }.setCells p bytes

/-- The default start state with the bytes at index 0 of another window. -/
def inWindow (base limit : Nat) (bytes : List Byte) : State :=
  { State.reset with
    base := base, limit := limit, bound := true, isExecuting := true, pid := 1
    pt := [pcbIn 1 .running base] }.setCells base bytes

/-- One host command on a machine whose CPU is halted. -/
def hosted (base limit : Nat) (c : Command) : State :=
  { State.reset with base := base, limit := limit, bound := true, pending := [c] }

/-- What `f` shows of the state one step leads to. -/
def after {α : Type} (s : State) (f : State → α) : Option α :=
  match step s with
  | .next t => some (f t)
  | .fault _ => none
  | .refused _ => none

/-- PC, the events and the condition codes of the faults. -/
def shows (t : State) : Nat × List Event × List Nat := (t.pc, t.out, t.faults.map ModelFault.conditionCode)

/-! ## Well-formedness: an ill-formed term for each check -/

theorem test_wf_ldaImm_absent : Instr.wf (.ldaImm none) = false := by decide
theorem test_wf_ldxImm_absent : Instr.wf (.ldxImm none) = false := by decide
theorem test_wf_ldyImm_absent : Instr.wf (.ldyImm none) = false := by decide
theorem test_wf_ldaAbs_absent : Instr.wf (.ldaAbs none (some 0)) = false ∧ Instr.wf (.ldaAbs (some 0) none) = false := by decide
theorem test_wf_staAbs_absent : Instr.wf (.staAbs none (some 0)) = false ∧ Instr.wf (.staAbs (some 0) none) = false := by decide
theorem test_wf_adcAbs_absent : Instr.wf (.adcAbs none (some 0)) = false ∧ Instr.wf (.adcAbs (some 0) none) = false := by decide
theorem test_wf_ldxAbs_absent : Instr.wf (.ldxAbs none (some 0)) = false ∧ Instr.wf (.ldxAbs (some 0) none) = false := by decide
theorem test_wf_ldyAbs_absent : Instr.wf (.ldyAbs none (some 0)) = false ∧ Instr.wf (.ldyAbs (some 0) none) = false := by decide
theorem test_wf_cpxAbs_absent : Instr.wf (.cpxAbs none (some 0)) = false ∧ Instr.wf (.cpxAbs (some 0) none) = false := by decide
theorem test_wf_bneAbs_absent : Instr.wf (.bneAbs none (some 0)) = false ∧ Instr.wf (.bneAbs (some 0) none) = false := by decide
theorem test_wf_incAbs_absent : Instr.wf (.incAbs none (some 0)) = false ∧ Instr.wf (.incAbs (some 0) none) = false := by decide
theorem test_wf_unknown_absent : Instr.wf (.unknown none) = false := by decide
/-- An opcode of the table is not an unknown instruction: at the ends of the gaps of R129. -/
theorem test_wf_unknown_opcode : Instr.wf (.unknown (some 0x00)) = false ∧ Instr.wf (.unknown (some 0x6D)) = false ∧
    Instr.wf (.unknown (some 0xFF)) = false ∧ Instr.wf (.unknown (some 0x01)) = true ∧ Instr.wf (.unknown (some 0xFE)) = true := by
  decide

/-! ## Decoding: one word for each constructor, from the binary column of R126 and the format tables of R121 to R124 -/

theorem test_decode_ldaImm : decode [0b10101001#8, 0x05#8] = .ok (.ldaImm (some 0x05), []) := rfl
theorem test_decode_ldaAbs : decode [0b10101101#8, 0x10#8, 0x01#8] = .ok (.ldaAbs (some 0x10) (some 0x01), []) := rfl
theorem test_decode_staAbs : decode [0b10001101#8, 0x10#8, 0x01#8] = .ok (.staAbs (some 0x10) (some 0x01), []) := rfl
theorem test_decode_adcAbs : decode [0b01101101#8, 0x10#8, 0x01#8] = .ok (.adcAbs (some 0x10) (some 0x01), []) := rfl
theorem test_decode_ldxImm : decode [0b10100010#8, 0x05#8] = .ok (.ldxImm (some 0x05), []) := rfl
theorem test_decode_ldxAbs : decode [0b10101110#8, 0x10#8, 0x01#8] = .ok (.ldxAbs (some 0x10) (some 0x01), []) := rfl
theorem test_decode_ldyImm : decode [0b10100000#8, 0x05#8] = .ok (.ldyImm (some 0x05), []) := rfl
theorem test_decode_ldyAbs : decode [0b10101100#8, 0x10#8, 0x01#8] = .ok (.ldyAbs (some 0x10) (some 0x01), []) := rfl
theorem test_decode_nop : decode [0b11101010#8] = .ok (.nop, []) := rfl
theorem test_decode_brk : decode [0b00000000#8] = .ok (.brk, []) := rfl
theorem test_decode_cpxAbs : decode [0b11101100#8, 0x10#8, 0x01#8] = .ok (.cpxAbs (some 0x10) (some 0x01), []) := rfl
theorem test_decode_bneAbs : decode [0b11010000#8, 0x10#8, 0x01#8] = .ok (.bneAbs (some 0x10) (some 0x01), []) := rfl
theorem test_decode_incAbs : decode [0b11101110#8, 0x10#8, 0x01#8] = .ok (.incAbs (some 0x10) (some 0x01), []) := rfl
theorem test_decode_sys : decode [0b11111111#8, 0x48#8] = .ok (.sys, [0x48]) := rfl
theorem test_decode_unknown : decode [0b00000010#8, 0xA9#8] = .ok (.unknown (some 0x02), [0xA9]) := rfl
theorem test_decode_missing : decode [0b10101101#8, 0x10#8] = .error .missingOperand ∧ decode [] = .error .noOpcode := ⟨rfl, rfl⟩
/-- The table's numbering: `STA $0110` is `8D 10 01`, its first byte in bits 7..0. -/
theorem test_decodeTableWord : decodeTableWord 24 0x01108D = some (.staAbs (some 0x10) (some 0x01)) ∧
    decodeTableWord 8 0x8D = some (.staAbs (some 0x00) (some 0x00)) ∧ decodeTableWord 8 0xEA = some .nop := ⟨rfl, rfl, rfl⟩
/-- R133: `STA $0110` encodes `8D 10 01`. -/
theorem test_assembly : assembly (.staAbs (some 0x10) (some 0x01)) = some "STA $0110" ∧
    encode (.staAbs (some 0x10) (some 0x01)) = some [0x8D, 0x10, 0x01] ∧
    assembly (.ldaImm (some 0x0F)) = some "LDA #$0F" := by decide

/-- Vectors X3 to X9. -/
theorem test_addr16 : addr16 (some 0xFF) (some 0x00) = some 0xFF ∧ addr16 (some 0x00) (some 0x01) = some 0xFF ∧
    addr16 (some 0x10) (some 0x01) = some 0x10F ∧ addr16 (some 0x11) (some 0x01) = some 0x110 ∧
    addr16 (some 0x00) (some 0xFF) = some 0xFE01 ∧ addr16 (some 0xFE) (some 0xFF) = addr16 (some 0xFE) (some 0xFF) ∧
    addr16 (some 0xFF) (some 0xFF) = some 0xFF00 := by decide

/-! ## Placing an instruction -/

/-- A step after reset runs the word placed (here `LDX #$FF`, vector L12). -/
theorem test_withFetchWord : after (State.reset.withFetchWord 16 0xFFA2) (fun t => (t.x, t.ir, shows t)) =
    some (some 0xFF, some 0xA2, 2, [], []) := by decide

/-! ## Load and store -/

/-- Vector L1. -/
theorem test_ldaImm_keeps_z : after { atIndex 0 [0xA9, 0x00] with z := true } (fun t => (t.acc, t.z, shows t)) =
    some (some 0x00, true, 2, [], []) := by decide
/-- Vector L2: the operand byte is outside the window. -/
theorem test_ldaImm_absent : after (inWindow 0x100 0x100 [0xA9]) (fun t => (t.acc, shows t)) =
    some (none, 2, [.outOfRange .read (some 1)], []) := by decide
/-- Vector L4: the multiplier is 0xFF. -/
theorem test_ldaAbs_multiplier : after (((atIndex 0 [0xAD, 0x10, 0x01]).setCell 0x10F 0x33).setCell 0x110 0x44)
    (fun t => (t.acc, shows t)) = some (some 0x33, 3, [], []) := by decide
/-- Vector L7: one operand byte outside, so the index is absent. -/
theorem test_ldaAbs_absent_index : after (inWindow 0 1 [0xAD, 0x10]) (fun t => (t.acc, shows t)) =
    some (none, 3, [.outOfRange .read (some 2), .outOfRange .read none], []) := by decide
/-- Vector L17: STA on its own operand byte. -/
theorem test_staAbs_own_operand : after { atIndex 0 [0x8D, 0x01, 0x00] with acc := some 0x77 }
    (fun t => (t.mem, shows t)) = some ([(0, 0x8D), (1, 0x77), (2, 0x00)], 3, [], []) := by decide
/-- Vectors L9 and L10: a dropped write does not look at the absent value, a real one does. -/
theorem test_staAbs_absent :
    after { atIndex 0 [0x8D, 0x00, 0x03] with acc := none } shows = some (3, [.outOfRange .write (some 0x2FD)], []) ∧
    after { atIndex 0 [0x8D, 0x40, 0x00] with acc := none } shows = some (2, [], [16]) := by decide
/-- Vector L12. -/
theorem test_ldxImm : after (atIndex 0 [0xA2, 0xFF]) (fun t => (t.x, shows t)) = some (some 0xFF, 2, [], []) := by decide
/-- Vectors L13 and L14. -/
theorem test_ldxAbs :
    after ((atIndex 0 [0xAE, 0x10, 0x00]).setCell 0x10 0x80) (fun t => (t.x, shows t)) = some (some 0x80, 3, [], []) ∧
    after (atIndex 0 [0xAE, 0x00, 0x03]) (fun t => (t.x, shows t)) = some (none, 3, [.outOfRange .read (some 0x2FD)], []) := by
  decide
/-- Vector L15. -/
theorem test_ldyImm : after (atIndex 0 [0xA0, 0x2A]) (fun t => (t.y, shows t)) = some (some 0x2A, 2, [], []) := by decide
/-- Vector L16. -/
theorem test_ldyAbs : after ((atIndex 0 [0xAC, 0x10, 0x00]).setCell 0x10 0x07) (fun t => (t.y, t.x, shows t)) =
    some (some 0x07, some 0, 3, [], []) := by decide

/-! ## Arithmetic and compare -/

/-- Vector A2: the sum wraps and Z is not written. -/
theorem test_adcAbs_wraps : after { (atIndex 0 [0x6D, 0x10, 0x00]).setCell 0x10 0x01 with acc := some 0xFF }
    (fun t => (t.acc, t.z, shows t)) = some (some 0x00, false, 3, [], []) := by decide
/-- Vector A7: three events, then UNDEF_USE. -/
theorem test_adcAbs_absent : after (inWindow 0x100 0x100 [0x6D]) shows =
    some (2, [.outOfRange .read (some 1), .outOfRange .read (some 2), .outOfRange .read none], [16]) := by decide
/-- Vector I4: INC on its own operand byte. -/
theorem test_incAbs_own_operand : after (atIndex 0 [0xEE, 0x01, 0x00]) (fun t => (t.mem, shows t)) =
    some ([(0, 0xEE), (1, 0x02), (2, 0x00)], 3, [], []) := by decide
/-- Vector I3: outside the window both accesses are reported. -/
theorem test_incAbs_outside : after (atIndex 0 [0xEE, 0x00, 0x03]) shows =
    some (3, [.outOfRange .read (some 0x2FD), .outOfRange .write (some 0x2FD)], []) := by decide
/-- Vectors C2 and C3. -/
theorem test_cpxAbs :
    after { (atIndex 0 [0xEC, 0x10, 0x00]).setCell 0x10 4 with x := some 3, z := true } (fun t => (t.z, shows t)) =
      some (false, 3, [], []) ∧
    after ((atIndex 0 [0xEC, 0x10, 0x00]).setCell 0x10 0) (fun t => (t.z, shows t)) = some (true, 3, [], []) := by decide
/-- Vector C5. -/
theorem test_cpxAbs_outside : after { atIndex 0 [0xEC, 0x00, 0x03] with x := some 3, z := true } (fun t => (t.z, shows t)) =
    some (true, 2, [.outOfRange .read (some 0x2FD)], [16]) := by decide

/-! ## Control -/

/-- Vector N1. -/
theorem test_nop : after (atIndex 4 [0xEA]) (fun t => (t.ir, shows t)) = some (some 0xEA, 5, [], []) := by decide
/-- Vector B1. -/
theorem test_brk : after (atIndex 8 [0x00]) (fun t => (t.isExecuting, t.ir, t.rows.map PcbRow.processState, shows t)) =
    some (false, some 0x00, [.running], 9, [], []) := rfl
/-- R161: a halted run is finished, a faulted one is not. -/
theorem test_finished : { atIndex 9 [] with isExecuting := false }.finished ∧ ¬ (atIndex 9 []).finished ∧
    ¬ { atIndex 9 [] with isExecuting := false, faults := [.unknownPcb 0] }.finished := by decide
/-- Vectors B2 and B6: the offset is a byte of memory, unsigned. -/
theorem test_bneAbs_taken :
    after ((atIndex 5 [0xD0, 0x11, 0x00]).setCell 0x11 2) shows = some (0x0A, [], []) ∧
    after ((atIndex 0 [0xD0, 0x10, 0x00]).setCell 0x10 0xFF) shows = some (0x102, [], []) := by decide
/-- Vectors B4 and B7: the offset is read only when Z is false. -/
theorem test_bneAbs_outside :
    after { atIndex 0 [0xD0, 0x00, 0x03] with z := true } shows = some (3, [], []) ∧
    after (atIndex 0 [0xD0, 0x00, 0x03]) shows = some (2, [.outOfRange .read (some 0x2FD)], [16]) := by decide
/-- Vector U1. -/
theorem test_unknown : after (atIndex 8 [0x02]) (fun t => (t.isExecuting, t.ir, shows t)) =
    some (false, some 0x02, 9, [.unknownInstruction (some 0x02)], []) := by decide
/-- Vector Y6: a fetch outside the window. -/
theorem test_unknown_absent : after { inWindow 0x100 0x10F [] with pc := 0x10 } (fun t => (t.isExecuting, t.ir, shows t)) =
    some (false, none, 0x11, [.outOfRange .read (some 0x10), .unknownInstruction none], []) := by decide

/-! ## SYS -/

/-- Vector S1. -/
theorem test_sys_number : after { atIndex 0 [0xFF] with x := some 1, y := some 0x2A } shows =
    some (1, [.sysNumber 0x2A], []) := by decide
/-- Vectors S2 and S7. -/
theorem test_sys_string :
    after { atIndex 0 [0xFF, 0x48, 0x49, 0x00] with x := some 2 } shows = some (4, [.sysString [0x48, 0x49]], []) ∧
    after { inWindow 0x100 0x102 [0xFF, 0x41, 0x42] with x := some 2 } shows =
      some (3, [.outOfRange .read (some 3)], [16]) := by decide
/-- The second TICK of vector S8: the string ends at MEMORY_SIZE. -/
theorem test_sys_string_memory_end :
    after { inWindow 0 7 [0xA2, 0x02, 0xFF, 0x41, 0x42, 0x43, 0x44, 0x45] with
      pc := 2, x := some 2, config := { Config.testPlatform with memorySize := 8 } } shows =
      some (9, [.sysString [0x41, 0x42, 0x43, 0x44, 0x45]], []) := by decide
/-- Vectors S4, S5 and S6. -/
theorem test_sys_selector :
    after { atIndex 0 [0xFF] with x := some 3 } shows = some (1, [], []) ∧
    after { atIndex 0 [0xFF] with x := some 1, y := none } shows = some (0, [], [16]) ∧
    after { atIndex 0 [0xFF] with x := none } shows = some (0, [], [16]) := by decide

/-! ## The cycle -/

/-- Vectors Y1, Y2 and Y3. -/
theorem test_tick_stopped :
    step { atIndex 4 [0xEA] with isExecuting := false } = .next { atIndex 4 [0xEA] with isExecuting := false } ∧
    after { atIndex 4 [0xEA] with faults := [.unknownPcb 9] } shows = none ∧
    after { atIndex 4 [0xEA] with trapped := true } shows = none := ⟨rfl, by decide, by decide⟩
/-- Vectors Y4 (its last TICK) and Y5: PC does not wrap. -/
theorem test_pc_overflow :
    after { atIndex 0xF [0xEA] with config := { Config.testPlatform with pcWidth := 4 } } (fun t => (t.ir, shows t)) =
      some (some 0xEA, 0xF, [], [17]) ∧
    after { atIndex 0xF [0xA9] with config := { Config.testPlatform with pcWidth := 4 } } (fun t => (t.ir, t.acc, shows t)) =
      some (some 0xA9, some 0, 0xF, [], [17]) := by decide

/-! ## The accessor -/

/-- Vectors M1, M2 and M4. -/
theorem test_accGet :
    after ((hosted 0x100 0x10F (.accGet 0x0F)).setCell 0x10F 0x5C) (fun t => (t.reply, shows t)) =
      some (some (.byte (some 0x5C)), 0, [], []) ∧
    after (hosted 0x100 0x10F (.accGet 0x10)) (fun t => (t.reply, shows t)) =
      some (some (.byte none), 0, [.outOfRange .read (some 0x10)], []) ∧
    after (hosted 0x100 0x0FF (.accGet 0)) (fun t => (t.reply, shows t)) =
      some (some (.byte none), 0, [.outOfRange .read (some 0)], []) := ⟨rfl, rfl, rfl⟩
/-- Vectors M6 and M8. -/
theorem test_accGet_faults :
    after { hosted 0 0 (.accGet 0) with bound := false } (fun t => t.faults) = some [.unboundWindow (some 0)] ∧
    after (hosted 0x7F0 0x80F (.accGet 0x10)) (fun t => t.faults) = some [.windowExceedsMemory 0x800] := by decide
/-- Vectors M3, E6 and M16. -/
theorem test_accSet :
    after (hosted 0x100 0x10F (.accSet 0x0F 0x11)) (fun t => (t.mem, shows t)) = some ([(0x10F, 0x11)], 0, [], []) ∧
    after (hosted 0x100 0x10F (.accSet 0x10 0x77)) (fun t => (t.mem, shows t)) =
      some ([], 0, [.outOfRange .write (some 0x10)], []) ∧
    after (hosted 0 0x1FF (.accSet 0x300 300)) (fun t => (t.mem, shows t)) = some ([], 0, [], [22]) := ⟨rfl, rfl, rfl⟩
/-- Vectors M9, M10 and M11. -/
theorem test_accGetArray :
    after ((hosted 0 0x1FF (.accGetArray 0 2)).setCells 0 [1, 2, 3]) (fun t => (t.reply, shows t)) =
      some (some (.array (some [1, 2, 3])), 0, [], []) ∧
    after (hosted 0 0x1FF (.accGetArray 0x1FE 0x200)) (fun t => (t.reply, shows t)) =
      some (some (.array none), 0, [.outOfRange .read (some 0x200)], []) ∧
    after (hosted 0 0x1FF (.accGetArray 5 3)) (fun t => (t.reply, shows t)) = some (some (.array (some [])), 0, [], []) := ⟨rfl, rfl, rfl⟩
set_option maxRecDepth 4000 in
/-- Vectors M12 to M15. -/
theorem test_accSetArray :
    after (hosted 0 0x1FF (.accSetArray 0x1FF [1, 2])) (fun t => (t.mem, shows t)) =
      some ([], 0, [.outOfRange .write (some 0x200)], []) ∧
    after (hosted 0 0x1FF (.accSetArray 0x1FE [1, 2])) (fun t => (t.mem, shows t)) =
      some ([(0x1FE, 1), (0x1FF, 2)], 0, [], []) ∧
    after (hosted 0 0x1FF (.accSetArray 0 [])) (fun t => (t.mem, shows t)) = some ([], 0, [], []) ∧
    after (hosted 0 0x1FF (.accSetArray 0 [0x41, 0x100])) (fun t => (t.mem, t.faults)) =
      some ([], [.badHostValue [0x41, 0x100]]) := ⟨rfl, rfl, rfl, rfl⟩

/-! ## The Dispatcher -/

/-- PCB 3 of vector E7. -/
def pcb3 : Pcb :=
  { pcbIn 3 .ready 0x200 with pc := 5, ir := some 0xEA, acc := some 7, x := some 1, y := some 2, z := true }

/-- PCB 1 current and RUNNING with live progress, PCB 2 READY (vectors D13 to D17). -/
def two (save : SwitchSave) (c : Command) : State :=
  { State.reset with
    pc := 3, ir := some 0xEE, isExecuting := true, pid := 1, limit := 0x1FF, bound := true
    pt := [pcbIn 1 .running 0, pcbIn 2 .ready 0x200]
    config := { Config.testPlatform with switchSave := save }
    pending := [c] }

/-- The state and the saved PC and IR of each PCB. -/
def table (t : State) : List (Nat × ProcessState × Nat × MaybeByte) :=
  t.rows.map fun r => (r.processID, r.processState, r.pc, r.ir)

/-- Vector E7. -/
theorem test_dispatchStart : after { State.reset with pt := [pcb3], pending := [.dispatchStart 3 ⟨0x200, 0x3FF⟩] }
    (fun t => (t.pid, t.isExecuting, t.base, t.limit, t.ir, t.acc, t.x, t.y, t.z, shows t, table t)) =
    some (3, true, 0x200, 0x3FF, some 0xEA, some 7, some 1, some 2, true, (5, [.processTableChanged], []),
      [(3, .running, 5, some 0xEA)]) := rfl
/-- Vectors D2 and D3: nothing changes but the recorded fault. -/
theorem test_dispatchStart_faults :
    step (two .faithful (.dispatchStart 2 ⟨0x200, 0x3FF⟩)) =
      .next { two .faithful .tick with faults := [.inconsistentDispatch [2, 1]], pending := [] } ∧
    step (two .faithful (.dispatchStart 9 ⟨0, 0⟩)) =
      .next { two .faithful .tick with faults := [.unknownPcb 9], pending := [] } := ⟨rfl, rfl⟩
/-- Vectors D6 and D7. -/
theorem test_dispatchSync :
    after (two .faithful .dispatchSync) table = some [(1, .running, 3, some 0xEE), (2, .ready, 0, some 0)] ∧
    after { two .faithful .dispatchSync with isExecuting := false } table =
      some [(1, .done, 3, some 0xEE), (2, .ready, 0, some 0)] := ⟨rfl, rfl⟩
/-- Vectors D10, D11 and D12. -/
theorem test_dispatchStop_end :
    after (two .faithful (.dispatchStop 1)) (fun t => (t.isExecuting, table t)) =
      some (false, [(1, .stopped, 0, some 0), (2, .ready, 0, some 0)]) ∧
    after (two .faithful (.dispatchStop 2)) (fun t => (t.isExecuting, table t)) =
      some (true, [(1, .running, 0, some 0), (2, .stopped, 0, some 0)]) ∧
    after (two .faithful (.dispatchEnd 1)) (fun t => (t.isExecuting, table t)) =
      some (false, [(1, .done, 0, some 0), (2, .ready, 0, some 0)]) := ⟨rfl, rfl, rfl⟩
/-- Vectors D13, D14, D16 and D17. -/
theorem test_dispatchSwitch :
    after (two .faithful (.dispatchSwitch (some 1) 2 ⟨0x200, 0x3FF⟩)) (fun t => (t.pid, t.pc, table t)) =
      some (2, 0, [(1, .ready, 0, some 0), (2, .running, 0, some 0)]) ∧
    after (two .corrected (.dispatchSwitch (some 1) 2 ⟨0x200, 0x3FF⟩)) (fun t => (t.pid, t.pc, table t)) =
      some (2, 0, [(1, .ready, 3, some 0xEE), (2, .running, 0, some 0)]) ∧
    after (two .faithful (.dispatchSwitch (some 1) 1 ⟨0, 0x1FF⟩)) (fun t => (t.pid, t.pc, t.ir)) = some (1, 0, some 0) ∧
    after (two .corrected (.dispatchSwitch (some 1) 1 ⟨0, 0x1FF⟩)) (fun t => (t.pid, t.pc, t.ir)) =
      some (1, 3, some 0xEE) := ⟨rfl, rfl, rfl, rfl⟩
/-- Vector D18: the outgoing PCB is not RUNNING, the third one is. -/
theorem test_dispatchSwitch_inconsistent :
    after { two .faithful (.dispatchSwitch (some 2) 3 ⟨0x400, 0x5FF⟩) with
      pt := [pcbIn 1 .running 0, pcbIn 2 .ready 0x200, pcbIn 3 .ready 0x400] } (fun t => (t.faults, table t)) =
      some ([.inconsistentDispatch [3, 1]],
        [(1, .running, 0, some 0), (2, .ready, 0, some 0), (3, .ready, 0, some 0)]) := rfl

/-! ## Reset and the host -/

/-- Vector R3. -/
theorem test_cpuInit : after (two .faithful .cpuInit) (fun t => (t.isExecuting, t.pid, t.limit, table t, shows t)) =
    some (false, 0, 0x1FF, [(1, .running, 0, some 0), (2, .ready, 0, some 0)], (0, [], [])) := rfl
/-- Vector R1. -/
theorem test_reset : after (two .faithful .reset) (fun t => (t.isExecuting, t.pid, t.bound, t.mem, table t, shows t)) =
    some (false, 0, false, [], [], (0, [], [])) := rfl
/-- Vector R2. -/
theorem test_reset_trap :
    after { hosted 0 0x1FF .reset with config := { Config.testPlatform with memoryPresent := false } }
      (fun t => (t.trapped, t.bound, t.out, after t shows)) = some (true, false, [.trap .backingStoreMissing], none) := rfl
/-- R290 and C13: creating a PCB whose PID is taken, and moving a READY PCB, are outside the host's table. -/
theorem test_host_table :
    step (two .faithful (.ptCreate (pcbIn 1 .new 0))) = .refused .ptCreateOutsideTable ∧
    step (two .faithful (.ptSetState 2 .ready)) = .refused .ptSetStateOutsideTable ∧
    after (two .faithful (.ptCreate (pcbIn 3 .new 0x400))) table =
      some [(1, .running, 0, some 0), (2, .ready, 0, some 0), (3, .new, 0, some 0)] ∧
    after (two .faithful (.ptRemove 2)) table = some [(1, .running, 0, some 0)] := ⟨rfl, rfl, rfl, rfl⟩
/-- R271: the codes of the events. -/
theorem test_conditionCode : ([Event.outOfRange .read none, .outOfRange .write none, .unknownInstruction none,
    .trap .backingStoreMissing, .sysNumber 0].map Event.conditionCode) = [some 1, some 2, some 3, some 4, none] := by decide

/-! ## Witnesses: states and operands that meet the hypotheses of each obligation, clause by clause -/

/-- The bytes of a list, checked one by one. -/
theorem holdsBytes_of_all (s : State) (i : Nat) (l : List Byte)
    (h : (l.zipIdx i).all (fun c => decide (s.holds c.2 c.1)) = true) : s.holdsBytes i l := by
  induction l generalizing i with
  | nil => trivial
  | cons b l ih =>
    simp only [List.zipIdx_cons, List.all_cons, Bool.and_eq_true, decide_eq_true_eq] at h
    exact ⟨h.1, ih _ h.2⟩

/-- Window (0, 0x1FF) with its last cell set: `(01, 02)` names index 0x1FF and `(02, 02)` the first index outside. -/
def edge : State := (atIndex 0 []).setCell 0x1FF 0x41

/-- Window (0x7F0, 0x80F): index 0x0F is the last cell of memory and index 0x10 the first address beyond it. -/
def beyond : State := inWindow 0x7F0 0x80F []

/-- A state with a narrow PC at the top of its range. -/
def narrow (bytes : List Byte) : State := { atIndex 0xF bytes with config := { Config.testPlatform with pcWidth := 4 } }

theorem witness_EncodedInstructionDecodesToItself :
    (Instr.incAbs (some 0xFF) (some 0xFF)).wf = true ∧ (Instr.unknown (some 0xFE)).wf = true ∧ Instr.sys.wf = true := by decide
theorem witness_DecodedInstructionEncodesToItsBytes :
    decode [0xEE, 0xFF, 0xFF, 0x00] = .ok (.incAbs (some 0xFF) (some 0xFF), [0x00]) := rfl
theorem witness_AddressOperandNamesItsIndex :
    (0xFF00 : Nat) ≤ 0xFF00 ∧ (0xFF00 : Nat) < 0xFF01 ∧ (0xFFFF : Nat) ≤ 0xFFFF ∧ (0xFE#8).toNat < (0xFF#8).toNat := by decide
theorem witness_AbsoluteLoadMovesTheNamedByte :
    edge.accessible (addr16 (some 0x01) (some 0x02)) ∧ edge.accessible (addr16 (some 0x02) (some 0x02)) ∧
    edge.accessible (addr16 none (some 0x02)) := by decide
theorem witness_StaStoresAccOrDropsTheWrite :
    (edge.accessible (addr16 (some 0x01) (some 0x02)) ∧ edge.inSegment (addr16 (some 0x01) (some 0x02)) = true ∧
      edge.acc = some 0) ∧
    (edge.bound = true ∧ edge.inSegment (addr16 (some 0x02) (some 0x02)) = false) := by decide
theorem witness_IncStoresTheSuccessorOrReportsBothAccesses :
    (edge.accessible (addr16 (some 0x01) (some 0x02)) ∧ edge.peek (addr16 (some 0x01) (some 0x02)) = some 0x41) ∧
    (edge.bound = true ∧ edge.inSegment (addr16 (some 0x02) (some 0x02)) = false) := by decide
theorem witness_StoresChangeOnlyTheAddressedCell :
    exec (.staAbs (some 0x01) (some 0x02)) edge = .next (edge.setCell 0x1FF 0) ∧
    exec (.incAbs (some 0x01) (some 0x02)) edge = .next (edge.setCell 0x1FF 0x42) := ⟨rfl, rfl⟩
theorem witness_AdcAddsModulo256 :
    let s := { edge with acc := some 0xFF }
    s.accessible (addr16 (some 0x01) (some 0x02)) ∧ s.acc = some 0xFF ∧ s.peek (addr16 (some 0x01) (some 0x02)) = some 0x41 := by
  decide
theorem witness_CpxSetsZToEquality :
    let s := { edge with x := some 0x41 }
    s.accessible (addr16 (some 0x01) (some 0x02)) ∧ s.x = some 0x41 ∧ s.peek (addr16 (some 0x01) (some 0x02)) = some 0x41 := by
  decide
theorem witness_BneAddsTheOffsetWhenZIsFalse :
    { edge with z := true }.z = true ∧
    (edge.z = false ∧ edge.accessible (addr16 (some 0x01) (some 0x02)) ∧
      edge.peek (addr16 (some 0x01) (some 0x02)) = some 0x41 ∧ edge.isPc (edge.pc + (0x41#8).toNat)) := by decide
theorem witness_SysNumberAndSysOfNoMeaning :
    ({ edge with x := some 1, y := some 0xFF }.x = some 1 ∧ { edge with x := some 1, y := some 0xFF }.y = some 0xFF) ∧
    ({ edge with x := some 3 }.x = some 3 ∧ (3#8) ≠ 1 ∧ (3#8) ≠ 2) := by decide
theorem witness_SysStringConsumesTheInlineBytes :
    (let s := { atIndex 0 [0xFF, 0x48, 0x49, 0x00] with x := some 2 }
     s.x = some 2 ∧ (∀ b ∈ [0x48#8, 0x49#8], b ≠ 0) ∧ s.holdsBytes (s.pc + 1) ([0x48#8, 0x49#8] ++ [0]) ∧
        s.isPc (s.pc + [0x48#8, 0x49#8].length + 1)) ∧
    (let s := { inWindow 0 2 [0xFF, 0x48, 0x49] with x := some 2, config := { Config.testPlatform with memorySize := 3 } }
     s.x = some 2 ∧ (∀ b ∈ [0x48#8, 0x49#8], b ≠ 0) ∧ s.holdsBytes (s.pc + 1) [0x48#8, 0x49#8] ∧
        s.config.memorySize ≤ s.pc + [0x48#8, 0x49#8].length + 1 ∧ s.isPc (s.pc + [0x48#8, 0x49#8].length + 1)) :=
  ⟨⟨rfl, by decide, holdsBytes_of_all _ _ _ (by decide), by decide⟩,
    ⟨rfl, by decide, holdsBytes_of_all _ _ _ (by decide), by decide, by decide⟩⟩
theorem witness_UsingTheAbsentValueIsUndefUse :
    (edge.accessible (addr16 (some 0x02) (some 0x02)) ∧ edge.peek (addr16 (some 0x02) (some 0x02)) = none ∧ edge.z = false) ∧
    (let s := { edge with acc := none, x := none }
     s.accessible (addr16 (some 0x01) (some 0x02)) ∧ s.inSegment (addr16 (some 0x01) (some 0x02)) = true ∧
        s.acc = none ∧ s.x = none) ∧
    ({ edge with x := some 1, y := none }.x = some 1 ∧ { edge with x := some 1, y := none }.y = none) := by decide
theorem witness_SysStringThatDoesNotEndFaults :
    (let s := { inWindow 0x100 0x102 [0xFF, 0x41, 0x42] with x := some 2 }
     s.x = some 2 ∧ (∀ b ∈ [0x41#8, 0x42#8], b ≠ 0) ∧ s.holdsBytes (s.pc + 1) [0x41#8, 0x42#8] ∧ s.bound = true ∧
        s.inSegment (some (s.pc + 2 + 1)) = false ∧ s.pc + 2 + 1 < s.config.memorySize ∧ s.isPc (s.pc + 2 + 1)) ∧
    (let s := { inWindow 0x7FD 0x80F [0xFF, 0x41, 0x42] with x := some 2 }
     s.holdsBytes (s.pc + 1) [0x41#8, 0x42#8] ∧ s.bound = true ∧ s.inSegment (some (s.pc + 2 + 1)) = true ∧
        s.pc + 2 + 1 < s.config.memorySize ∧ s.config.memorySize ≤ s.base + (s.pc + 2 + 1) ∧ s.isPc (s.pc + 2 + 1)) ∧
    (let s := { edge with x := some 2, bound := false }
     s.holdsBytes (s.pc + 1) [] ∧ s.bound = false ∧ s.pc + 0 + 1 < s.config.memorySize ∧ s.isPc (s.pc + 0 + 1)) ∧
    (let s := { narrow [0xFF] with x := some 2 }
     s.holdsBytes (s.pc + 1) [] ∧ s.isPc (s.pc + 0) ∧ ¬ s.isPc (s.pc + 0 + 1)) :=
  ⟨⟨rfl, by decide, holdsBytes_of_all _ _ _ (by decide), rfl, by decide, by decide, by decide⟩,
    ⟨holdsBytes_of_all _ _ _ (by decide), rfl, by decide, by decide, by decide, by decide⟩,
    ⟨trivial, rfl, by decide, by decide⟩, ⟨trivial, by decide, by decide⟩⟩
theorem witness_OnlyUsesOfValuesRaiseUndefUse :
    let s := { edge with acc := none }
    s.faults = [] ∧ exec (.staAbs (some 0x01) (some 0x02)) s =
        .next (s.raise (.undefUse (.staAbs (some 0x01) (some 0x02)) [none])) ∧
      ModelFault.undefUse (.staAbs (some 0x01) (some 0x02)) [none] ∈
        (s.raise (.undefUse (.staAbs (some 0x01) (some 0x02)) [none])).faults := ⟨rfl, rfl, by decide⟩
theorem witness_InstructionsLeaveTheControlStateAlone : ∃ t, exec .sys { edge with x := some 1 } = .next t := ⟨_, rfl⟩
theorem witness_EachRegisterAndCellHasItsOwnWriters :
    (∃ t, exec (.ldaImm (some 1)) edge = .next t ∧ t.acc ≠ edge.acc) ∧
    (∃ t, exec (.ldxImm (some 1)) edge = .next t ∧ t.x ≠ edge.x) ∧
    (∃ t, exec (.ldyImm (some 1)) edge = .next t ∧ t.y ≠ edge.y) ∧
    (∃ t, exec (.cpxAbs (some 0x01) (some 0x02)) { edge with x := some 0x41 } = .next t ∧ t.z ≠ edge.z) ∧
    (∃ t, exec .brk edge = .next t ∧ t.isExecuting ≠ edge.isExecuting) ∧
    (∃ t, exec (.bneAbs (some 0x01) (some 0x02)) edge = .next t ∧ t.pc ≠ edge.pc) :=
  ⟨⟨_, rfl, by decide⟩, ⟨_, rfl, by decide⟩, ⟨_, rfl, by decide⟩, ⟨_, rfl, by decide⟩, ⟨_, rfl, by decide⟩,
    ⟨_, rfl, by decide⟩⟩
theorem witness_InstructionAccessesThatFault :
    ({ edge with bound := false }.bound = false ∧ edge.z = false) ∧
    (beyond.bound = true ∧ beyond.z = false ∧ beyond.inSegment (addr16 (some 0x10) (some 0x00)) = true ∧
      beyond.config.memorySize ≤ beyond.address (addr16 (some 0x10) (some 0x00))) ∧
    (let s := (narrow []).setCell 0x10 0x01
     s.z = false ∧ s.accessible (addr16 (some 0x10) (some 0x00)) ∧ s.peek (addr16 (some 0x10) (some 0x00)) = some 1 ∧
        ¬ s.isPc (s.pc + (1#8).toNat)) := by decide
theorem witness_StepRunsTheDecodedInstruction :
    let s := atIndex 0x1FD [0xEE, 0xFF, 0xFF]
    let queued := { s with pending := [.tick, .dispatchSync] }
    s.ticking ∧ encode (.incAbs (some 0xFF) (some 0xFF)) = some (0xEE :: [0xFF, 0xFF]) ∧
      s.holdsBytes s.pc (0xEE :: [0xFF, 0xFF]) ∧ s.isPc (s.pc + 2) ∧
      queued.live ∧ queued.pending = .tick :: [.dispatchSync] ∧ queued.isExecuting = true ∧
      queued.holdsBytes queued.pc (0xEE :: [0xFF, 0xFF]) ∧ queued.isPc (queued.pc + 2) :=
  ⟨by decide, by decide, holdsBytes_of_all _ _ _ (by decide), by decide, by decide, by decide, by decide,
    holdsBytes_of_all _ _ _ (by decide), by decide⟩
theorem witness_StepRunsAnInstructionWithAbsentOperands :
    ((inWindow 0x100 0x100 [0xA9]).nextImm 0xA9 ∧ decodeOpcode (some 0xA9) = .one .ldaImm) ∧
    ((inWindow 0x100 0x101 [0x6D, 0x10]).nextAbs 0x6D ∧ decodeOpcode (some 0x6D) = .two .adcAbs) :=
  ⟨⟨by decide, rfl⟩, ⟨by decide, rfl⟩⟩
theorem witness_FetchesThatFault :
    ({ edge with bound := false }.ticking ∧ { edge with bound := false }.bound = false) ∧
    (let s := { beyond with pc := 0x10 }
     s.ticking ∧ s.bound = true ∧ s.inSegment (some s.pc) = true ∧ s.config.memorySize ≤ s.base + s.pc) ∧
    (let s := inWindow 0x7FF 0x80F [0xA9]
     s.ticking ∧ s.holds s.pc 0xA9 ∧ (∀ i, decodeOpcode (some 0xA9) ≠ .none i) ∧ s.isPc (s.pc + 1) ∧
        s.inSegment (some (s.pc + 1)) = true ∧ s.config.memorySize ≤ s.base + (s.pc + 1)) ∧
    ((narrow [0xA9]).ticking ∧ (narrow [0xA9]).holds (narrow [0xA9]).pc 0xA9 ∧ ¬ (narrow [0xA9]).isPc ((narrow [0xA9]).pc + 1)) ∧
    (let s := inWindow 0x7FE 0x80F [0xAD, 0x00]
     s.ticking ∧ s.holds s.pc 0xAD ∧ decodeOpcode (some 0xAD) = .two .ldaAbs ∧ s.accessible (some (s.pc + 1)) ∧
        s.isPc (s.pc + 2) ∧ s.inSegment (some (s.pc + 2)) = true ∧ s.config.memorySize ≤ s.base + (s.pc + 2)) ∧
    (let s := { narrow [] with pc := 0xE }.setCells 0xE [0xAD, 0x00]
     s.ticking ∧ s.holds s.pc 0xAD ∧ s.accessible (some (s.pc + 1)) ∧ s.isPc (s.pc + 1) ∧ ¬ s.isPc (s.pc + 2)) :=
  ⟨by decide, by decide, ⟨by decide, by decide, nofun, by decide, by decide, by decide⟩, by decide,
    ⟨by decide, by decide, rfl, by decide, by decide, by decide, by decide⟩, by decide⟩
theorem witness_EndOfCycleIncrementsPc :
    (edge.faults = [] ∧ edge.isPc (edge.pc + 1)) ∧ ((narrow []).faults = [] ∧ ¬ (narrow []).isPc ((narrow []).pc + 1)) ∧
    { edge with faults := [.unknownPcb 0] }.faults ≠ [] := by decide
theorem witness_ImmediateLoadTick :
    (atIndex 0x1FE [0xA9, 0x05]).nextImm 0xA9 ∧ (atIndex 0x1FF [0xA2]).nextImm 0xA2 ∧ (atIndex 0x1FF [0xA0]).nextImm 0xA0 := by
  decide
theorem witness_NopTick : let s := atIndex 0x1FF [0xEA]; s.ticking ∧ s.holds s.pc 0xEA ∧ s.isPc (s.pc + 1) := by decide
theorem witness_BrkTickHaltsForGood : let s := atIndex 0x1FF [0x00]; s.ticking ∧ s.holds s.pc 0x00 ∧ s.isPc (s.pc + 1) := by
  decide
theorem witness_IllegalOpcodeReportsAndHalts :
    let s := atIndex 0x1FF [0xFE]; s.ticking ∧ s.holds s.pc 0xFE ∧ illegalOpcode 0xFE = true := by decide
theorem witness_UnknownOpcodeTick :
    (let s := atIndex 0x1FF [0x01]; s.ticking ∧ s.holds s.pc 0x01 ∧ illegalOpcode 0x01 = true ∧ s.isPc (s.pc + 1)) ∧
    (let s := atIndex 0x200 []; s.ticking ∧ s.bound = true ∧ s.inSegment (some s.pc) = false ∧ s.isPc (s.pc + 1)) := by decide
theorem witness_BneTick :
    (let s := { atIndex 0 [0xD0, 0x02, 0x02] with z := true }; s.nextAbs 0xD0 ∧ s.z = true) ∧
    (let s := (atIndex 0 [0xD0, 0x01, 0x02]).setCell 0x1FF 0xFF
     s.nextAbs 0xD0 ∧ s.z = false ∧ s.accessible s.operandIndex ∧ s.peek s.operandIndex = some 0xFF ∧
        s.isPc (s.pc + 3 + (0xFF#8).toNat)) := by decide
theorem witness_LdxThenCpxComparesTheValues :
    let s := (atIndex 0 [0xA2, 0x07, 0xEC, 0x01, 0x02]).setCell 0x1FF 0x08
    s.ticking ∧ s.holdsBytes s.pc [0xA2, 0x07, 0xEC, 0x01, 0x02] ∧ addr16 (some 0x01) (some 0x02) = some 0x1FF ∧
      s.holds 0x1FF 0x08 ∧ s.isPc (s.pc + 5) :=
  ⟨by decide, holdsBytes_of_all _ _ _ (by decide), by decide, by decide, by decide⟩
theorem witness_StoreThenLoadRoundTrips :
    (let s := { atIndex 0 [0x8D, 0x01, 0x02, 0xAD, 0x01, 0x02] with acc := some 0x5A }
     s.ticking ∧ s.holdsBytes s.pc [0x8D, 0x01, 0x02, 0xAD, 0x01, 0x02] ∧ s.acc = some 0x5A ∧
        addr16 (some 0x01) (some 0x02) = some 0x1FF ∧ s.accessible (some 0x1FF) ∧ s.inSegment (some 0x1FF) = true ∧
        s.pc + 5 < 0x1FF ∧ s.isPc (s.pc + 6)) ∧
    (let s := { atIndex 1 [0x8D, 0x00, 0x00, 0xAD, 0x00, 0x00] with acc := some 0x5A }
     s.holdsBytes s.pc [0x8D, 0x00, 0x00, 0xAD, 0x00, 0x00] ∧ addr16 (some 0x00) (some 0x00) = some 0 ∧
        s.accessible (some 0) ∧ s.inSegment (some 0) = true ∧ 0 < s.pc + 3) :=
  ⟨⟨by decide, holdsBytes_of_all _ _ _ (by decide), by decide, by decide, by decide, by decide, by decide, by decide⟩,
    ⟨holdsBytes_of_all _ _ _ (by decide), by decide, by decide, by decide, by decide⟩⟩
theorem witness_StoreIntoTheNextOpcodeIsFetched :
    let s := { atIndex 0 [0x8D, 0x03, 0x00] with acc := some 0xEA }
    s.nextAbs 0x8D ∧ s.acc = some 0xEA ∧ s.operandIndex = some (s.pc + 3) ∧ s.accessible (some (s.pc + 3)) ∧
      s.inSegment (some (s.pc + 3)) = true := by decide
theorem witness_PcGrowsOnEveryTick :
    ∃ t, (atIndex 4 [0xEA]).ticking ∧ step (atIndex 4 [0xEA]) = .next t ∧ t.faults = [] := ⟨_, by decide, rfl, rfl⟩
theorem witness_EveryProgramHaltsWithinItsWindow : (atIndex 0x1FF [0xEA]).ticking ∧ (atIndex 0x1FF [0xEA]).bound = true := by decide
theorem witness_TickIgnoresTheProcessTable :
    ∃ t, (atIndex 4 [0x00]).ticking ∧ step (atIndex 4 [0x00]) = .next t := ⟨_, by decide, rfl⟩
/-- The two memories differ just outside the window. -/
theorem witness_TickIsConfinedToItsWindow :
    let s := { atIndex 0 [0x8D, 0x01, 0x02] with acc := some 0x5A }
    ∃ t, s.ticking ∧ step s = .next t ∧ s.limit < 0x200 ∧
      { s with mem := s.mem ++ [(0x200, 0x77)] }.cell 0x1FE = s.cell 0x1FE ∧
      (∀ a, s.base ≤ a → a ≤ s.limit → { s with mem := s.mem ++ [(0x200, 0x77)] }.cell a = s.cell a) := by
  refine ⟨_, by decide, rfl, by decide, rfl, fun a _ ha => ?_⟩
  have h : a ≤ 0x1FF := ha
  simp only [State.cell]
  congr 1
  show memLookup ([(0, 0x8D), (1, 0x01), (2, 0x02)] ++ [(0x200, 0x77)]) a = memLookup [(0, 0x8D), (1, 0x01), (2, 0x02)] a
  simp only [List.cons_append, List.nil_append, memLookup, if_neg (show ¬ a = 0x200 by omega)]
theorem witness_StoppedMachineRefusesAndHaltedMachineIdles :
    { edge with faults := [.unknownPcb 0] }.faults ≠ [] ∧ (edge.faults = [] ∧ { edge with trapped := true }.trapped = true) ∧
    (State.reset.live ∧ State.reset.pending = [] ∧ State.reset.isExecuting = false) ∧
    ({ State.reset with pending := [.tick, .cpuInit] }.live ∧
      { State.reset with pending := [.tick, .cpuInit] }.isExecuting = false ∧
      { State.reset with pending := [.tick, .cpuInit] }.pending = .tick :: [.cpuInit]) := by decide
theorem witness_CpuInitClearsTheRegistersOnly :
    ((two .faithful .cpuInit).pending = .cpuInit :: [] ∧ (two .faithful .cpuInit).live) ∧
    { two .faithful .cpuInit with trapped := true }.trapped = true := by decide
theorem witness_ResetReinitializesTheBlock :
    ((two .faithful .reset).pending = .reset :: [] ∧ (two .faithful .reset).live ∧
      (two .faithful .reset).config.memoryPresent = true) ∧
    (let s := { two .faithful .reset with config := { Config.testPlatform with memoryPresent := false } }
     s.live ∧ s.config.memoryPresent = false) := by decide
/-- The program fills its window exactly, at the end of memory. -/
theorem witness_BootOrderStartsTheProgram :
    let w : Window := ⟨0x7FE, 0x7FF⟩
    w.base + [0xA9#8, 0x05#8].length ≤ w.limit + 1 ∧ w.limit < Config.testPlatform.memorySize := by decide
theorem witness_DispatchStartLoadsTheProcess :
    let s := { State.reset with pt := [pcb3, pcbIn 1 .done 0], pending := [.dispatchStart 3 ⟨0x200, 0x3FF⟩] }
    s.live ∧ s.pending = .dispatchStart 3 ⟨0x200, 0x3FF⟩ :: [] ∧ s.pcb? 3 = some pcb3 ∧
      (∀ q ∈ s.pt, q.processID ≠ 3 → q.processState ≠ .running) := by decide
theorem witness_DispatchStartChecksComeFirst :
    ((two .faithful (.dispatchStart 9 ⟨0, 0⟩)).live ∧ (two .faithful (.dispatchStart 9 ⟨0, 0⟩)).pcb? 9 = none) ∧
    (let s := two .faithful (.dispatchStart 2 ⟨0x200, 0x3FF⟩)
     s.live ∧ (∃ p, s.pcb? 2 = some p) ∧ ∃ q ∈ s.pt, q.processID ≠ 2 ∧ q.processState = .running) :=
  ⟨by decide, by decide, ⟨_, rfl⟩, by decide⟩
theorem witness_DispatchSyncSavesTheCurrentProcess :
    let s := two .faithful .dispatchSync
    s.live ∧ s.pending = .dispatchSync :: [] ∧ s.pcb? s.pid = some (pcbIn 1 .running 0) := by decide
theorem witness_DispatchStopAndEndSetTheFinalState :
    ((two .faithful (.dispatchStop 1)).live ∧ (two .faithful (.dispatchStop 1)).pcb? 1 = some (pcbIn 1 .running 0)) ∧
    ((two .faithful (.dispatchEnd 9)).live ∧ (two .faithful (.dispatchEnd 9)).pcb? 9 = none) := by decide
/-- No outgoing process; an unknown one; a RUNNING one; one that is not RUNNING; the incoming one itself; and a start that
faults, of an unknown PID and with a third PCB RUNNING. -/
theorem witness_DispatchSwitchDemotesAndStarts (save : SwitchSave) :
    let w : Window := ⟨0x200, 0x3FF⟩
    let s (out : Option Nat) (inc : Nat) : State := two save (.dispatchSwitch out inc w)
    let third : State := { s (some 1) 2 with pt := (s (some 1) 2).pt ++ [pcbIn 3 .running 0x400] }
    (∀ out inc, (s out inc).live ∧ (s out inc).pending = .dispatchSwitch out inc w :: []) ∧
    (s (some 9) 2).pcb? 9 = none ∧
    ((s (some 1) 2).pcb? 1 = some (pcbIn 1 .running 0) ∧ (s (some 1) 2).pcb? 2 = some (pcbIn 2 .ready 0x200) ∧
      (1 : Nat) = (s (some 1) 2).pid ∧
      ∀ r ∈ (s (some 1) 2).pt, r.processState = .running → r.processID = 1 ∨ r.processID = 2) ∧
    ((s (some 2) 1).pcb? 2 = some (pcbIn 2 .ready 0x200) ∧ (s (some 2) 1).pcb? 1 = some (pcbIn 1 .running 0) ∧
      ∀ r ∈ (s (some 2) 1).pt, r.processState = .running → r.processID = 2 ∨ r.processID = 1) ∧
    ((s (some 1) 1).pcb? 1 = some (pcbIn 1 .running 0) ∧
      ∀ r ∈ (s (some 1) 1).pt, r.processState = .running → r.processID = 1 ∨ r.processID = 1) ∧
    ((s (some 1) 9).pcb? 1 = some (pcbIn 1 .running 0) ∧ (s (some 1) 9).pcb? 9 = none) ∧
    (third.live ∧ third.pcb? 1 = some (pcbIn 1 .running 0) ∧ third.pcb? 2 = some (pcbIn 2 .ready 0x200) ∧
      ∃ r ∈ third.pt, r.processID ≠ 1 ∧ r.processID ≠ 2 ∧ r.processState = .running) :=
  ⟨fun _ _ => ⟨⟨rfl, rfl⟩, rfl⟩, by cases save <;> decide⟩
theorem witness_SyncThenFaithfulSwitchIsTheCorrectedSwitch :
    let s := two .faithful .tick
    s.live ∧ s.isExecuting = true ∧ s.pcb? s.pid = some (pcbIn 1 .running 0) ∧
      (pcbIn 1 .running 0).processState = .running ∧ (s.pt.map Pcb.processID).Nodup := by decide

/-- The invariant holds of a machine with two processes. -/
theorem two_inv (save : SwitchSave) (c : Command) : (two save c).Inv where
  sizes := rfl
  memory := rfl
  cells := nofun
  pcValue := show 3 < 2 ^ 16 by decide
  savedPc := fun p hp => by
    have h : p = pcbIn 1 .running 0 ∨ p = pcbIn 2 .ready 0x200 := by simpa [two] using hp
    rcases h with rfl | rfl <;> exact show 0 < 2 ^ 16 by decide
  uniquePids := show [1, 2].Nodup by decide
  boundFirst := fun _ => rfl
  oneFault := Nat.zero_le 1

/-- One change of each kind, a creation and a removal. -/
theorem witness_ProcessStatesChangeOnlyAsTheTableSays :
    (let s := two .faithful (.dispatchSwitch (some 1) 2 ⟨0x200, 0x3FF⟩)
     s.Inv ∧ pcbIn 1 .running 0 ∈ s.pt ∧ pcbIn 2 .ready 0x200 ∈ s.pt ∧
        ∃ t, step s = .next t ∧ pcbIn 1 .ready 0 ∈ t.pt ∧ pcbIn 2 .running 0x200 ∈ t.pt) ∧
    (let s := two .faithful (.dispatchStop 2)
     s.Inv ∧ ∃ t, step s = .next t ∧ pcbIn 2 .stopped 0x200 ∈ t.pt) ∧
    (let s := two .faithful (.ptCreate (pcbIn 3 .new 0x400))
     s.Inv ∧ (∀ p ∈ s.pt, p.processID ≠ 3) ∧ ∃ t, step s = .next t ∧ pcbIn 3 .new 0x400 ∈ t.pt) ∧
    (let s := two .faithful (.ptRemove 2)
     s.Inv ∧ pcbIn 2 .ready 0x200 ∈ s.pt ∧ ∃ t, step s = .next t ∧ ∀ q ∈ t.pt, q.processID ≠ 2) :=
  ⟨⟨two_inv _ _, by decide, by decide, _, rfl, by decide, by decide⟩, ⟨two_inv _ _, _, rfl, by decide⟩,
    ⟨two_inv _ _, by decide, _, rfl, by decide⟩, ⟨two_inv _ _, by decide, _, rfl, by decide⟩⟩
theorem witness_ControlStateHasItsOwnWriters :
    (∃ t, step { two .faithful (.dispatchStart 1 ⟨0, 0x1FF⟩) with isExecuting := false, pid := 7 } = .next t ∧
      t.isExecuting = true ∧ t.pid ≠ 7) ∧
    (∃ t, step (atIndex 0x1FF [0x00]) = .next t ∧ t.isExecuting = false) ∧
    (∃ t, step (two .faithful .cpuInit) = .next t ∧ t.isExecuting = false ∧ t.pid ≠ 1) :=
  ⟨⟨_, rfl, by decide, by decide⟩, ⟨_, rfl, by decide⟩, ⟨_, rfl, by decide, by decide⟩⟩
theorem witness_StepKeepsOneProcessRunning :
    (two .faithful .dispatchSync).OneRunning ∧ ∃ t, step (two .faithful .dispatchSync) = .next t :=
  ⟨⟨by decide, by decide⟩, _, rfl⟩
theorem witness_StepKeepsTheInvariant :
    (two .corrected .dispatchSync).Inv ∧ ∃ t, step (two .corrected .dispatchSync) = .next t := ⟨two_inv _ _, _, rfl⟩
theorem witness_UseSegmentOnlyRebinds :
    (two .faithful (.accUseSegment 5 4)).live ∧ (two .faithful (.accUseSegment 5 4)).pending = .accUseSegment 5 4 :: [] := by decide
theorem witness_OutOfRangeAccessIsNotFatal :
    (edge.bound = true ∧ edge.inSegment (some 0x200) = false ∧ edge.inSegment none = false) ∧
    ((hosted 0x100 0x10F (.accGet 0x10)).live ∧ (hosted 0x100 0x10F (.accGet 0x10)).limit < 0x100 + 0x10 ∧
      (hosted 0x100 0x10F (.accGet 0x10)).pending = .accGet 0x10 :: []) ∧
    ((hosted 0x100 0x10F (.accSet 0x10 255)).pending = .accSet 0x10 255 :: [] ∧ (255 : Nat) ≤ 255) ∧
    (let s := hosted 0x100 0x10F (.accGetArray 0xF 0x10)
     s.live ∧ s.bound = true ∧ s.base + 0xF ≤ s.limit ∧ s.limit < s.base + 0x10 ∧ s.pending = .accGetArray 0xF 0x10 :: []) ∧
    (let s := hosted 0x100 0x10F (.accSetArray 0xF [0, 255])
     s.live ∧ s.bound = true ∧ s.limit < s.base + 0x10 ∧ s.pending = .accSetArray 0xF [0, 255] :: [] ∧
      0x10 = 0xF + [0, 255].length - 1 ∧ ∀ v ∈ [0, 255], v ≤ 255) := by decide
theorem witness_HostAccessesRoundTrip :
    (edge.live ∧ edge.accessible (some 0x1FF) ∧ edge.inSegment (some 0x1FF) = true ∧ (255 : Nat) ≤ 255) ∧
    (edge.live ∧ edge.bound = true ∧ [1#8, 2#8] ≠ [] ∧ edge.base + 0x1FE + [1#8, 2#8].length ≤ edge.limit + 1 ∧
      edge.base + 0x1FE + [1#8, 2#8].length ≤ edge.config.memorySize) ∧
    (let s := { edge with pending := [.accGet 0x1FF] }
     s.live ∧ s.accessible (some 0x1FF) ∧ s.inSegment (some 0x1FF) = true ∧ s.pending = .accGet 0x1FF :: []) ∧
    (let s := { edge with pending := [.accGetArray 0x1FF 0x1FF] }
     s.live ∧ s.bound = true ∧ 0x1FF ≤ 0x1FF ∧ s.base + 0x1FF ≤ s.limit ∧ s.base + 0x1FF < s.config.memorySize ∧
      s.pending = .accGetArray 0x1FF 0x1FF :: []) ∧
    (let s := hosted 0 0x1FF (.accGetArray 0x1FF 0x1FE)
     s.live ∧ s.bound = true ∧ s.pending = .accGetArray 0x1FF 0x1FE :: [] ∧ s.base + 0x1FF ≤ s.limit) ∧
    ((hosted 0 0x1FF (.accSetArray 0x200 [])).live ∧
      (hosted 0 0x1FF (.accSetArray 0x200 [])).pending = .accSetArray 0x200 [] :: []) := by decide
/-- Each access with no window; one cell, and a range that crosses the end of memory; and a value of 256. -/
theorem witness_AccessesThatFault :
    (∀ c ∈ [Command.accGet 0, .accSet 0 0, .accGetArray 0 1, .accSetArray 0 [0]],
      let s := { hosted 0 0 c with bound := false }
      s.live ∧ s.bound = false ∧ s.pending = c :: []) ∧
    (∀ c ∈ [Command.accGet 0x10, .accSet 0x10 255],
      let s := hosted 0x7F0 0x80F c
      s.live ∧ s.bound = true ∧ s.base + 0x10 ≤ s.limit ∧ s.config.memorySize ≤ s.base + 0x10 ∧ s.pending = c :: []) ∧
    (∀ c ∈ [Command.accGetArray 0xF 0x10, .accSetArray 0xF [0, 255]],
      let s := hosted 0x7F0 0x80F c
      s.live ∧ s.bound = true ∧ s.base + 0x10 ≤ s.limit ∧ s.config.memorySize ≤ s.base + 0x10 ∧ s.pending = c :: []) ∧
    (0x10 + 1 = 0xF + [0, 255].length ∧ ∀ v ∈ [0, 255], v ≤ 255) ∧
    ((hosted 0 0x1FF (.accSet 0x300 256)).live ∧ (hosted 0 0x1FF (.accSet 0x300 256)).bound = true ∧ (255 : Nat) < 256) ∧
    ((hosted 0 0x1FF (.accSetArray 0x300 [0, 256])).live ∧ (hosted 0 0x1FF (.accSetArray 0x300 [0, 256])).bound = true ∧
      ∃ v ∈ [0, 256], 255 < v) := by decide
theorem witness_HostTableOperations :
    (let s := two .faithful (.ptCreate (pcbIn 3 .new 0))
     s.live ∧ s.pcb? 3 = none ∧ (pcbIn 3 .new 0).processState = .new ∧ s.isPc (pcbIn 3 .new 0).pc) ∧
    (let s := { two .faithful (.ptSetState 2 .ready) with pt := [pcbIn 2 .new 0x200] }
     s.live ∧ s.pcb? 2 = some (pcbIn 2 .new 0x200) ∧ (pcbIn 2 .new 0x200).processState = .new) ∧
    ((two .faithful (.ptRemove 2)).live ∧ (two .faithful (.ptRemove 2)).pcb? 2 = some (pcbIn 2 .ready 0x200)) := by decide

end Sys2Proof.Tests
end

section
/-! The host's rebinding of the window (R88). -/

namespace Sys2Proof.Machine

/-- On a live machine a queued ACC_USESEGMENT is taken off the queue and its pair becomes the window (R88). -/
theorem step_accUseSegment (s : State) (b l : Nat) (rest : List Command) (hlive : s.live)
    (hpending : s.pending = .accUseSegment b l :: rest) :
    step s = .next (State.useSegment ⟨b, l⟩ { s with pending := rest }) := by
  rw [step_command s (.accUseSegment b l) rest hlive hpending, perform]

/-- Settles O56: the step is `State.useSegment`, which writes the three window fields and no other. -/
theorem useSegmentOnlyRebinds : Obligations.UseSegmentOnlyRebinds := by
  intro s b l rest hlive hpending
  rw [step_accUseSegment s b l rest hlive hpending, State.useSegment]

end Sys2Proof.Machine
end

section
/-! The opcode map as a set, decoding by format, and the TICK of an illegal opcode (R121 to R123, R129, R212). -/

namespace Sys2Proof

/-! ### The illegal bytes -/

/-- R129: the ranges of `illegalOpcode` are the complement of the opcode column of R126. -/
theorem illegalOpcode_iff_not_mem_opcodes (b : Byte) :
    illegalOpcode b = true ↔ b ∉ opcodeTable.map OpcodeRow.opcode := by
  rw [illegalOpcode_iff_no_row, List.find?_eq_none]
  simp only [beq_iff_eq, List.mem_map, not_exists, not_and]

set_option maxRecDepth 20000 in
theorem illegalOpcode_count :
    ((List.range 256).filter fun n => illegalOpcode (BitVec.ofNat 8 n)).length = 242 := by decide

/-! ### Decoding by format -/

/-- Formats I and SYS (R121, R124): the opcode byte alone. -/
theorem decode_none {op : Byte} {i : Instr} (h : decodeOpcode (some op) = .none i) (rest : List Byte) :
    decode (op :: rest) = .ok (i, rest) := by
  simp only [decode, h]

/-- Format IMM (R122). -/
theorem decode_one {op : Byte} {mk : MaybeByte → Instr} (h : decodeOpcode (some op) = .one mk) (imm : Byte)
    (rest : List Byte) : decode (op :: imm :: rest) = .ok (mk (some imm), rest) := by
  simp only [decode, h]

/-- Format ABS (R123): the low byte comes first. -/
theorem decode_two {op : Byte} {mk : MaybeByte → MaybeByte → Instr} (h : decodeOpcode (some op) = .two mk)
    (lo hi : Byte) (rest : List Byte) : decode (op :: lo :: hi :: rest) = .ok (mk (some lo) (some hi), rest) := by
  simp only [decode, h]

/-- Format ABS with its high byte missing. -/
theorem decode_two_short {op : Byte} {mk : MaybeByte → MaybeByte → Instr} (h : decodeOpcode (some op) = .two mk)
    (lo : Byte) : decode [op, lo] = .error .missingOperand := by
  simp only [decode, h]

end Sys2Proof

namespace Sys2Proof.Machine

/-! ### The TICK of an illegal opcode -/

/-- The end of the cycle always answers a next state, and neither the increment nor its overflow touches OUT or
isExecuting. -/
theorem endCycle_keeps_out_isExecuting (s : State) :
    ∃ t, endCycle s = .next t ∧ t.out = s.out ∧ t.isExecuting = s.isExecuting := by
  by_cases hf : s.faults = []
  · by_cases hp : s.isPc (s.pc + 1)
    · exact ⟨_, endCycle_ok s hf hp, rfl, rfl⟩
    · exact ⟨_, endCycle_overflow s hf hp, rfl, rfl⟩
  · exact ⟨s, endCycle_faulted s hf, rfl, rfl⟩

/-- R212 inside the cycle: an illegal byte is fetched into IR, reported and halts; the end of the cycle follows. -/
theorem step_illegalOpcode (s : State) (b : Byte) (hs : s.ticking) (hb : s.holds s.pc b) (hi : illegalOpcode b = true) :
    step s = endCycle (({ s with ir := some b }.emit (.unknownInstruction (some b))).halt) := by
  obtain ⟨hlive, hpending, hexec⟩ := hs
  rw [step_tick s hlive hpending,
    tick_run s _ _ hexec (fetchInstr_none s b _ hb (decodeOpcode_illegal b hi)), exec, execUnknown, endTick_next]

/-- Settles O30: the opcode column's complement, a count, and the report and halt that the end of the cycle keeps. -/
theorem illegalOpcodeReportsAndHalts : Obligations.IllegalOpcodeReportsAndHalts := by
  refine ⟨illegalOpcode_iff_not_mem_opcodes, illegalOpcode_count, fun s b hs hb hi => ?_⟩
  rw [step_illegalOpcode s b hs hb hi]
  exact endCycle_keeps_out_isExecuting _

/-- Settles O3: each word decodes by its row of the map and its format's equation. -/
theorem wordsDecodeByTheirFormat : Obligations.WordsDecodeByTheirFormat := by
  refine ⟨fun rest => ?formatI, fun imm rest => ?formatImm, fun imm s => ?immediateMoves, fun lo hi rest => ?formatAbs,
    addr16_some, decode_none decodeOpcode_FF _, decode_none (decodeOpcode_illegal 0x02 (by decide)) _,
    decode_two_short decodeOpcode_AD _⟩
  case formatI => exact ⟨decode_none decodeOpcode_EA rest, decode_none decodeOpcode_00 rest⟩
  case formatImm =>
    exact ⟨decode_one decodeOpcode_A9 imm rest, decode_one decodeOpcode_A2 imm rest, decode_one decodeOpcode_A0 imm rest⟩
  case immediateMoves => exact ⟨rfl, rfl, rfl⟩
  case formatAbs =>
    exact ⟨decode_two decodeOpcode_AD lo hi rest, decode_two decodeOpcode_8D lo hi rest,
      decode_two decodeOpcode_6D lo hi rest, decode_two decodeOpcode_AE lo hi rest,
      decode_two decodeOpcode_AC lo hi rest, decode_two decodeOpcode_EC lo hi rest,
      decode_two decodeOpcode_D0 lo hi rest, decode_two decodeOpcode_EE lo hi rest⟩

end Sys2Proof.Machine
end

section
/-! The TICK of an instruction with one operand byte, and of the immediate loads (R170, R176, R180). -/

namespace Sys2Proof.Machine

/-- The TICK of a format IMM instruction: the opcode is in IR, PC is at the operand byte, which may be absent, and the
instruction and the end of the cycle follow. -/
theorem step_oneOperand {s : State} {b : Byte} {mk : MaybeByte → Instr} (h : s.nextImm b)
    (hd : decodeOpcode (some b) = .one mk) :
    step s = endTick (exec (mk (s.peek (some (s.pc + 1))))
      { s with ir := some b, pc := s.pc + 1, out := s.out ++ s.readEvents (some (s.pc + 1)) }) := by
  obtain ⟨hlive, hpending, hexec⟩ := h.1
  rw [step_tick s hlive hpending, tick_run s _ _ hexec (fetchInstr_one s b mk h hd)]

/-- Where a format IMM instruction leaves PC at its operand byte and raises no fault, the increment to p + 2 ends its TICK. -/
theorem step_oneOperand_next {s u : State} {b : Byte} {mk : MaybeByte → Instr} (h : s.nextImm b)
    (hd : decodeOpcode (some b) = .one mk)
    (hx : exec (mk (s.peek (some (s.pc + 1))))
      { s with ir := some b, pc := s.pc + 1, out := s.out ++ s.readEvents (some (s.pc + 1)) } = .next u)
    (hfaults : u.faults = s.faults) (hconfig : u.config = s.config) (hpc : u.pc = s.pc + 1) :
    step s = .next { u with pc := s.pc + 2 } := by
  have ⟨⟨⟨hunfaulted, _⟩, _⟩, _, _, hp⟩ := h
  have hnext : u.isPc (u.pc + 1) := by rw [State.isPc, hconfig, hpc]; exact hp
  rw [step_oneOperand h hd, hx, endTick_next, endCycle_ok u (hfaults.trans hunfaulted) hnext, hpc]

/-- Settles O27: each load is a format IMM instruction that writes its register and neither PC nor FAULT. -/
theorem immediateLoadTick : Obligations.ImmediateLoadTick := by
  intro s
  refine ⟨fun h => ?lda, fun h => ?ldx, fun h => ?ldy⟩
  case lda => exact step_oneOperand_next h decodeOpcode_A9 rfl rfl rfl rfl
  case ldx => exact step_oneOperand_next h decodeOpcode_A2 rfl rfl rfl rfl
  case ldy => exact step_oneOperand_next h decodeOpcode_A0 rfl rfl rfl rfl

end Sys2Proof.Machine
end

section
/-! CPX (R200, R201): its Z, its own work, its TICK, and the TICK of LDX immediate before it. -/

namespace Sys2Proof.Machine

/-- R201: equality of the bytes as numbers is equality of the bytes. -/
theorem equalFlag_eq_decide (x m : Byte) : equalFlag x m = decide (x = m) := by
  simp only [equalFlag, BitVec.toNat_inj]

/-- CPX with both of its bytes there writes Z and nothing else (R200). -/
theorem exec_cpxAbs (lo hi : MaybeByte) (s : State) (x m : Byte) (h : s.accessible (addr16 lo hi))
    (hx : s.x = some x) (hm : s.peek (addr16 lo hi) = some m) :
    exec (.cpxAbs lo hi) s = .next { s with z := decide (x = m) } := by
  simp only [exec, execCpxAbs, readAbs_some lo hi s m h hm, Res.bind_val, hx, Res.answer_val, equalFlag_eq_decide]

/-- The TICK of a format ABS instruction: the opcode is in IR, PC is at the high operand byte, either operand byte may be
absent, and the instruction and the end of the cycle follow. -/
theorem step_twoOperands {s : State} {b : Byte} {mk : MaybeByte → MaybeByte → Instr} (h : s.nextAbs b)
    (hd : decodeOpcode (some b) = .two mk) :
    step s = endTick (exec (mk (s.peek (some (s.pc + 1))) (s.peek (some (s.pc + 2))))
      { s with ir := some b, pc := s.pc + 2, out := s.out ++ s.operandEvents }) := by
  obtain ⟨hlive, hpending, hexec⟩ := h.1
  rw [step_tick s hlive hpending, tick_run s _ _ hexec (fetchInstr_two s b mk h hd)]

/-- The TICK of a format ABS instruction whose bytes are all in the window. -/
theorem step_twoOperands_held {s : State} {b lo hi : Byte} {mk : MaybeByte → MaybeByte → Instr} (hs : s.ticking)
    (hb : s.holdsBytes s.pc [b, lo, hi]) (hp : s.isPc (s.pc + 3)) (hd : decodeOpcode (some b) = .two mk) :
    step s = endTick (exec (mk (some lo) (some hi)) { s with ir := some b, pc := s.pc + 2 }) := by
  obtain ⟨hop, hlo, hhi, -⟩ := hb
  rw [step_twoOperands ⟨hs, hop, hlo.1, hhi.1, hp⟩ hd, State.operandEvents, State.peek_of_holds hlo,
    State.peek_of_holds hhi, State.readEvents_of_holds hlo, State.readEvents_of_holds hhi, List.append_nil,
    List.append_nil]

/-- The TICK of a CPX whose bytes, and the byte it names, are all in the window. -/
theorem step_cpxAbs_held {s : State} {lo hi x m : Byte} {ea : Nat} (hs : s.ticking)
    (hb : s.holdsBytes s.pc [0xEC, lo, hi]) (hp : s.isPc (s.pc + 3)) (hx : s.x = some x)
    (hea : addr16 (some lo) (some hi) = some ea) (hm : s.holds ea m) :
    step s = .next { s with ir := some 0xEC, pc := s.pc + 3, z := decide (x = m) } := by
  have hcpx : exec (.cpxAbs (some lo) (some hi)) { s with ir := some 0xEC, pc := s.pc + 2 } =
      .next { s with ir := some 0xEC, pc := s.pc + 2, z := decide (x = m) } :=
    exec_cpxAbs _ _ _ x m (hea ▸ hm.1) hx (hea ▸ State.peek_of_holds hm)
  have ⟨⟨hunfaulted, _⟩, _⟩ := hs
  rw [step_twoOperands_held hs hb hp decodeOpcode_EC, hcpx, endTick_next]
  exact endCycle_ok _ hunfaulted hp

/-- The TICK of an LDX immediate whose two bytes are in the window. -/
theorem step_ldxImm_held {s : State} {v : Byte} (hs : s.ticking) (hb : s.holdsBytes s.pc [0xA2, v])
    (hp : s.isPc (s.pc + 2)) : step s = .next { s with ir := some 0xA2, pc := s.pc + 2, x := some v } := by
  obtain ⟨hop, himm, -⟩ := hb
  rw [(immediateLoadTick s).2.1 ⟨hs, hop, himm.1, hp⟩, State.peek_of_holds himm, State.readEvents_of_holds himm,
    List.append_nil]

/-- Settles O33: the first TICK leaves v in X, and memory and the window as they were, so the second compares v with m. -/
theorem ldxThenCpxComparesTheValues : Obligations.LdxThenCpxComparesTheValues := by
  intro s v lo hi m ea hs hb hea hm hp
  obtain ⟨hldx, hcpx⟩ := (s.holdsBytes_append s.pc [0xA2, v] [0xEC, lo, hi]).mp hb
  have hfirst := step_ldxImm_held hs hldx (Nat.lt_of_le_of_lt (by omega) hp)
  have hsecond := step_cpxAbs_held (s := { s with ir := some 0xA2, pc := s.pc + 2, x := some v }) hs
    ((State.holdsBytes_congr rfl rfl rfl rfl rfl rfl _ _).mpr hcpx) hp rfl hea
    ((State.holds_congr rfl rfl rfl rfl rfl rfl _ _).mpr hm)
  exact ⟨_, (run_next 1 _ _ hfirst).trans (run_next 0 _ _ hsecond), rfl⟩

end Sys2Proof.Machine
end

section
/-! The TICK of an instruction with no operand byte, and of NOP (R206). -/

namespace Sys2Proof.Machine

/-- The TICK of a one-byte instruction: its opcode is in IR, PC is still at it, and the instruction and the end of the
cycle follow. -/
theorem step_noOperand {s : State} {b : Byte} {i : Instr} (hs : s.ticking) (hb : s.holds s.pc b)
    (hd : decodeOpcode (some b) = .none i) : step s = endTick (exec i { s with ir := some b }) := by
  obtain ⟨hlive, hpending, hexec⟩ := hs
  rw [step_tick s hlive hpending, tick_run s _ _ hexec (fetchInstr_none s b i hb hd)]

/-- NOP answers the state it is given (R206). -/
theorem exec_nop (s : State) : exec .nop s = .next s := by
  rw [exec, execNop]

/-- Settles O28: NOP keeps the state that the fetch leaves, and the end of the cycle increments its PC. -/
theorem nopTick : Obligations.NopTick := by
  intro s hs hb hp
  have ⟨⟨hunfaulted, _⟩, _⟩ := hs
  rw [step_noOperand hs hb decodeOpcode_EA, exec_nop, endTick_next]
  exact endCycle_ok _ hunfaulted hp

end Sys2Proof.Machine
end

section
/-! Which transactions are refused (R63, R64), and the host's clearing of the CPU registers (R300). -/

namespace Sys2Proof.Machine

/-- With a model fault recorded every transaction is refused (R63, R287). -/
theorem transact_faulted (c : Command) (s : State) (hf : s.faults ≠ []) : transact c s = .fault .modelFault := by
  rw [transact, if_pos hf]

/-- With the trap fired and no model fault recorded every transaction is refused (R64, R276). -/
theorem transact_trapped (c : Command) (s : State) (hf : s.faults = []) (ht : s.trapped = true) :
    transact c s = .fault .trapped := by
  rw [transact, if_neg (not_not_intro hf), if_pos ht]

/-- A faulted machine refuses its next transaction, whatever is queued. -/
theorem step_faulted (s : State) (hf : s.faults ≠ []) : step s = .fault .modelFault := by
  rw [step, nextTransaction]
  split <;> exact transact_faulted _ _ hf

/-- A trapped machine refuses its next transaction, whatever is queued. -/
theorem step_trapped (s : State) (hf : s.faults = []) (ht : s.trapped = true) : step s = .fault .trapped := by
  rw [step, nextTransaction]
  split <;> exact transact_trapped _ _ hf ht

/-- A stopped machine has no next state (log 5); a recorded fault is reported before the trap. -/
theorem step_stopped (s : State) (h : s.faults ≠ [] ∨ s.trapped = true) : ∃ r, step s = .fault r := by
  by_cases hf : s.faults = []
  · exact ⟨.trapped, step_trapped s hf (h.resolve_left (not_not_intro hf))⟩
  · exact ⟨.modelFault, step_faulted s hf⟩

/-- On a live machine a queued CPU_INIT is taken off the queue and clears the CPU register set (R300). -/
theorem step_cpuInit (s : State) (rest : List Command) (hlive : s.live) (hpending : s.pending = .cpuInit :: rest) :
    step s = .next (State.cpuInit { s with pending := rest }) := by
  rw [step_command s .cpuInit rest hlive hpending, perform]

/-- Settles O41: the step is `State.cpuInit`, which writes the eight CPU registers and no other field; a stopped machine
refuses it as it refuses every transaction. -/
theorem cpuInitClearsTheRegistersOnly : Obligations.CpuInitClearsTheRegistersOnly := by
  intro s rest hpending
  refine ⟨fun hlive => ?clears, fun hstopped => ?refused⟩
  case clears => rw [step_cpuInit s rest hlive hpending, State.cpuInit]
  case refused => exact step_stopped s hstopped

end Sys2Proof.Machine
end

section
/-! Encoding and decoding are inverse (R120 to R132), and what the operand bytes of an index name (R99, R313). -/

namespace Sys2Proof

/-! ### Decoding an encoded instruction -/

/-- A format IMM encoding with its byte there decodes by the row of its opcode. -/
theorem encodeImm_decodes {op : Byte} {mk : MaybeByte → Instr} (hd : decodeOpcode (some op) = .one mk) {v : MaybeByte}
    (hv : v.isSome = true) (rest : List Byte) :
    ∃ bytes, encodeImm op v = some bytes ∧ bytes.length = 2 ∧ decode (bytes ++ rest) = .ok (mk v, rest) := by
  obtain ⟨v, rfl⟩ := Option.isSome_iff_exists.mp hv
  exact ⟨[op, v], rfl, rfl, decode_one hd v rest⟩

/-- A format ABS encoding with both bytes there decodes by the row of its opcode. -/
theorem encodeAbs_decodes {op : Byte} {mk : MaybeByte → MaybeByte → Instr} (hd : decodeOpcode (some op) = .two mk)
    {lo hi : MaybeByte} (h : (lo.isSome && hi.isSome) = true) (rest : List Byte) :
    ∃ bytes, encodeAbs op lo hi = some bytes ∧ bytes.length = 3 ∧ decode (bytes ++ rest) = .ok (mk lo hi, rest) := by
  rw [Bool.and_eq_true] at h
  obtain ⟨lo, rfl⟩ := Option.isSome_iff_exists.mp h.1
  obtain ⟨hi, rfl⟩ := Option.isSome_iff_exists.mp h.2
  exact ⟨[op, lo, hi], rfl, rfl, decode_two hd lo hi rest⟩

/-- Settles O1: each instruction by the format of its row. -/
theorem encodedInstructionDecodesToItself : Obligations.EncodedInstructionDecodesToItself := by
  intro i rest hwf
  cases i with
  | ldaImm v => exact encodeImm_decodes decodeOpcode_A9 hwf rest
  | ldxImm v => exact encodeImm_decodes decodeOpcode_A2 hwf rest
  | ldyImm v => exact encodeImm_decodes decodeOpcode_A0 hwf rest
  | ldaAbs lo hi => exact encodeAbs_decodes decodeOpcode_AD hwf rest
  | staAbs lo hi => exact encodeAbs_decodes decodeOpcode_8D hwf rest
  | adcAbs lo hi => exact encodeAbs_decodes decodeOpcode_6D hwf rest
  | ldxAbs lo hi => exact encodeAbs_decodes decodeOpcode_AE hwf rest
  | ldyAbs lo hi => exact encodeAbs_decodes decodeOpcode_AC hwf rest
  | cpxAbs lo hi => exact encodeAbs_decodes decodeOpcode_EC hwf rest
  | bneAbs lo hi => exact encodeAbs_decodes decodeOpcode_D0 hwf rest
  | incAbs lo hi => exact encodeAbs_decodes decodeOpcode_EE hwf rest
  | nop => exact ⟨_, rfl, rfl, decode_none decodeOpcode_EA rest⟩
  | brk => exact ⟨_, rfl, rfl, decode_none decodeOpcode_00 rest⟩
  | sys => exact ⟨_, rfl, rfl, decode_none decodeOpcode_FF rest⟩
  | unknown ir =>
    cases ir with
    | none => simp [Instr.wf] at hwf
    | some b =>
      have hb : illegalOpcode b = true := hwf
      exact ⟨[b], by rw [encode, if_pos hb], rfl, decode_none (decodeOpcode_illegal b hb) rest⟩

/-! ### Encoding a decoded instruction -/

/-- What is read by `shape` after the opcode `op` is well formed and encodes to the bytes read. -/
def Shape.ReadsEncodings (op : Byte) : Shape → Prop
  | .none i => i.wf = true ∧ encode i = some [op]
  | .one mk => ∀ v, (mk (some v)).wf = true ∧ encode (mk (some v)) = some [op, v]
  | .two mk => ∀ lo hi, (mk (some lo) (some hi)).wf = true ∧ encode (mk (some lo) (some hi)) = some [op, lo, hi]

theorem decodeOpcode_readsEncodings (b : Byte) : (decodeOpcode (some b)).ReadsEncodings b := by
  rcases opcode_cases b with hb | hb
  · rw [decodeOpcode_illegal b hb]
    exact ⟨hb, if_pos hb⟩
  · revert b
    simp only [List.forall_mem_cons]
    exact ⟨fun _ => ⟨rfl, rfl⟩, fun _ _ => ⟨rfl, rfl⟩, fun _ _ => ⟨rfl, rfl⟩, fun _ _ => ⟨rfl, rfl⟩, fun _ => ⟨rfl, rfl⟩,
      fun _ _ => ⟨rfl, rfl⟩, fun _ => ⟨rfl, rfl⟩, fun _ _ => ⟨rfl, rfl⟩, ⟨rfl, rfl⟩, ⟨rfl, rfl⟩, fun _ _ => ⟨rfl, rfl⟩,
      fun _ _ => ⟨rfl, rfl⟩, fun _ _ => ⟨rfl, rfl⟩, ⟨rfl, rfl⟩, nofun⟩

/-- Settles O2: the decoder reads by the shape of the opcode's row, and every row reads its own encodings. -/
theorem decodedInstructionEncodesToItsBytes : Obligations.DecodedInstructionEncodesToItsBytes := by
  intro bytes i rest h
  match bytes with
  | [] => simp [decode] at h
  | b :: tail =>
    have hr := decodeOpcode_readsEncodings b
    cases hd : decodeOpcode (some b) with
    | none j =>
      rw [hd] at hr
      rw [decode_none hd] at h
      obtain ⟨rfl, rfl⟩ : j = i ∧ tail = rest := by simpa using h
      exact ⟨hr.1, _, hr.2, rfl⟩
    | one mk =>
      rw [hd] at hr
      match tail with
      | [] => simp [decode, hd] at h
      | v :: tail =>
        rw [decode_one hd] at h
        obtain ⟨rfl, rfl⟩ : mk (some v) = i ∧ tail = rest := by simpa using h
        exact ⟨(hr v).1, _, (hr v).2, rfl⟩
    | two mk =>
      rw [hd] at hr
      match tail with
      | [] => simp [decode, hd] at h
      | [_] => simp [decode, hd] at h
      | lo :: hi :: tail =>
        rw [decode_two hd] at h
        obtain ⟨rfl, rfl⟩ : mk (some lo) (some hi) = i ∧ tail = rest := by simpa using h
        exact ⟨(hr lo hi).1, _, (hr lo hi).2, rfl⟩

end Sys2Proof

namespace Sys2Proof.Machine

/-! ### Operand bytes and indices -/

/-- The index that two numbers below 256 name as operand bytes. -/
theorem addr16_ofNat {l h : Nat} (hl : l < 256) (hh : h < 256) :
    addr16 (some (BitVec.ofNat 8 l)) (some (BitVec.ofNat 8 h)) = some (l + h * 255) := by
  rw [addr16_some, BitVec.toNat_ofNat, BitVec.toNat_ofNat, Nat.mod_eq_of_lt hl, Nat.mod_eq_of_lt hh]

/-- R313: the operand bytes given for an index up to 0xFF00 name it. -/
theorem addressOperand_names (i : Nat) (hi : i ≤ 0xFF00) :
    ∃ lo hi, addressOperand i = some (lo, hi) ∧ addr16 (some lo) (some hi) = some i := by
  rcases Nat.eq_or_lt_of_le hi with rfl | hlt
  · exact ⟨0xFF, 0xFF, rfl, rfl⟩
  · refine ⟨_, _, by rw [addressOperand, if_neg (Nat.ne_of_lt hlt), if_pos hlt], ?_⟩
    rw [addr16_ofNat (by omega) (by omega), Nat.mod_add_div' i 255]

/-- Settles O4: the four consequences of the multiplier 0xFF, each an identity of division by 255 or 256. -/
theorem addressOperandNamesItsIndex : Obligations.AddressOperandNamesItsIndex := by
  refine ⟨addressOperand_names, fun i hi => ⟨?unnamed, fun lo hi' h => ?unreached⟩, fun i hi => ?conventional,
    fun lo hi lo' hi' hlt => ?collision⟩
  case unnamed => rw [addressOperand, if_neg (by omega), if_neg (by omega)]
  case unreached => exact absurd (addr16_le _ _ i h) (by omega)
  case conventional =>
    rw [addr16_ofNat (by omega) (by omega)]
    congr 1
    omega
  case collision =>
    have := lo.isLt
    have := lo'.isLt
    simp only [addr16_some, Option.some.injEq, ← BitVec.toNat_inj, show (0xFF : Byte).toNat = 255 from rfl,
      show (0x00 : Byte).toNat = 0 from rfl]
    omega

end Sys2Proof.Machine
end

section
/-! What a TICK depends on: neither the process table nor the queue (R159), and of the memory only the window. -/

namespace Sys2Proof.Machine

/-! ### The process table and the queue -/

section
variable (tb : List Pcb) (q : List Command)

theorem endCycle_withTQ (s : State) :
    endCycle (State.withTQ tb q s) = mapAnswer (State.withTQ tb q) (endCycle s) := by
  by_cases hf : s.faults = []
  · rw [endCycle, if_pos (show (State.withTQ tb q s).faults = [] from hf), endCycle, if_pos hf, advancePc_withTQ,
      Res.answer_withTQ]
  · rw [endCycle_faulted s hf]
    exact endCycle_faulted (State.withTQ tb q s) hf

theorem endTick_withTQ (a : Answer) :
    endTick (mapAnswer (State.withTQ tb q) a) = mapAnswer (State.withTQ tb q) (endTick a) := by
  cases a with
  | next s => exact endCycle_withTQ tb q s
  | fault r => rfl
  | refused r => rfl

/-- No TICK looks at the process table or the queue. -/
theorem tick_withTQ (s : State) : tick (State.withTQ tb q s) = mapAnswer (State.withTQ tb q) (tick s) := by
  cases he : s.isExecuting with
  | false =>
    rw [tick_halted s he]
    exact tick_halted (State.withTQ tb q s) he
  | true =>
    have hfetch := fetchInstr_withTQ tb q s
    cases hi : fetchInstr s with
    | val i a =>
      have hi' : fetchInstr (State.withTQ tb q s) = .val i (State.withTQ tb q a) := by rw [hfetch, hi]; rfl
      rw [tick_run s a i he hi, tick_run (State.withTQ tb q s) _ i he hi', exec_withTQ, endTick_withTQ]
    | raised a =>
      rw [tick_raised s a he hi]
      exact tick_raised _ (State.withTQ tb q a) he (by rw [hfetch, hi]; rfl)

end

/-- A TICK that answers leaves the table, the queue, the window and the parameters as they were. -/
theorem tick_frame {s t : State} (h : tick s = .next t) :
    ∃ u, CpuFrame s u ∧ (t = u ∨ ∃ f, t = u.raise f) := by
  obtain ⟨t', u, ht, hu, hf⟩ := tick_moves s
  obtain rfl : t' = t := by simpa [ht] using h
  exact ⟨u, hu.frame, hf⟩

theorem tick_keeps_pt_pending {s t : State} (h : tick s = .next t) : t.pt = s.pt ∧ t.pending = s.pending := by
  obtain ⟨u, hu, rfl | ⟨f, rfl⟩⟩ := tick_frame h
  · exact ⟨hu.pt, hu.pending⟩
  · exact ⟨hu.pt, hu.pending⟩

/-- Settles O38: another table, or a queue behind the TICK, goes through the whole TICK untouched. -/
theorem tickIgnoresTheProcessTable : Obligations.TickIgnoresTheProcessTable := by
  intro s t table rest hs h
  obtain ⟨hlive, hpending, -⟩ := hs
  rw [step_tick s hlive hpending] at h
  obtain ⟨hpt, hq⟩ := tick_keeps_pt_pending h
  refine ⟨hpt, ?table, ?queue⟩
  case table =>
    have hother : step { s with pt := table } = tick (State.withTQ table s.pending s) :=
      step_tick { s with pt := table } hlive hpending
    rw [hother, tick_withTQ, h, ← hq]
    rfl
  case queue =>
    have hother : step { s with pending := .tick :: rest } = tick (State.withTQ s.pt rest s) :=
      step_command { s with pending := .tick :: rest } .tick rest hlive rfl
    rw [hother, tick_withTQ, h, ← hpt]
    rfl

/-! ### The cells outside the window -/

/-- Moves write only cells that are in the window and in memory. -/
theorem CpuMoves.cell_outside {s t : State} (h : CpuMoves s t) {a : Nat}
    (ha : a < s.base ∨ s.limit < a ∨ s.config.memorySize ≤ a) : t.cell a = s.cell a := by
  induction h with
  | refl => rfl
  | step hm m ih =>
    rw [← ih]
    cases m with
    | store b v hb hl hu hsize =>
      rw [hm.frame.base] at hl
      rw [hm.frame.limit] at hu
      rw [hm.frame.config] at hsize
      exact State.cell_setCell_other _ _ _ _ (by omega)
    | _ => rfl

/-- `s` with other memory. -/
def State.withMem (mem : List Host.Cell) (s : State) : State := { s with mem := mem }

theorem State.inSegment_withMem (s : State) (mem : List Host.Cell) (i : Index) :
    (s.withMem mem).inSegment i = s.inSegment i := by
  cases i <;> rfl

/-- The second state is the first with other memory, and the two read alike inside the window. -/
inductive WindowAgree (s : State) : State → Prop where
  | intro (mem : List Host.Cell) (h : ∀ a, s.base ≤ a → a ≤ s.limit → (s.withMem mem).cell a = s.cell a) :
      WindowAgree s (s.withMem mem)

/-- Two results are alike: the same value or the same kind of end, in states that agree on the window. -/
inductive Res.WindowAgree {α : Type} : Res α → Res α → Prop where
  | val (a : α) {s t : State} (h : Machine.WindowAgree s t) : Res.WindowAgree (.val a s) (.val a t)
  | raised {s t : State} (h : Machine.WindowAgree s t) : Res.WindowAgree (.raised s) (.raised t)

/-- The operation looks at no cell outside the window: on states that agree on the window it gives results that do. -/
def LooksInWindow {α : Type} (f : State → Res α) : Prop := ∀ s t, WindowAgree s t → (f s).WindowAgree (f t)

/-- The same of an operation that answers. -/
def AnswersInWindow (f : State → Answer) : Prop :=
  ∀ s t, WindowAgree s t → ∃ s' t', f s = .next s' ∧ f t = .next t' ∧ WindowAgree s' t'

theorem LooksInWindow.bind {α β : Type} {f : State → Res α} {g : α → State → Res β} (hf : LooksInWindow f)
    (hg : ∀ a, LooksInWindow (g a)) : LooksInWindow fun s => (f s).bind g := by
  intro s t h
  have hr := hf s t h
  revert hr
  show (f s).WindowAgree (f t) → ((f s).bind g).WindowAgree ((f t).bind g)
  generalize f s = r, f t = r'
  rintro (⟨a, h⟩ | h)
  · exact hg a _ _ h
  · exact .raised h

theorem LooksInWindow.answer {α : Type} {f : State → Res α} (hf : LooksInWindow f) :
    AnswersInWindow fun s => (f s).answer := by
  intro s t h
  have hr := hf s t h
  revert hr
  show _ → ∃ s' t', (f s).answer = .next s' ∧ (f t).answer = .next t' ∧ WindowAgree s' t'
  generalize f s = r, f t = r'
  rintro (⟨a, h⟩ | h)
  · exact ⟨_, _, rfl, rfl, h⟩
  · exact ⟨_, _, rfl, rfl, h⟩

theorem looksInWindow_raise {α : Type} (f : ModelFault) : LooksInWindow (raise f : State → Res α) := by
  rintro s _ ⟨mem, h⟩
  exact .raised (.intro mem h)

theorem looksInWindow_advancePc (d : Nat) : LooksInWindow (advancePc d) := by
  rintro s _ ⟨mem, h⟩
  by_cases hp : s.isPc (s.pc + d)
  · rw [advancePc_ok d s hp, advancePc_ok d (s.withMem mem) hp]
    exact .val _ (.intro mem h)
  · rw [advancePc_overflow d s hp, advancePc_overflow d (s.withMem mem) hp]
    exact .raised (.intro mem h)

/-- An index that passes the fence names a cell of the window. -/
theorem State.address_in_window {s : State} {i : Index} (h : s.inSegment i = true) :
    s.base ≤ s.address i ∧ s.address i ≤ s.limit := by
  obtain ⟨n, rfl, hl, ha⟩ := s.inSegment_isSome i h
  omega

theorem looksInWindow_memRead (i : Index) : LooksInWindow (memRead i) := by
  rintro s _ ⟨mem, h⟩
  have hfence := s.inSegment_withMem mem i
  rcases memRead_cases i s with ⟨hb, hr⟩ | ⟨hi, hm, hr⟩ | ⟨hb, hi, hm, hr⟩ | ⟨hb, hi, hr⟩
  · rw [hr, memRead_unbound i (s.withMem mem) hb]
    exact .raised (.intro mem h)
  · cases hb : s.bound with
    | false =>
      rw [memRead_unbound i s hb, memRead_unbound i (s.withMem mem) hb]
      exact .raised (.intro mem h)
    | true =>
      rw [hr, memRead_beyond i (s.withMem mem) hb (hfence.trans hi) hm]
      exact .raised (.intro mem h)
  · obtain ⟨hl, hu⟩ := State.address_in_window hi
    have hcell : (s.withMem mem).cell ((s.withMem mem).address i) = s.cell (s.address i) := h _ hl hu
    rw [hr, memRead_inside i (s.withMem mem) ⟨hb, fun _ => hm⟩ (hfence.trans hi), hcell]
    exact .val _ (.intro mem h)
  · rw [hr, memRead_outside i (s.withMem mem) hb (hfence.trans hi)]
    exact .val _ (.intro mem h)

theorem WindowAgree.setCell {s t : State} (h : WindowAgree s t) (a : Nat) (v : Byte) :
    WindowAgree (s.setCell a v) (t.setCell a v) := by
  obtain ⟨mem, h⟩ := h
  refine .intro (memInsert mem a v) fun b hl hu => ?_
  show ((s.withMem mem).setCell a v).cell b = (s.setCell a v).cell b
  rw [State.cell_setCell, State.cell_setCell, h b hl hu]

theorem looksInWindow_memWrite (i : Index) (v : MaybeByte) (f : ModelFault) : LooksInWindow (memWrite i v f) := by
  rintro s _ ⟨mem, h⟩
  have hfence := s.inSegment_withMem mem i
  cases hb : s.bound with
  | false =>
    rw [memWrite_unbound i v f s hb, memWrite_unbound i v f (s.withMem mem) hb]
    exact .raised (.intro mem h)
  | true =>
    cases hi : s.inSegment i with
    | false =>
      rw [memWrite_outside i v f s hb hi, memWrite_outside i v f (s.withMem mem) hb (hfence.trans hi)]
      exact .val _ (.intro mem h)
    | true =>
      by_cases hm : s.config.memorySize ≤ s.address i
      · rw [memWrite_beyond i v f s hb hi hm, memWrite_beyond i v f (s.withMem mem) hb (hfence.trans hi) hm]
        exact .raised (.intro mem h)
      · have ha : s.accessible i := ⟨hb, fun _ => Nat.not_le.mp hm⟩
        have ha' : (s.withMem mem).accessible i := ⟨hb, fun _ => Nat.not_le.mp hm⟩
        cases v with
        | none =>
          rw [memWrite_absent i f s ha hi, memWrite_absent i f (s.withMem mem) ha' (hfence.trans hi)]
          exact .raised (.intro mem h)
        | some b =>
          rw [memWrite_inside i b f s ha hi, memWrite_inside i b f (s.withMem mem) ha' (hfence.trans hi)]
          exact .val _ ((WindowAgree.intro mem h).setCell _ b)

/-- The test of a string loop's end looks at PC and MEMORY_SIZE only. -/
theorem LooksInWindow.iteEnd {α : Type} {f g : State → Res α} (hf : LooksInWindow f) (hg : LooksInWindow g) :
    LooksInWindow fun s => if s.config.memorySize ≤ s.pc then f s else g s := by
  rintro s _ ⟨mem, h⟩
  show Res.WindowAgree (if s.config.memorySize ≤ s.pc then _ else _) (if s.config.memorySize ≤ s.pc then _ else _)
  split
  · exact hf _ _ (.intro mem h)
  · exact hg _ _ (.intro mem h)

theorem looksInWindow_readAtPc : LooksInWindow fun s => memRead (some s.pc) s := by
  rintro s _ ⟨mem, h⟩
  exact looksInWindow_memRead (some s.pc) _ _ (.intro mem h)

theorem looksInWindow_next8 : LooksInWindow next8 := (looksInWindow_advancePc 1).bind fun _ => looksInWindow_readAtPc

theorem looksInWindow_val {α : Type} (a : α) : LooksInWindow (Res.val a) := fun _ _ h => .val a h

/-- A change of the state that keeps the agreement on the window. -/
theorem looksInWindow_change {f : State → State} (hf : ∀ s t, WindowAgree s t → WindowAgree (f s) (f t)) :
    LooksInWindow fun s => .val () (f s) :=
  fun s t h => .val () (hf s t h)

theorem WindowAgree.emit {s t : State} (h : WindowAgree s t) (e : Event) : WindowAgree (s.emit e) (t.emit e) := by
  obtain ⟨mem, h⟩ := h
  exact .intro mem h

theorem looksInWindow_fetchOperands (shape : Shape) : LooksInWindow (fetchOperands shape) := by
  cases shape with
  | none i => exact looksInWindow_val i
  | one mk => exact looksInWindow_next8.bind fun v => looksInWindow_val (mk v)
  | two mk => exact looksInWindow_next8.bind fun lo => looksInWindow_next8.bind fun hi => looksInWindow_val (mk lo hi)

theorem looksInWindow_fetchInstr : LooksInWindow fetchInstr := by
  have hfetch : LooksInWindow fetch := looksInWindow_readAtPc.bind fun ir => by
    rintro s _ ⟨mem, h⟩
    exact .val ir (.intro mem h)
  exact hfetch.bind fun ir => looksInWindow_fetchOperands _

theorem looksInWindow_sysStringLoop (n : Nat) (bytes : List Byte) : LooksInWindow (sysStringLoop n bytes) := by
  induction n generalizing bytes with
  | zero => exact looksInWindow_val bytes
  | succ n ih =>
    refine (looksInWindow_advancePc 1).bind fun _ => (looksInWindow_val bytes).iteEnd
      (looksInWindow_readAtPc.bind fun b => ?_)
    cases b with
    | none => exact looksInWindow_raise _
    | some b =>
      by_cases hb : b = 0
      · simp only [if_pos hb]
        exact looksInWindow_val bytes
      · simp only [if_neg hb]
        exact ih _

theorem looksInWindow_sysString : LooksInWindow sysString := by
  rintro s _ ⟨mem, h⟩
  exact (looksInWindow_sysStringLoop (sysFuel s) []).bind
    (fun bytes => looksInWindow_change fun _ _ h => h.emit (.sysString bytes)) _ _ (.intro mem h)

theorem looksInWindow_sysNumber : LooksInWindow sysNumber := by
  rintro s _ ⟨mem, h⟩
  show Res.WindowAgree (match s.y with | some n => _ | none => _) (match s.y with | some n => _ | none => _)
  cases s.y with
  | none => exact looksInWindow_raise _ _ _ (.intro mem h)
  | some n => exact .val _ ((WindowAgree.intro mem h).emit _)

/-- No instruction looks at a cell outside the window. -/
theorem answersInWindow_exec (i : Instr) : AnswersInWindow (exec i) := by
  have read (lo hi : MaybeByte) : LooksInWindow (readAbs lo hi) := looksInWindow_memRead _
  cases i with
  | ldaImm v | ldxImm v | ldyImm v | nop | brk | unknown v =>
    rintro s _ ⟨mem, h⟩
    exact ⟨_, _, rfl, rfl, .intro mem h⟩
  | ldaAbs lo hi | ldxAbs lo hi | ldyAbs lo hi =>
    refine ((read lo hi).bind fun m => looksInWindow_change ?_).answer
    rintro s _ ⟨mem, h⟩
    exact .intro mem h
  | staAbs lo hi =>
    rintro s _ ⟨mem, h⟩
    exact (looksInWindow_memWrite _ s.acc (.undefUse (.staAbs lo hi) [s.acc])).answer _ _ (.intro mem h)
  | adcAbs lo hi =>
    refine ((read lo hi).bind fun m => ?_).answer
    rintro s _ ⟨mem, h⟩
    show Res.WindowAgree (match s.acc, m with | some a, some b => _ | _, _ => _)
      (match s.acc, m with | some a, some b => _ | _, _ => _)
    split
    · exact .val _ (.intro mem h)
    · exact looksInWindow_raise _ _ _ (.intro mem h)
  | cpxAbs lo hi =>
    refine ((read lo hi).bind fun m => ?_).answer
    rintro s _ ⟨mem, h⟩
    show Res.WindowAgree (match s.x, m with | some a, some b => _ | _, _ => _)
      (match s.x, m with | some a, some b => _ | _, _ => _)
    split
    · exact .val _ (.intro mem h)
    · exact looksInWindow_raise _ _ _ (.intro mem h)
  | incAbs lo hi => exact ((read lo hi).bind fun m => looksInWindow_memWrite _ _ _).answer
  | bneAbs lo hi =>
    have branch : LooksInWindow fun s => (readAbs lo hi s).bind fun d s =>
        match d with
        | some d => advancePc d.toNat s
        | none => raise (.undefUse (.bneAbs lo hi) [none]) s := by
      refine (read lo hi).bind fun d => ?_
      cases d with
      | none => exact looksInWindow_raise _
      | some d => exact looksInWindow_advancePc _
    rintro s _ ⟨mem, h⟩
    cases hz : s.z with
    | true => exact ⟨s, s.withMem mem, if_pos hz, if_pos hz, .intro mem h⟩
    | false =>
      have hz' : (s.withMem mem).z = false := hz
      obtain ⟨s', t', hs, ht, h'⟩ := branch.answer _ _ (.intro mem h)
      refine ⟨s', t', ?_, ?_, h'⟩
      · rw [exec, execBneAbs, hz]
        exact hs
      · rw [exec, execBneAbs, hz']
        exact ht
  | sys =>
    rintro s _ ⟨mem, h⟩
    have call : LooksInWindow fun t =>
        match s.x with
        | none => raise (.undefUse .sys [none]) t
        | some x => if x = 1 then sysNumber t else if x = 2 then sysString t else .val () t := by
      cases s.x with
      | none => exact looksInWindow_raise _
      | some x =>
        by_cases h1 : x = 1
        · simpa only [if_pos h1] using looksInWindow_sysNumber
        · by_cases h2 : x = 2
          · simpa only [if_neg h1, if_pos h2] using looksInWindow_sysString
          · simpa only [if_neg h1, if_neg h2] using looksInWindow_val ()
    exact call.answer _ _ (.intro mem h)

theorem answersInWindow_endCycle : AnswersInWindow endCycle := by
  rintro s _ ⟨mem, h⟩
  by_cases hf : s.faults = []
  · have hf' : (s.withMem mem).faults = [] := hf
    rw [endCycle, if_pos hf, endCycle, if_pos hf']
    exact (looksInWindow_advancePc 1).answer _ _ (.intro mem h)
  · exact ⟨_, _, endCycle_faulted s hf, endCycle_faulted (s.withMem mem) hf, .intro mem h⟩

/-- No TICK looks at a cell outside the window. -/
theorem answersInWindow_tick : AnswersInWindow tick := by
  rintro s _ ⟨mem, h⟩
  cases he : s.isExecuting with
  | false => exact ⟨_, _, tick_halted s he, tick_halted (s.withMem mem) he, .intro mem h⟩
  | true =>
    have he' : (s.withMem mem).isExecuting = true := he
    have hfetch := looksInWindow_fetchInstr _ _ (.intro mem h)
    generalize hr : fetchInstr s = r, hr' : fetchInstr (s.withMem mem) = r' at hfetch
    obtain ⟨i, ha⟩ | ha := hfetch
    · obtain ⟨_, _, hs, ht, hb⟩ := answersInWindow_exec i _ _ ha
      rw [tick_run s _ i he hr, tick_run _ _ i he' hr', hs, ht]
      exact answersInWindow_endCycle _ _ hb
    · exact ⟨_, _, tick_raised s _ he hr, tick_raised _ _ he' hr', ha⟩

/-- Settles O39: the moves of a TICK store only inside the window and the memory, and every operation of a TICK looks only
there. -/
theorem tickIsConfinedToItsWindow : Obligations.TickIsConfinedToItsWindow := by
  intro s t hs h
  obtain ⟨hlive, hpending, -⟩ := hs
  rw [step_tick s hlive hpending] at h
  obtain ⟨t₁, u, ht₁, hu, hfault⟩ := tick_moves s
  obtain rfl : t₁ = t := by simpa [ht₁] using h
  have hframe := hu.frame
  refine ⟨fun a ha => ?confined, fun mem hmem => ?blind⟩
  case confined =>
    have hcell := hu.cell_outside ha
    rcases hfault with rfl | ⟨f, rfl⟩ <;> exact hcell
  case blind =>
    have hwindow : t₁.base = s.base ∧ t₁.limit = s.limit := by
      rcases hfault with rfl | ⟨f, rfl⟩ <;> exact ⟨hframe.base, hframe.limit⟩
    obtain ⟨_, t', hs', ht', hagree⟩ := answersInWindow_tick s _ (.intro mem hmem)
    obtain rfl : t₁ = _ := by simpa [ht₁] using hs'
    obtain ⟨mem', hcells⟩ := hagree
    rw [hwindow.1, hwindow.2] at hcells
    exact ⟨_, (step_tick (s.withMem mem) hlive hpending).trans ht', rfl, hcells⟩

end Sys2Proof.Machine
end

section
/-! What a transaction of the host's table does when it answers, and the two invariants of every step (R241, log 2, log 12). -/

namespace Sys2Proof.Machine

/-! ### The host's table operations, read backwards -/

theorem ptCreate_next {p : Pcb} {s t : State} (h : ptCreate p s = .next t) :
    s.pcb? p.processID = none ∧ p.processState = .new ∧ s.isPc p.pc ∧ t = { s with pt := s.pt ++ [p] } := by
  rw [ptCreate] at h
  split at h
  · rename_i hc
    simp only [Bool.and_eq_true, Option.isNone_iff_eq_none, decide_eq_true_eq] at hc
    obtain ⟨⟨hfresh, hnew⟩, hpc⟩ := hc
    exact ⟨hfresh, hnew, hpc, by simpa using h.symm⟩
  · simp at h

theorem ptSetState_next {n : Nat} {st : ProcessState} {s t : State} (h : ptSetState n st s = .next t) :
    st = .ready ∧ (∃ p, s.pcb? n = some p ∧ p.processState = .new) ∧
      t = s.updatePcb n fun p => { p with processState := .ready } := by
  rw [ptSetState] at h
  split at h
  · rename_i hc
    simp only [Bool.and_eq_true, decide_eq_true_eq, Option.any_eq_true] at hc
    exact ⟨hc.1, hc.2, by simpa using h.symm⟩
  · simp at h

theorem ptRemove_next {n : Nat} {s t : State} (h : ptRemove n s = .next t) :
    (∃ p, s.pcb? n = some p) ∧ t = { s with pt := s.pt.filter fun p => p.processID != n } := by
  rw [ptRemove] at h
  split at h
  · rename_i hc
    exact ⟨Option.isSome_iff_exists.mp hc, by simpa using h.symm⟩
  · simp at h

/-! ### One process running -/

/-- A table whose RUNNING PCBs were all there before, with the CPU no further in execution. -/
theorem State.OneRunning.of_fewer {s t : State} (h : s.OneRunning)
    (hrun : ∀ q ∈ t.pt, q.processState = .running → q ∈ s.pt)
    (hexec : t.isExecuting = true → s.isExecuting = true ∧ t.pid = s.pid) : t.OneRunning := by
  obtain ⟨hone, hcurrent⟩ := h
  refine ⟨fun p hp q hq hpr hqr => hone p (hrun p hp hpr) q (hrun q hq hqr) hpr hqr, fun he p hp hpr => ?_⟩
  obtain ⟨hes, hpid⟩ := hexec he
  rw [hpid]
  exact hcurrent hes p (hrun p hp hpr) hpr

/-- A table in which only the current PCB can be RUNNING. -/
theorem State.OneRunning.of_current {t : State} (h : ∀ q ∈ t.pt, q.processState = .running → q.processID = t.pid) :
    t.OneRunning :=
  ⟨fun p hp q hq hpr hqr => (h p hp hpr).trans (h q hq hqr).symm, fun _ => h⟩

/-- A PCB that runs after a change that sets no PCB RUNNING ran before, unchanged. -/
theorem State.mem_of_running_updatePcb {s : State} {n : Nat} {f : Pcb → Pcb} (hf : ∀ p, (f p).processState ≠ .running)
    {q : Pcb} (hq : q ∈ (s.updatePcb n f).pt) (hr : q.processState = .running) : q ∈ s.pt ∧ q.processID ≠ n := by
  obtain ⟨p, hp, rfl⟩ := State.mem_updatePcb hq
  split at hr
  · exact absurd hr (hf p)
  · rename_i hn
    rw [if_neg hn]
    exact ⟨hp, hn⟩

theorem dispatchStart_keeps_oneRunning {n : Nat} {w : Window} {s : State} (h : s.OneRunning) :
    (dispatchStart n w s).state.OneRunning := by
  rcases dispatchStart_cases s n w with ⟨-, hr⟩ | ⟨p, hp, ho, hr⟩ | ⟨-, hr⟩ <;> rw [hr]
  · exact h
  · refine .of_current fun q hq hqr => ?_
    obtain ⟨r, hmem, rfl⟩ := State.mem_updatePcb (s := (s.useSegment w).restore p) hq
    by_cases hn : r.processID = p.processID
    · rw [if_pos hn]
      exact hn
    · rw [if_neg hn] at hqr
      rw [State.pcb?_some_pid hp] at hn
      exact absurd hqr ((s.othersRunning_eq_nil n).mp ho r hmem hn)
  · exact h

theorem dispatchSwitch_keeps_oneRunning {out : Option Nat} {n : Nat} {w : Window} {s : State} (h : s.OneRunning) :
    (dispatchSwitch out n w s).state.OneRunning := by
  rcases dispatchSwitch_cases out n w s with ⟨-, hr⟩ | ⟨o, -, -, hr⟩ | ⟨o, p, -, -, hr⟩ <;> rw [hr]
  · exact dispatchStart_keeps_oneRunning h
  · exact h
  · exact dispatchStart_keeps_oneRunning
      (h.of_fewer (fun q hq hqr => (State.mem_of_running_updatePcb (switchOut_ne_running s) hq hqr).1) fun he => ⟨he, rfl⟩)

theorem dispatchSync_keeps_oneRunning {s : State} (h : s.OneRunning) : (dispatchSync s).state.OneRunning := by
  cases he : s.isExecuting with
  | true =>
    refine .of_current fun q hq hqr => ?_
    obtain ⟨p, hp, rfl⟩ := State.mem_updatePcb (s := s) hq
    by_cases hn : p.processID = s.pid
    · rw [if_pos hn]
      exact hn
    · rw [if_neg hn] at hqr
      exact absurd (h.2 he p hp hqr) hn
  | false =>
    refine h.of_fewer (fun q hq hqr => ?_) fun hx => ⟨hx, rfl⟩
    refine (State.mem_of_running_updatePcb (s := s) (fun p => ?_) hq hqr).1
    simp [he]

theorem endAs_keeps_oneRunning {final : ProcessState} (hfinal : final ≠ .running) {n : Nat} {s : State}
    (h : s.OneRunning) : (endAs final n s).state.OneRunning := by
  rcases endAs_cases final n s with ⟨-, hr⟩ | ⟨p, -, hr⟩ <;> rw [hr]
  · exact h
  · have halted : (if n = s.pid then s.halt else s).OneRunning := by
      split
      · exact h.of_fewer (fun _ hq _ => hq) nofun
      · exact h
    exact halted.of_fewer (fun q hq hqr => (State.mem_of_running_updatePcb (fun _ => hfinal) hq hqr).1) fun he => ⟨he, rfl⟩

/-- Every transaction keeps the one-running invariant. -/
theorem perform_keeps_oneRunning (c : Command) {s t : State} (h : s.OneRunning) (ht : perform c s = .next t) :
    t.OneRunning := by
  have accessor {r : Res Unit} (hr : AccessorFrame s r.state) (ht : r.answer = .next t) : t.OneRunning := by
    rw [← r.answer_next t ht]
    exact h.of_fewer (fun q hq _ => hr.pt ▸ hq) fun he => ⟨hr.isExecuting ▸ he, hr.pid⟩
  cases c with
  | tick =>
    obtain ⟨u, hu, hfault⟩ := tick_frame ht
    have hut : u.OneRunning := h.of_fewer (fun q hq _ => hu.pt ▸ hq) fun he => ⟨hu.isExecuting he, hu.pid⟩
    rcases hfault with rfl | ⟨f, rfl⟩ <;> exact hut
  | cpuInit =>
    obtain rfl : s.cpuInit = t := by simpa [perform] using ht
    exact h.of_fewer (fun _ hq _ => hq) nofun
  | reset =>
    obtain rfl : s.resetBlock = t := by simpa [perform] using ht
    exact .of_current (by simp)
  | dispatchStart n w => exact Res.answer_next _ t ht ▸ dispatchStart_keeps_oneRunning h
  | dispatchSync => exact Res.answer_next _ t ht ▸ dispatchSync_keeps_oneRunning h
  | dispatchStop n => exact Res.answer_next _ t ht ▸ endAs_keeps_oneRunning (final := .stopped) nofun h
  | dispatchEnd n => exact Res.answer_next _ t ht ▸ endAs_keeps_oneRunning (final := .done) nofun h
  | dispatchSwitch out n w => exact Res.answer_next _ t ht ▸ dispatchSwitch_keeps_oneRunning h
  | accUseSegment b l =>
    obtain rfl : s.useSegment ⟨b, l⟩ = t := by simpa [perform] using ht
    exact h
  | accGet i => exact accessor (accGet_frame i s) ht
  | accSet i v => exact accessor (accSet_frame i v s) ht
  | accGetArray a b => exact accessor (accGetArray_frame a b s) ht
  | accSetArray a data => exact accessor (accSetArray_frame a data s) ht
  | ptCreate p =>
    obtain ⟨-, hnew, -, rfl⟩ := ptCreate_next ht
    refine h.of_fewer (fun q hq hqr => ?_) fun he => ⟨he, rfl⟩
    rcases List.mem_append.mp hq with hq | hq
    · exact hq
    · rw [List.mem_singleton.mp hq, hnew] at hqr
      cases hqr
  | ptSetState n st =>
    obtain ⟨-, -, rfl⟩ := ptSetState_next ht
    exact h.of_fewer (fun q hq hqr => (State.mem_of_running_updatePcb (by simp) hq hqr).1) fun he => ⟨he, rfl⟩
  | ptRemove n =>
    obtain ⟨-, rfl⟩ := ptRemove_next ht
    exact h.of_fewer (fun q hq _ => (List.mem_filter.mp hq).1) fun he => ⟨he, rfl⟩

/-- Settles O53: the invariant does not speak of the queue, and every transaction keeps it. -/
theorem stepKeepsOneProcessRunning : Obligations.StepKeepsOneProcessRunning := by
  intro s t h ht
  rcases step_cases s t ht with ⟨-, -, -, ht⟩ | ⟨rest, -, -, ht⟩
  · exact perform_keeps_oneRunning .tick h ht
  · exact perform_keeps_oneRunning (s := { s with pending := rest }) _ h ht

/-! ### The state invariant -/

theorem State.Inv.raise {s : State} (h : s.Inv) (hf : s.faults = []) (f : ModelFault) : (s.raise f).Inv :=
  { h with oneFault := by rw [s.raise_first f hf]; rfl }

/-- Moves of the CPU keep the invariant. -/
theorem CpuMove.keeps_inv {s t : State} (m : CpuMove s t) (h : s.Inv) : t.Inv := by
  cases m with
  | advance d hd => exact { h with pcValue := hd }
  | halt => exact { h with boundFirst := nofun }
  | store a v hb hl hu hm =>
    refine { h with memory := memInsert_wf _ _ _ h.memory, cells := fun c hc => ?_ }
    rcases memInsert_addresses _ _ _ _ hc with rfl | hc
    · exact hm
    · exact h.cells c hc
  | _ => exact { h with }

theorem AccessorFrame.keeps_inv {s t : State} (k : AccessorFrame s t) (h : s.Inv) (hf : s.faults = []) : t.Inv where
  sizes := k.config ▸ h.sizes
  memory := k.memory h.memory
  cells c hc := by
    rw [k.config]
    exact (k.cells c hc).elim (h.cells c) id
  pcValue := by
    rw [State.isPc, k.config, k.pc]
    exact h.pcValue
  savedPc p hp := by
    rw [State.isPc, k.config]
    exact h.savedPc p (k.pt ▸ hp)
  uniquePids := k.pt ▸ h.uniquePids
  boundFirst he := k.bound ▸ h.boundFirst (k.isExecuting ▸ he)
  oneFault := k.oneFault hf

/-- Changing a PCB keeps the invariant if its PID stays and its saved PC is still a PC value. -/
theorem State.Inv.updatePcb {s : State} (h : s.Inv) (n : Nat) {f : Pcb → Pcb}
    (hid : ∀ p, (f p).processID = p.processID) (hpc : ∀ p, s.isPc p.pc → s.isPc (f p).pc) : (s.updatePcb n f).Inv := by
  refine { h with savedPc := fun q hq => ?_, uniquePids := ?_ }
  · obtain ⟨p, hp, rfl⟩ := State.mem_updatePcb hq
    split
    · exact hpc p (h.savedPc p hp)
    · exact h.savedPc p hp
  · rw [State.updatePcb_pids _ _ _ hid]
    exact h.uniquePids

theorem State.Inv.dispatchStart {s : State} (h : s.Inv) (hf : s.faults = []) (n : Nat) (w : Window) :
    (dispatchStart n w s).state.Inv := by
  rcases dispatchStart_cases s n w with ⟨-, hr⟩ | ⟨p, hp, -, hr⟩ | ⟨-, hr⟩ <;> rw [hr]
  · exact h.raise hf _
  · have loaded : ((s.useSegment w).restore p).Inv :=
      { h with pcValue := h.savedPc p (State.pcb?_mem hp), boundFirst := fun _ => rfl }
    exact { loaded.updatePcb p.processID (f := fun q => { q with processState := .running }) (fun _ => rfl)
      (fun _ => id) with boundFirst := fun _ => rfl }
  · exact h.raise hf _

theorem switchOut_isPc {s : State} (h : s.isPc s.pc) (p : Pcb) (hp : s.isPc p.pc) : s.isPc (switchOut s p).pc := by
  have demoted (q : Pcb) : (demote q).pc = q.pc := by rw [demote]; split <;> rfl
  rw [switchOut]
  split
  · rw [demoted]
    exact h
  · rw [demoted]
    exact hp

theorem State.Inv.dispatchSwitch {s : State} (h : s.Inv) (hf : s.faults = []) (out : Option Nat) (n : Nat) (w : Window) :
    (dispatchSwitch out n w s).state.Inv := by
  rcases dispatchSwitch_cases out n w s with ⟨-, hr⟩ | ⟨o, -, -, hr⟩ | ⟨o, p, -, -, hr⟩ <;> rw [hr]
  · exact h.dispatchStart hf n w
  · exact h.raise hf _
  · exact (h.updatePcb o (switchOut_processID s) (switchOut_isPc h.pcValue)).dispatchStart hf n w

theorem State.Inv.endAs {s : State} (h : s.Inv) (hf : s.faults = []) (final : ProcessState) (n : Nat) :
    (endAs final n s).state.Inv := by
  rcases endAs_cases final n s with ⟨-, hr⟩ | ⟨p, -, hr⟩ <;> rw [hr]
  · exact h.raise hf _
  · have halted : (if n = s.pid then s.halt else s).Inv := by
      split
      · exact { h with boundFirst := nofun }
      · exact h
    exact { halted.updatePcb n (f := fun p => { p with processState := final }) (fun _ => rfl) (fun _ => id) with }

/-- Every transaction on a machine with no fault keeps the invariant. -/
theorem perform_keeps_inv (c : Command) {s t : State} (h : s.Inv) (hf : s.faults = []) (ht : perform c s = .next t) :
    t.Inv := by
  have accessor {r : Res Unit} (hr : AccessorFrame s r.state) (ht : r.answer = .next t) : t.Inv :=
    r.answer_next t ht ▸ hr.keeps_inv h hf
  cases c with
  | tick =>
    obtain ⟨t', u, ht', hu, hfault⟩ := tick_moves s
    obtain rfl : t' = t := by simpa [ht'] using (show tick s = .next t from ht)
    have hut : u.Inv := hu.keeps State.Inv (fun _ _ m k => m.keeps_inv k) h
    rcases hfault with rfl | ⟨f, rfl⟩
    · exact hut
    · exact hut.raise (hu.frame.faults.trans hf) f
  | cpuInit =>
    obtain rfl : s.cpuInit = t := by simpa [perform] using ht
    exact { h with pcValue := Nat.two_pow_pos _, boundFirst := nofun }
  | reset =>
    obtain rfl : s.resetBlock = t := by simpa [perform] using ht
    exact ⟨by simpa using h.sizes, by simp [memWf], by simp, by simp [State.isPc], by simp, by simp, by simp, by simp [hf]⟩
  | dispatchStart n w => exact Res.answer_next _ t ht ▸ h.dispatchStart hf n w
  | dispatchSync =>
    refine Res.answer_next _ t ht ▸ ?_
    exact { h.updatePcb s.pid (f := fun p => { s.save p with processState := if s.isExecuting then .running else .done })
      (fun _ => rfl) (fun _ _ => h.pcValue) with }
  | dispatchStop n => exact Res.answer_next _ t ht ▸ h.endAs hf .stopped n
  | dispatchEnd n => exact Res.answer_next _ t ht ▸ h.endAs hf .done n
  | dispatchSwitch out n w => exact Res.answer_next _ t ht ▸ h.dispatchSwitch hf out n w
  | accUseSegment b l =>
    obtain rfl : s.useSegment ⟨b, l⟩ = t := by simpa [perform] using ht
    exact { h with boundFirst := fun _ => rfl }
  | accGet i => exact accessor (accGet_frame i s) ht
  | accSet i v => exact accessor (accSet_frame i v s) ht
  | accGetArray a b => exact accessor (accGetArray_frame a b s) ht
  | accSetArray a data => exact accessor (accSetArray_frame a data s) ht
  | ptCreate p =>
    obtain ⟨hfresh, -, hpc, rfl⟩ := ptCreate_next ht
    refine { h with savedPc := fun q hq => ?_, uniquePids := ?_ }
    · rcases List.mem_append.mp hq with hq | hq
      · exact h.savedPc q hq
      · exact List.mem_singleton.mp hq ▸ hpc
    · rw [List.map_append, List.map_singleton, ← List.concat_eq_append, List.nodup_concat]
      refine ⟨fun hmem => ?_, h.uniquePids⟩
      obtain ⟨q, hq, hid⟩ := List.mem_map.mp hmem
      exact State.pcb?_eq_none.mp hfresh q hq hid
  | ptSetState n st =>
    obtain ⟨-, -, rfl⟩ := ptSetState_next ht
    exact h.updatePcb n (fun _ => rfl) fun _ => id
  | ptRemove n =>
    obtain ⟨-, rfl⟩ := ptRemove_next ht
    exact { h with
      savedPc := fun q hq => h.savedPc q (List.mem_filter.mp hq).1
      uniquePids := h.uniquePids.sublist (List.filter_sublist.map _) }

/-- Settles O55: the invariant does not speak of the queue, and every transaction on a live machine keeps it. -/
theorem stepKeepsTheInvariant : Obligations.StepKeepsTheInvariant := by
  intro s t h ht
  rcases step_cases s t ht with ⟨hlive, -, -, ht⟩ | ⟨rest, hlive, -, ht⟩
  · exact perform_keeps_inv .tick h hlive.1 ht
  · exact perform_keeps_inv (s := { s with pending := rest }) _ { h with } hlive.1 ht

/-- Settles O54: both invariants on the plain values of the reset state. -/
theorem resetMeetsTheInvariants : Obligations.ResetMeetsTheInvariants :=
  ⟨.of_current nofun, rfl, rfl, nofun, Nat.two_pow_pos 16, nofun, List.nodup_nil, nofun, Nat.zero_le 1⟩

end Sys2Proof.Machine
end

section
/-! What each instruction answers: its equation where nothing faults, its faults, and which fields it may change (41 to 44). -/

namespace Sys2Proof.Machine

/-! ### Where an instruction answers -/

/-- Settles O5: an instruction makes moves of the CPU and at most one fault after them, all of which end in a next state. -/
theorem execAnswersANextStateAlways : Obligations.ExecAnswersANextStateAlways := by
  intro i s
  obtain ⟨t, -, ht, -⟩ := exec_moves i s
  exact ⟨t, ht⟩

/-- Settles O6: the three immediate loads are assignments. -/
theorem immediateLoadMovesTheOperandByte : Obligations.ImmediateLoadMovesTheOperandByte :=
  fun _ _ => ⟨rfl, rfl, rfl⟩

/-- Settles O14: the three effects read off their definitions. -/
theorem nopBrkAndUnknownEffects : Obligations.NopBrkAndUnknownEffects :=
  fun _ s => ⟨exec_nop s, rfl, rfl⟩

/-! ### Loads, stores and arithmetic -/

/-- Settles O7: each load assigns the byte that the read gives. -/
theorem absoluteLoadMovesTheNamedByte : Obligations.AbsoluteLoadMovesTheNamedByte := by
  intro lo hi s h
  refine ⟨?lda, ?ldx, ?ldy⟩
  case lda => rw [exec, execLdaAbs, readAbs_ok lo hi s h, Res.bind_val, Res.answer_val]
  case ldx => rw [exec, execLdxAbs, readAbs_ok lo hi s h, Res.bind_val, Res.answer_val]
  case ldy => rw [exec, execLdyAbs, readAbs_ok lo hi s h, Res.bind_val, Res.answer_val]

/-- Settles O8: STA is one write of Acc. -/
theorem staStoresAccOrDropsTheWrite : Obligations.StaStoresAccOrDropsTheWrite := by
  refine ⟨fun lo hi s v h hs hacc => ?stores, fun lo hi s hb hs => ?drops⟩
  case stores => rw [exec, execStaAbs, hacc, memWrite_inside _ v _ s h hs, Res.answer_val]
  case drops => rw [exec, execStaAbs, memWrite_outside _ _ _ s hb hs, Res.answer_val]

/-- A byte made of a number forgets its multiples of 256. -/
theorem ofNat_mod_256 (n : Nat) : BitVec.ofNat 8 (n % 256) = BitVec.ofNat 8 n := by
  apply BitVec.eq_of_toNat_eq
  simp

/-- Settles O9: INC is one read and one write of the same index. -/
theorem incStoresTheSuccessorOrReportsBothAccesses : Obligations.IncStoresTheSuccessorOrReportsBothAccesses := by
  refine ⟨fun lo hi s m h hm => ?stores, fun lo hi s hb hs => ?reports⟩
  case stores =>
    obtain ⟨hs, -, -⟩ := State.peek_eq_some hm
    rw [exec, execIncAbs, readAbs_some lo hi s m h hm, Res.bind_val, Option.map_some, memWrite_inside _ _ _ s h hs,
      Res.answer_val, incByte, ofNat_mod_256]
  case reports =>
    rw [exec, execIncAbs, readAbs, memRead_outside _ s hb hs, Res.bind_val,
      memWrite_outside _ _ _ (s.emit _) hb hs, Res.answer_val, State.emit, State.emit,
      List.append_assoc]
    rfl

/-- Settles O11: with both operands there ADC assigns their sum. -/
theorem adcAddsModulo256 : Obligations.AdcAddsModulo256 := by
  intro lo hi s a m h ha hm
  simp only [exec, execAdcAbs, readAbs_some lo hi s m h hm, Res.bind_val, ha, Res.answer_val, addByte, ofNat_mod_256]

/-- Settles O12: CPX with both operands there. -/
theorem cpxSetsZToEquality : Obligations.CpxSetsZToEquality := exec_cpxAbs

/-- BNE with Z true does nothing (R210). -/
theorem exec_bneAbs_of_z (lo hi : MaybeByte) (s : State) (hz : s.z = true) : exec (.bneAbs lo hi) s = .next s := by
  rw [exec, execBneAbs, if_pos hz]

/-- BNE with Z false and its offset there is the addition to PC (R210). -/
theorem exec_bneAbs_taken (lo hi : MaybeByte) (s : State) (d : Byte) (hz : s.z = false) (h : s.accessible (addr16 lo hi))
    (hd : s.peek (addr16 lo hi) = some d) : exec (.bneAbs lo hi) s = (advancePc d.toNat s).answer := by
  rw [exec, execBneAbs, if_neg (by simp [hz]), readAbs_some lo hi s d h hd, Res.bind_val]

/-- Settles O13: not taken it is nothing, taken it is the addition to PC. -/
theorem bneAddsTheOffsetWhenZIsFalse : Obligations.BneAddsTheOffsetWhenZIsFalse := by
  refine ⟨exec_bneAbs_of_z, fun lo hi s d hz h hd hp => ?_⟩
  rw [exec_bneAbs_taken lo hi s d hz h hd, advancePc_ok _ s hp, Res.answer_val]

/-! ### SYS -/

/-- Settles O15: X selects the number, or nothing. -/
theorem sysNumberAndSysOfNoMeaning : Obligations.SysNumberAndSysOfNoMeaning := by
  refine ⟨fun s y hx hy => ?number, execSys_other⟩
  case number =>
    rw [exec, execSys_one s hx]
    simp only [sysNumber, hy, Res.answer_val]

/-- SYS with X = 2 when its string is `bytes` and ends: one event after the loop. -/
theorem exec_sys_string {s u : State} {bytes : List Byte} (hx : s.x = some 2)
    (h : sysStringLoop (sysFuel s) [] s = .val bytes u) : exec .sys s = .next (u.emit (.sysString bytes)) := by
  rw [exec, execSys_two s hx, sysString, h, Res.bind_val, Res.answer_val]

/-- SYS with X = 2 when its string faults. -/
theorem exec_sys_raised {s u : State} (hx : s.x = some 2) (h : sysStringLoop (sysFuel s) [] s = .raised u) :
    exec .sys s = .next u := by
  rw [exec, execSys_two s hx, sysString, h, Res.bind_raised, Res.answer_raised]

/-- Settles O16: the loop consumes the non-zero bytes and then meets the zero byte or MEMORY_SIZE. -/
theorem sysStringConsumesTheInlineBytes : Obligations.SysStringConsumesTheInlineBytes := by
  refine ⟨fun s bytes hx hb h hp => ?zero, fun s bytes hx hb h hm hp => ?size⟩
  case zero =>
    obtain ⟨hbytes, hzero, -⟩ := (s.holdsBytes_append _ bytes [0]).mp h
    rw [Nat.add_right_comm] at hzero
    exact exec_sys_string hx ((sysStringLoop_bytes bytes [] s hb hbytes (Nat.lt_of_succ_lt hp)).trans
      (sysStringLoop_zero _ { s with pc := s.pc + bytes.length } hp hzero))
  case size =>
    exact exec_sys_string hx ((sysStringLoop_bytes bytes [] s hb h (Nat.lt_of_succ_lt hp)).trans
      (sysStringLoop_end _ { s with pc := s.pc + bytes.length } hp hm))

/-- A string byte that faults. -/
theorem sysStringLoop_raised (bytes : List Byte) {s u : State} (hp : s.isPc (s.pc + 1))
    (hm : s.pc + 1 < s.config.memorySize) (h : memRead (some (s.pc + 1)) { s with pc := s.pc + 1 } = .raised u) :
    sysStringLoop (sysFuel s) bytes s = .raised u := by
  rw [sysStringLoop_unfold, advancePc_ok 1 s hp, Res.bind_val, if_neg (Nat.not_le.mpr hm), h, Res.bind_raised]

/-- A string byte outside the fence is reported, and the absent byte is UNDEF_USE (R224). -/
theorem sysStringLoop_absent (bytes : List Byte) (s : State) (hp : s.isPc (s.pc + 1))
    (hm : s.pc + 1 < s.config.memorySize) (hb : s.bound = true) (hs : s.inSegment (some (s.pc + 1)) = false) :
    sysStringLoop (sysFuel s) bytes s = .raised (({ s with pc := s.pc + 1 }.emit
      (.outOfRange .read (some (s.pc + 1)))).raise (.undefUse .sys [none])) := by
  have hread := memRead_outside (some (s.pc + 1)) { s with pc := s.pc + 1 } hb hs
  rw [sysStringLoop_unfold, advancePc_ok 1 s hp, Res.bind_val, if_neg (Nat.not_le.mpr hm), hread]
  rfl

/-- The string loop at the top of the range of PC. -/
theorem sysStringLoop_overflow (bytes : List Byte) (s : State) (hp : ¬ s.isPc (s.pc + 1)) :
    sysStringLoop (sysFuel s) bytes s = .raised (s.raise (.pcOverflow s.pc 1)) := by
  rw [sysStringLoop_unfold, advancePc_overflow 1 s hp, Res.bind_raised]

/-- Settles O18: the loop consumes the bytes, and its next turn is the fault. -/
theorem sysStringThatDoesNotEndFaults : Obligations.SysStringThatDoesNotEndFaults := by
  intro s bytes hx hb h hp
  have hbytes := sysStringLoop_bytes bytes [] s hb h hp
  refine ⟨fun hbd hs hm hp1 => ?fence, fun hbd hs hm hsize hp1 => ?memory, fun hbd hm hp1 => ?unbound, fun hp1 => ?top⟩ <;>
    refine exec_sys_raised hx (hbytes.trans ?_)
  case fence => exact sysStringLoop_absent _ { s with pc := s.pc + bytes.length } hp1 hm hbd hs
  case memory =>
    exact sysStringLoop_raised _ (s := { s with pc := s.pc + bytes.length }) hp1 hm
      (memRead_beyond _ { s with pc := s.pc + bytes.length + 1 } hbd hs hsize)
  case unbound =>
    exact sysStringLoop_raised _ (s := { s with pc := s.pc + bytes.length }) hp1 hm
      (memRead_unbound _ { s with pc := s.pc + bytes.length + 1 } hbd)
  case top => exact sysStringLoop_overflow _ { s with pc := s.pc + bytes.length } hp1

/-! ### Absent operands and faulting accesses -/

/-- Settles O17: each use meets the absent value after the events of its read. -/
theorem usingTheAbsentValueIsUndefUse : Obligations.UsingTheAbsentValueIsUndefUse := by
  refine ⟨fun lo hi s h habsent => ?adc, fun lo hi s h habsent => ?cpx, fun lo hi s h hs hacc => ?sta,
    fun lo hi s h hd hz => ?bne, fun s hx => ?sysX, fun s hx hy => ?sysY⟩
  case adc =>
    rw [exec, execAdcAbs, readAbs_ok lo hi s h, Res.bind_val]
    rcases habsent with ha | hm
    · simp only [ha, raise, Res.answer_raised]
    · rw [hm]
      cases s.acc <;> rfl
  case cpx =>
    rw [exec, execCpxAbs, readAbs_ok lo hi s h, Res.bind_val]
    rcases habsent with ha | hm
    · simp only [ha, raise, Res.answer_raised]
    · rw [hm]
      cases s.x <;> rfl
  case sta => rw [exec, execStaAbs, hacc, memWrite_absent _ _ s h hs, Res.answer_raised]
  case bne =>
    rw [exec, execBneAbs, if_neg (by simp [hz]), readAbs_ok lo hi s h, Res.bind_val, hd]
    rfl
  case sysX => simp only [exec, execSys, hx, raise, Res.answer_raised]
  case sysY =>
    rw [exec, execSys_one s hx]
    simp only [sysNumber, hy, raise, Res.answer_raised]

/-- An ABS instruction whose access faults, BNE only when it branches: the fault is its answer. -/
theorem exec_abs_raised {lo hi : MaybeByte} {s u : State} {mk : MaybeByte → MaybeByte → Instr}
    (hmk : mk ∈ [Instr.ldaAbs, Instr.staAbs, Instr.adcAbs, Instr.ldxAbs, Instr.ldyAbs, Instr.cpxAbs, Instr.incAbs] ∨
      (mk = Instr.bneAbs ∧ s.z = false))
    (hread : memRead (addr16 lo hi) s = .raised u)
    (hwrite : ∀ v f, memWrite (addr16 lo hi) v f s = .raised u) : exec (mk lo hi) s = .next u := by
  rcases hmk with hmk | ⟨rfl, hz⟩
  · simp only [List.mem_cons, List.not_mem_nil, or_false] at hmk
    rcases hmk with rfl | rfl | rfl | rfl | rfl | rfl | rfl
    case inr.inl => rw [exec, execStaAbs, hwrite, Res.answer_raised]
    all_goals exact congrArg (fun r => (Res.bind r _).answer) hread
  · rw [exec, execBneAbs, if_neg (by simp [hz]), readAbs, hread, Res.bind_raised, Res.answer_raised]

/-- Settles O19: the read or the write faults before the instruction does anything. -/
theorem instructionAccessesThatFault : Obligations.InstructionAccessesThatFault := by
  refine ⟨fun lo hi s mk hmk => ⟨fun hb => ?unbound, fun hb hs hm => ?beyond⟩, fun lo hi s d hz h hd hp => ?branch⟩
  case unbound => exact exec_abs_raised hmk (memRead_unbound _ s hb) fun v f => memWrite_unbound _ v f s hb
  case beyond => exact exec_abs_raised hmk (memRead_beyond _ s hb hs hm) fun v f => memWrite_beyond _ v f s hb hs hm
  case branch => rw [exec_bneAbs_taken lo hi s d hz h hd, advancePc_overflow _ s hp, Res.answer_raised]

end Sys2Proof.Machine
end

section
/-! What an instruction may change: its own register or cell, OUT and FAULT; and which instructions raise UNDEF_USE (R40 to
R45, R159, R280). -/

namespace Sys2Proof.Machine

/-! ### The fields an instruction may write -/

/-- The state after an instruction: the fields its meaning names, OUT and FAULT may differ, and nothing else does. -/
def ChangesOnly (i : Instr) (s t : State) : Prop :=
  ∃ out faults, match i with
    | .ldaImm _ | .ldaAbs _ _ | .adcAbs _ _ => ∃ v, t = { s with acc := v, out := out, faults := faults }
    | .ldxImm _ | .ldxAbs _ _ => ∃ v, t = { s with x := v, out := out, faults := faults }
    | .ldyImm _ | .ldyAbs _ _ => ∃ v, t = { s with y := v, out := out, faults := faults }
    | .cpxAbs _ _ => ∃ v, t = { s with z := v, out := out, faults := faults }
    | .staAbs _ _ | .incAbs _ _ => ∃ mem, t = { s with mem := mem, out := out, faults := faults }
    | .bneAbs _ _ | .sys => ∃ pc, t = { s with pc := pc, out := out, faults := faults }
    | .brk | .unknown _ => t = { s with isExecuting := false, out := out, faults := faults }
    | .nop => t = s

/-- A read adds events, or faults. -/
theorem memRead_adds_events (i : Index) (s : State) :
    (∃ f, memRead i s = .raised (s.raise f)) ∨ ∃ v out, memRead i s = .val v { s with out := out } := by
  rcases memRead_cases i s with ⟨-, h⟩ | ⟨-, -, h⟩ | ⟨-, -, -, h⟩ | ⟨-, -, h⟩
  · exact .inl ⟨_, h⟩
  · exact .inl ⟨_, h⟩
  · exact .inr ⟨_, _, h⟩
  · exact .inr ⟨_, _, h⟩

/-- A write changes memory, or adds an event, or faults. -/
theorem memWrite_changes (i : Index) (v : MaybeByte) (f : ModelFault) (s : State) :
    ∃ mem out faults, (memWrite i v f s).state = { s with mem := mem, out := out, faults := faults } := by
  rcases memWrite_cases i v f s with ⟨-, h⟩ | ⟨-, -, h⟩ | ⟨-, -, h⟩ | ⟨b, -, -, -, -, h⟩ | ⟨-, -, h⟩ <;> rw [h]
  · exact ⟨_, _, _, rfl⟩
  · exact ⟨_, _, _, rfl⟩
  · exact ⟨_, _, _, rfl⟩
  · exact ⟨_, _, _, rfl⟩
  · exact ⟨_, _, _, rfl⟩

/-- PC, OUT and FAULT are all that differs. -/
def StreamsTo (s t : State) : Prop := ∃ pc out faults, t = { s with pc := pc, out := out, faults := faults }

theorem StreamsTo.trans {s t u : State} (h : StreamsTo s t) (k : StreamsTo t u) : StreamsTo s u := by
  obtain ⟨_, _, _, rfl⟩ := h
  obtain ⟨pc, out, faults, rfl⟩ := k
  exact ⟨pc, out, faults, rfl⟩

theorem StreamsTo.bind {α β : Type} {s : State} {r : Res α} {f : α → State → Res β} (h : StreamsTo s r.state)
    (hf : ∀ a t, StreamsTo t (f a t).state) : StreamsTo s (r.bind f).state := by
  cases r with
  | val a t => exact h.trans (hf a t)
  | raised t => exact h

theorem advancePc_streamsTo (d : Nat) (s : State) : StreamsTo s (advancePc d s).state := by
  rcases advancePc_cases d s with ⟨-, h⟩ | ⟨-, h⟩ <;> rw [h]
  · exact ⟨_, s.out, s.faults, rfl⟩
  · exact ⟨s.pc, s.out, _, rfl⟩

theorem memRead_streamsTo (i : Index) (s : State) : StreamsTo s (memRead i s).state := by
  rcases memRead_adds_events i s with ⟨f, h⟩ | ⟨v, out, h⟩ <;> rw [h]
  · exact ⟨s.pc, s.out, _, rfl⟩
  · exact ⟨s.pc, out, s.faults, rfl⟩

theorem sysStringLoop_streamsTo (n : Nat) (bytes : List Byte) (s : State) :
    StreamsTo s (sysStringLoop n bytes s).state := by
  induction n generalizing bytes s with
  | zero => exact ⟨s.pc, s.out, s.faults, rfl⟩
  | succ n ih =>
    refine (advancePc_streamsTo 1 s).bind fun _ t => ?_
    split
    · exact ⟨t.pc, t.out, t.faults, rfl⟩
    · refine (memRead_streamsTo _ t).bind fun b u => ?_
      split
      · exact ⟨u.pc, u.out, _, rfl⟩
      · split
        · exact ⟨u.pc, u.out, u.faults, rfl⟩
        · exact ih _ u

theorem execSys_streamsTo {s t : State} (h : execSys s = .next t) : StreamsTo s t := by
  rw [← Res.answer_next _ t h]
  split
  · exact ⟨s.pc, s.out, _, rfl⟩
  · split
    · rw [sysNumber]
      split
      · exact ⟨s.pc, _, s.faults, rfl⟩
      · exact ⟨s.pc, s.out, _, rfl⟩
    · split
      · exact (sysStringLoop_streamsTo _ _ s).bind fun bytes u => ⟨u.pc, _, u.faults, rfl⟩
      · exact ⟨s.pc, s.out, s.faults, rfl⟩

/-- No instruction changes a field that its meaning does not name. -/
theorem exec_changesOnly {i : Instr} {s t : State} (h : exec i s = .next t) : ChangesOnly i s t := by
  have load {lo hi : MaybeByte} {f : MaybeByte → State → Res Unit} {P : State → Prop}
      (h : ((readAbs lo hi s).bind f).answer = .next t) (hraise : ∀ g, P (s.raise g))
      (hval : ∀ m out, P (f m { s with out := out }).state) : P t := by
    rw [← Res.answer_next _ t h]
    rcases memRead_adds_events (addr16 lo hi) s with ⟨g, hr⟩ | ⟨m, out, hr⟩ <;> rw [readAbs, hr]
    · exact hraise g
    · exact hval m out
  cases i with
  | ldaImm v | ldxImm v | ldyImm v => exact ⟨s.out, s.faults, v, (Host.Outcome.next.inj h).symm⟩
  | ldaAbs lo hi => exact load h (fun g => ⟨s.out, _, s.acc, rfl⟩) fun m out => ⟨out, s.faults, m, rfl⟩
  | ldxAbs lo hi => exact load h (fun g => ⟨s.out, _, s.x, rfl⟩) fun m out => ⟨out, s.faults, m, rfl⟩
  | ldyAbs lo hi => exact load h (fun g => ⟨s.out, _, s.y, rfl⟩) fun m out => ⟨out, s.faults, m, rfl⟩
  | adcAbs lo hi =>
    refine load h (fun g => ⟨s.out, _, s.acc, rfl⟩) fun m out => ?_
    split
    · exact ⟨out, s.faults, _, rfl⟩
    · exact ⟨out, _, s.acc, rfl⟩
  | cpxAbs lo hi =>
    refine load h (fun g => ⟨s.out, _, s.z, rfl⟩) fun m out => ?_
    split
    · exact ⟨out, s.faults, _, rfl⟩
    · exact ⟨out, _, s.z, rfl⟩
  | staAbs lo hi =>
    obtain ⟨mem, out, faults, hw⟩ := memWrite_changes (addr16 lo hi) s.acc (.undefUse (.staAbs lo hi) [s.acc]) s
    exact ⟨out, faults, mem, (Res.answer_next _ t h).symm.trans hw⟩
  | incAbs lo hi =>
    refine load h (fun g => ⟨s.out, _, s.mem, rfl⟩) fun m out => ?_
    obtain ⟨mem, out, faults, hw⟩ :=
      memWrite_changes (addr16 lo hi) (m.map incByte) (.undefUse (.incAbs lo hi) [m]) { s with out := out }
    exact ⟨out, faults, mem, hw⟩
  | nop => exact ⟨s.out, s.faults, (Host.Outcome.next.inj h).symm⟩
  | brk | unknown v => exact ⟨_, s.faults, (Host.Outcome.next.inj h).symm⟩
  | bneAbs lo hi =>
    cases hz : s.z with
    | true =>
      obtain rfl : s = t := by simpa [exec_bneAbs_of_z lo hi s hz] using h
      exact ⟨s.out, s.faults, s.pc, rfl⟩
    | false =>
      rw [exec, execBneAbs, if_neg (by simp [hz])] at h
      refine load h (fun g => ⟨s.out, _, s.pc, rfl⟩) fun m out => ?_
      split
      · obtain ⟨pc, out', faults, ht⟩ := advancePc_streamsTo _ { s with out := out }
        exact ⟨out', faults, pc, ht⟩
      · exact ⟨out, _, s.pc, rfl⟩
  | sys =>
    obtain ⟨pc, out, faults, ht⟩ := execSys_streamsTo h
    exact ⟨out, faults, pc, ht⟩

/-- Settles O21: the table, PID, the window, TRAPPED and the model's own fields are in no instruction's list. -/
theorem instructionsLeaveTheControlStateAlone : Obligations.InstructionsLeaveTheControlStateAlone := by
  intro i s t h
  have hc := exec_changesOnly h
  cases i <;> obtain ⟨out, faults, hc⟩ := hc
  case nop => obtain rfl := hc; exact ⟨rfl, rfl, rfl, rfl, rfl, rfl, rfl, rfl, rfl, rfl⟩
  case brk | unknown => obtain rfl := hc; exact ⟨rfl, rfl, rfl, rfl, rfl, rfl, rfl, rfl, rfl, rfl⟩
  all_goals
    obtain ⟨v, rfl⟩ := hc
    exact ⟨rfl, rfl, rfl, rfl, rfl, rfl, rfl, rfl, rfl, rfl⟩

/-- Settles O22: a register that differs is in the instruction's list, and only a store's list has memory. -/
theorem eachRegisterAndCellHasItsOwnWriters : Obligations.EachRegisterAndCellHasItsOwnWriters := by
  intro i s t h
  have hc := exec_changesOnly h
  cases i with
  | nop =>
    obtain ⟨-, -, rfl⟩ := hc
    simp
  | brk | unknown ir =>
    obtain ⟨out, faults, rfl⟩ := hc
    simp [State.cell]
  | _ =>
    obtain ⟨out, faults, v, rfl⟩ := hc
    simp [State.cell]

/-- A write leaves every cell but the one at its address, when it passes the fence. -/
theorem memWrite_cell {i : Index} {v : MaybeByte} {f : ModelFault} {s : State} {a : Nat}
    (ha : s.inSegment i = true → a ≠ s.address i) : (memWrite i v f s).state.cell a = s.cell a := by
  rcases memWrite_cases i v f s with ⟨-, h⟩ | ⟨-, -, h⟩ | ⟨-, -, h⟩ | ⟨b, -, hi, -, -, h⟩ | ⟨-, -, h⟩ <;> rw [h]
  · rfl
  · rfl
  · rfl
  · exact State.cell_setCell_other _ _ _ _ (ha hi)
  · rfl

/-- Settles O10: both stores change memory, OUT and FAULT only, and of memory the cell of their write. -/
theorem storesChangeOnlyTheAddressedCell : Obligations.StoresChangeOnlyTheAddressedCell := by
  intro lo hi s t h
  have frame : ∃ mem out faults, t = { s with mem := mem, out := out, faults := faults } := by
    rcases h with h | h <;> obtain ⟨out, faults, mem, ht⟩ := exec_changesOnly h <;> exact ⟨mem, out, faults, ht⟩
  refine ⟨fun a ha => ?cells, ?registers⟩
  case registers =>
    obtain ⟨mem, out, faults, rfl⟩ := frame
    exact ⟨rfl, rfl, rfl, rfl, rfl, rfl, rfl, rfl, rfl, rfl, rfl, rfl⟩
  case cells =>
    rcases h with h | h
    · rw [← Res.answer_next _ t h]
      exact memWrite_cell ha
    · rw [← Res.answer_next _ t h, readAbs]
      rcases memRead_adds_events (addr16 lo hi) s with ⟨g, hr⟩ | ⟨m, out, hr⟩ <;> rw [hr]
      · rfl
      · exact memWrite_cell (s := { s with out := out }) ha

/-! ### Who raises UNDEF_USE -/

/-- The instructions that compute with a value they read (R280). -/
def UsesValues (i : Instr) : Prop :=
  (∃ lo hi, i = .adcAbs lo hi) ∨ (∃ lo hi, i = .cpxAbs lo hi) ∨ (∃ lo hi, i = .staAbs lo hi) ∨
    (∃ lo hi, i = .bneAbs lo hi) ∨ i = .sys

/-- An UNDEF_USE fault is this instruction's own, and the instruction is one that uses values. -/
def UndefUseIsOf (i : Instr) (f : ModelFault) : Prop :=
  ∀ j values, f = .undefUse j values → j = i ∧ UsesValues i

/-- From a machine with no fault: the operation goes on with none, or ends with one that is not another's UNDEF_USE. -/
def Res.FaultsAs {α : Type} (i : Instr) (r : Res α) : Prop :=
  (∃ a u, r = .val a u ∧ u.faults = []) ∨
    ∃ (u : State) (f : ModelFault), r = .raised (u.raise f) ∧ u.faults = [] ∧ UndefUseIsOf i f

theorem Res.FaultsAs.bind {α β : Type} {i : Instr} {r : Res α} {f : α → State → Res β} (h : r.FaultsAs i)
    (hf : ∀ a u, u.faults = [] → (f a u).FaultsAs i) : (r.bind f).FaultsAs i := by
  rcases h with ⟨a, u, rfl, hu⟩ | ⟨u, g, rfl, hu, hg⟩
  · exact hf a u hu
  · exact .inr ⟨u, g, rfl, hu, hg⟩

theorem Res.FaultsAs.val {α : Type} {i : Instr} {a : α} {s : State} (hf : s.faults = []) : (Res.val a s).FaultsAs i :=
  .inl ⟨a, s, rfl, hf⟩

theorem Res.FaultsAs.raise {α : Type} {i : Instr} {s : State} (hf : s.faults = []) {f : ModelFault}
    (h : UndefUseIsOf i f) : (Machine.raise f s : Res α).FaultsAs i := .inr ⟨s, f, rfl, hf, h⟩

theorem Res.FaultsAs.answer {α : Type} {i : Instr} {r : Res α} (h : r.FaultsAs i) {t : State} (ht : r.answer = .next t)
    {j : Instr} {values : List MaybeByte} (hj : ModelFault.undefUse j values ∈ t.faults) : j = i ∧ UsesValues i := by
  rw [← Res.answer_next r t ht] at hj
  rcases h with ⟨a, u, rfl, hu⟩ | ⟨u, f, rfl, hu, hf⟩
  · simp [Res.state, hu] at hj
  · have : ModelFault.undefUse j values = f := by simpa [Res.state, hu] using hj
    exact hf j values this.symm

theorem undefUseIsOf_self {i : Instr} (h : UsesValues i) (values : List MaybeByte) :
    UndefUseIsOf i (.undefUse i values) := by
  rintro j values' ⟨⟩
  exact ⟨rfl, h⟩

theorem advancePc_faultsAs (i : Instr) (d : Nat) {s : State} (hf : s.faults = []) : (advancePc d s).FaultsAs i := by
  rcases advancePc_cases d s with ⟨-, h⟩ | ⟨-, h⟩ <;> rw [h]
  · exact .val hf
  · exact .raise hf nofun

theorem memRead_faultsAs (i : Instr) (k : Index) {s : State} (hf : s.faults = []) : (memRead k s).FaultsAs i := by
  rcases memRead_cases k s with ⟨-, h⟩ | ⟨-, -, h⟩ | ⟨-, -, -, h⟩ | ⟨-, -, h⟩ <;> rw [h]
  · exact .raise hf nofun
  · exact .raise hf nofun
  · exact .val hf
  · exact .val hf

/-- A write raises its own fault only of an absent value inside the fence. -/
theorem memWrite_faultsAs {i : Instr} {k : Index} {v : MaybeByte} {f : ModelFault} {s : State} (hf : s.faults = [])
    (h : s.inSegment k = true → v = none → UndefUseIsOf i f) : (memWrite k v f s).FaultsAs i := by
  rcases memWrite_cases k v f s with ⟨-, hw⟩ | ⟨-, -, hw⟩ | ⟨hi, hv, hw⟩ | ⟨b, -, -, -, -, hw⟩ | ⟨-, -, hw⟩ <;> rw [hw]
  · exact .raise hf nofun
  · exact .raise hf nofun
  · exact .raise hf (h hi hv)
  · exact .val hf
  · exact .val hf

theorem sysStringLoop_faultsAs (n : Nat) (bytes : List Byte) {s : State} (hf : s.faults = []) :
    (sysStringLoop n bytes s).FaultsAs .sys := by
  induction n generalizing bytes s with
  | zero => exact .val hf
  | succ n ih =>
    refine (advancePc_faultsAs _ 1 hf).bind fun _ t ht => ?_
    split
    · exact .val ht
    · refine (memRead_faultsAs _ _ ht).bind fun b u hu => ?_
      split
      · exact .raise hu (undefUseIsOf_self (by simp [UsesValues]) _)
      · split
        · exact .val hu
        · exact ih _ hu

/-- Settles O20: each instruction's operations, and what each of them can raise. -/
theorem onlyUsesOfValuesRaiseUndefUse : Obligations.OnlyUsesOfValuesRaiseUndefUse := by
  intro i j values s t hf h hj
  have fetched (lo hi : MaybeByte) : (readAbs lo hi s).FaultsAs i := memRead_faultsAs i _ hf
  have quiet {u : State} (hut : exec i s = .next u) (hu : u.faults = []) : j = i ∧ UsesValues i := by
    obtain rfl : u = t := by simpa [hut] using h
    simp [hu] at hj
  show j = i ∧ UsesValues i
  cases i with
  | ldaImm v | ldxImm v | ldyImm v | nop | brk | unknown v => exact quiet rfl hf
  | ldaAbs lo hi | ldxAbs lo hi | ldyAbs lo hi =>
    refine ((fetched lo hi).bind fun m u hu => ?_).answer h hj
    exact .val hu
  | staAbs lo hi =>
    exact (memWrite_faultsAs hf fun _ _ => undefUseIsOf_self (by simp [UsesValues]) _).answer h hj
  | adcAbs lo hi =>
    refine ((fetched lo hi).bind fun m u hu => ?_).answer h hj
    split
    · exact .val hu
    · exact .raise hu (undefUseIsOf_self (by simp [UsesValues]) _)
  | cpxAbs lo hi =>
    refine ((fetched lo hi).bind fun m u hu => ?_).answer h hj
    split
    · exact .val hu
    · exact .raise hu (undefUseIsOf_self (by simp [UsesValues]) _)
  | incAbs lo hi =>
    refine Res.FaultsAs.answer (?_ : Res.FaultsAs _ ((readAbs lo hi s).bind _)) h hj
    rcases memRead_cases (addr16 lo hi) s with ⟨-, hr⟩ | ⟨-, -, hr⟩ | ⟨-, -, -, hr⟩ | ⟨-, hout, hr⟩ <;> rw [readAbs, hr]
    · exact .raise hf nofun
    · exact .raise hf nofun
    · rw [Res.bind_val]
      exact memWrite_faultsAs hf fun _ => nofun
    · rw [Res.bind_val]
      exact memWrite_faultsAs (s := s.emit _) hf fun hin => absurd (hin.symm.trans hout) nofun
  | bneAbs lo hi =>
    cases hz : s.z with
    | true => exact quiet (exec_bneAbs_of_z lo hi s hz) hf
    | false =>
      rw [exec, execBneAbs, if_neg (by simp [hz])] at h
      refine ((fetched lo hi).bind fun m u hu => ?_).answer h hj
      split
      · exact advancePc_faultsAs _ _ hu
      · exact .raise hu (undefUseIsOf_self (by simp [UsesValues]) _)
  | sys =>
    refine Res.FaultsAs.answer (i := .sys) ?_ h hj
    have used : UsesValues .sys := by simp [UsesValues]
    split
    · exact .raise hf (undefUseIsOf_self used _)
    · split
      · rw [sysNumber]
        split
        · exact .val hf
        · exact .raise hf (undefUseIsOf_self used _)
      · split
        · exact (sysStringLoop_faultsAs _ _ hf).bind fun _ u hu => .val hu
        · exact .val hf

end Sys2Proof.Machine
end

section
/-! The TICK: fetch, decode, operands, the instruction, the end of the cycle (40_cycle.md), and what follows over several. -/

namespace Sys2Proof.Machine

/-! ### The end of the cycle -/

/-- Settles O26: the three branches of the end of the cycle. -/
theorem endOfCycleIncrementsPc : Obligations.EndOfCycleIncrementsPc :=
  fun s => ⟨endCycle_ok s, endCycle_overflow s, endCycle_faulted s⟩

/-! ### Fetching an encoded instruction -/

theorem encodeImm_eq_some {op o : Byte} {v : MaybeByte} {os : List Byte} (h : encodeImm op v = some (o :: os)) :
    ∃ b, v = some b ∧ o = op ∧ os = [b] := by
  cases v with
  | none => simp [encodeImm] at h
  | some b => exact ⟨b, rfl, by simpa [encodeImm, eq_comm] using h⟩

theorem encodeAbs_eq_some {op o : Byte} {lo hi : MaybeByte} {os : List Byte} (h : encodeAbs op lo hi = some (o :: os)) :
    ∃ l k, lo = some l ∧ hi = some k ∧ o = op ∧ os = [l, k] := by
  match lo, hi with
  | none, _ => simp [encodeAbs] at h
  | some _, none => simp [encodeAbs] at h
  | some l, some k => exact ⟨l, k, rfl, rfl, by simpa [encodeAbs, eq_comm] using h⟩

/-- The bytes of an instruction are its opcode and what the opcode's row asks for. -/
theorem encode_eq_some {i : Instr} {op : Byte} {os : List Byte} (h : encode i = some (op :: os)) :
    (decodeOpcode (some op) = .none i ∧ os = []) ∨
    (∃ mk v, decodeOpcode (some op) = .one mk ∧ i = mk (some v) ∧ os = [v]) ∨
    ∃ mk lo hi, decodeOpcode (some op) = .two mk ∧ i = mk (some lo) (some hi) ∧ os = [lo, hi] := by
  have one {o : Byte} {mk : MaybeByte → Instr} (hd : decodeOpcode (some o) = .one mk) {v : MaybeByte}
      (h : encodeImm o v = some (op :: os)) :
      ∃ mk' w, decodeOpcode (some op) = .one mk' ∧ mk v = mk' (some w) ∧ os = [w] := by
    obtain ⟨b, rfl, rfl, rfl⟩ := encodeImm_eq_some h
    exact ⟨mk, b, hd, rfl, rfl⟩
  have two {o : Byte} {mk : MaybeByte → MaybeByte → Instr} (hd : decodeOpcode (some o) = .two mk) {lo hi : MaybeByte}
      (h : encodeAbs o lo hi = some (op :: os)) :
      ∃ mk' l k, decodeOpcode (some op) = .two mk' ∧ mk lo hi = mk' (some l) (some k) ∧ os = [l, k] := by
    obtain ⟨l, k, rfl, rfl, rfl, rfl⟩ := encodeAbs_eq_some h
    exact ⟨mk, l, k, hd, rfl, rfl⟩
  cases i with
  | ldaImm v => exact .inr (.inl (one decodeOpcode_A9 h))
  | ldxImm v => exact .inr (.inl (one decodeOpcode_A2 h))
  | ldyImm v => exact .inr (.inl (one decodeOpcode_A0 h))
  | ldaAbs lo hi => exact .inr (.inr (two decodeOpcode_AD h))
  | staAbs lo hi => exact .inr (.inr (two decodeOpcode_8D h))
  | adcAbs lo hi => exact .inr (.inr (two decodeOpcode_6D h))
  | ldxAbs lo hi => exact .inr (.inr (two decodeOpcode_AE h))
  | ldyAbs lo hi => exact .inr (.inr (two decodeOpcode_AC h))
  | cpxAbs lo hi => exact .inr (.inr (two decodeOpcode_EC h))
  | bneAbs lo hi => exact .inr (.inr (two decodeOpcode_D0 h))
  | incAbs lo hi => exact .inr (.inr (two decodeOpcode_EE h))
  | nop | brk | sys =>
    obtain ⟨rfl, rfl⟩ := by simpa [encode] using h
    exact .inl ⟨rfl, rfl⟩
  | unknown ir =>
    cases ir with
    | none => simp [encode] at h
    | some b =>
      rw [encode] at h
      split at h
      · rename_i hb
        obtain ⟨rfl, rfl⟩ := by simpa using h
        exact .inl ⟨decodeOpcode_illegal b hb, rfl⟩
      · simp at h

/-- Where the bytes of an instruction lie at PC, the fetch reads the instruction, with IR its opcode and PC at its last
byte. -/
theorem fetchInstr_encoded {s : State} {i : Instr} {op : Byte} {os : List Byte} (he : encode i = some (op :: os))
    (hb : s.holdsBytes s.pc (op :: os)) (hp : s.isPc (s.pc + os.length)) :
    fetchInstr s = .val i { s with ir := some op, pc := s.pc + os.length } := by
  obtain ⟨hop, hos⟩ := hb
  rw [fetchInstr, fetch_holds s op hop, Res.bind_val]
  rcases encode_eq_some he with ⟨hd, rfl⟩ | ⟨mk, v, hd, rfl, rfl⟩ | ⟨mk, lo, hi, hd, rfl, rfl⟩ <;> rw [hd]
  · rfl
  · obtain ⟨hv, -⟩ := hos
    rw [fetchOperands, next8_holds { s with ir := some op } v hp hv, Res.bind_val]
    rfl
  · obtain ⟨hlo, hhi, -⟩ := hos
    rw [fetchOperands, next8_holds { s with ir := some op } lo (Nat.lt_of_succ_lt hp) hlo, Res.bind_val,
      next8_holds { s with ir := some op, pc := s.pc + 1 } hi hp hhi, Res.bind_val]
    rfl

/-- Settles O23: an empty queue or a queued TICK both run `tick`, and the fetch of the encoded bytes is the instruction. -/
theorem stepRunsTheDecodedInstruction : Obligations.StepRunsTheDecodedInstruction := by
  refine ⟨fun s i op os hs he hb hp => ?alone, fun s rest hlive hpending => ?queued⟩
  case alone =>
    obtain ⟨hlive, hpending, hexec⟩ := hs
    rw [step_tick s hlive hpending, tick_run s _ i hexec (fetchInstr_encoded he hb hp)]
  case queued =>
    have hstep : step s = tick { s with pending := rest } := step_command s .tick rest hlive hpending
    refine ⟨hstep, fun i op os hexec he hb hp => ?_⟩
    have hb' : { s with pending := rest }.holdsBytes s.pc (op :: os) :=
      (State.holdsBytes_congr (s := s) (t := { s with pending := rest }) rfl rfl rfl rfl rfl rfl _ _).mpr hb
    rw [hstep, tick_run { s with pending := rest } _ i hexec (fetchInstr_encoded he hb' hp)]

/-- Settles O24: the TICKs of formats IMM and ABS. -/
theorem stepRunsAnInstructionWithAbsentOperands : Obligations.StepRunsAnInstructionWithAbsentOperands :=
  ⟨fun _ _ _ h hd => step_oneOperand h hd, fun _ _ _ h hd => step_twoOperands h hd⟩

/-! ### Fetches that fault -/

theorem step_of_fetchInstr_raised {s u : State} (hs : s.ticking) (h : fetchInstr s = .raised u) : step s = .next u := by
  obtain ⟨hlive, hpending, hexec⟩ := hs
  rw [step_tick s hlive hpending, tick_raised s u hexec h]

/-- A fault in the fetch of the opcode. -/
theorem fetchInstr_raised {s u : State} (h : memRead (some s.pc) s = .raised u) : fetchInstr s = .raised u := by
  rw [fetchInstr, fetch, h, Res.bind_raised, Res.bind_raised]

/-- A fault in the read of a stream byte, PC already at it. -/
theorem next8_raised {s u : State} (hp : s.isPc (s.pc + 1))
    (h : memRead (some (s.pc + 1)) { s with pc := s.pc + 1 } = .raised u) : next8 s = .raised u := by
  rw [next8, advancePc_ok 1 s hp, Res.bind_val, h]

/-- A stream byte whose index PC cannot hold. -/
theorem next8_overflow {s : State} (hp : ¬ s.isPc (s.pc + 1)) : next8 s = .raised (s.raise (.pcOverflow s.pc 1)) := by
  rw [next8, advancePc_overflow 1 s hp, Res.bind_raised]

/-- A fault at the first operand byte, of either format. -/
theorem fetchInstr_operand_raised {s u : State} {b : Byte} (hb : s.holds s.pc b)
    (hd : ∀ i, decodeOpcode (some b) ≠ .none i) (h : next8 { s with ir := some b } = .raised u) :
    fetchInstr s = .raised u := by
  rw [fetchInstr, fetch_holds s b hb, Res.bind_val]
  cases hshape : decodeOpcode (some b) with
  | none i => exact absurd hshape (hd i)
  | one mk => rw [fetchOperands, h, Res.bind_raised]
  | two mk => rw [fetchOperands, h, Res.bind_raised]

/-- A fault at the second operand byte. -/
theorem fetchInstr_high_raised {s u : State} {b : Byte} {mk : MaybeByte → MaybeByte → Instr} (hb : s.holds s.pc b)
    (hd : decodeOpcode (some b) = .two mk) (h1 : s.accessible (some (s.pc + 1))) (hp : s.isPc (s.pc + 1))
    (h : next8 { s with ir := some b, pc := s.pc + 1, out := s.out ++ s.readEvents (some (s.pc + 1)) } = .raised u) :
    fetchInstr s = .raised u := by
  rw [fetchInstr, fetch_holds s b hb, Res.bind_val, hd, fetchOperands, next8_ok { s with ir := some b } hp h1, Res.bind_val]
  exact congrArg (Res.bind · _) h

/-- Settles O25: the stage of the fetch that faults ends the TICK. -/
theorem fetchesThatFault : Obligations.FetchesThatFault := by
  refine ⟨fun s hs hb => step_of_fetchInstr_raised hs (fetchInstr_raised (memRead_unbound _ s hb)),
    fun s hs hb hi hm => step_of_fetchInstr_raised hs (fetchInstr_raised (memRead_beyond _ s hb hi hm)),
    fun s b hs hop hd => ⟨fun hp hi hm => step_of_fetchInstr_raised hs (fetchInstr_operand_raised hop hd ?beyond),
      fun hp => step_of_fetchInstr_raised hs (fetchInstr_operand_raised hop hd ?top)⟩,
    fun s b mk hs hop hd h1 hp1 => ⟨fun hp hi hm => step_of_fetchInstr_raised hs
        (fetchInstr_high_raised hop hd h1 hp1 ?beyondHigh),
      fun hp => step_of_fetchInstr_raised hs (fetchInstr_high_raised hop hd h1 hp1 ?topHigh)⟩⟩
  case beyond =>
    have ⟨⟨hbound, _⟩, _⟩ := hop
    exact next8_raised hp (memRead_beyond _ { s with ir := some b, pc := s.pc + 1 } hbound hi hm)
  case top => exact next8_overflow hp
  case beyondHigh =>
    have ⟨⟨hbound, _⟩, _⟩ := hop
    exact next8_raised hp (memRead_beyond (some (s.pc + 2))
      { s with ir := some b, pc := s.pc + 2, out := s.out ++ s.readEvents (some (s.pc + 1)) } hbound hi hm)
  case topHigh => exact next8_overflow hp

/-! ### Whole TICKs -/

/-- Settles O29: BRK halts, the end of the cycle increments PC, and a TICK of a halted CPU does nothing. -/
theorem brkTickHaltsForGood : Obligations.BrkTickHaltsForGood := by
  intro s hs hb hp
  have ⟨⟨hunfaulted, _⟩, _⟩ := hs
  refine ⟨?halts, ?idles⟩
  case halts =>
    rw [step_noOperand hs hb decodeOpcode_00]
    exact endCycle_ok (State.halt { s with ir := some 0x00 }) hunfaulted hp
  case idles =>
    exact (step_tick { s with ir := some 0x00, pc := s.pc + 1, isExecuting := false } hs.1 hs.2.1).trans
      (tick_halted _ rfl)

/-- The TICK of a fetch outside the fence: the absent IR selects the unknown-instruction handler (R130, D7). -/
theorem step_fetch_outside (s : State) (hs : s.ticking) (hb : s.bound = true) (hi : s.inSegment (some s.pc) = false) :
    step s = endCycle ((({ s with ir := none }.emit (.outOfRange .read (some s.pc))).emit
      (.unknownInstruction none)).halt) := by
  obtain ⟨hlive, hpending, hexec⟩ := hs
  have hfetch : fetchInstr s = .val (.unknown none) ({ s with ir := none }.emit (.outOfRange .read (some s.pc))) := by
    rw [fetchInstr, fetch_outside s hb hi, Res.bind_val, decodeOpcode_absent, fetchOperands_none]
  rw [step_tick s hlive hpending, tick_run s _ _ hexec hfetch, exec, execUnknown, endTick_next]

/-- Settles O31: both handlers are followed by the increment. -/
theorem unknownOpcodeTick : Obligations.UnknownOpcodeTick := by
  refine ⟨fun s b hs hb hill hp => ?illegal, fun s hs hb hi hp => ?outside⟩
  case illegal =>
    have ⟨⟨hunfaulted, _⟩, _⟩ := hs
    rw [step_illegalOpcode s b hs hb hill]
    exact endCycle_ok (({ s with ir := some b }.emit _).halt) hunfaulted hp
  case outside =>
    have ⟨⟨hunfaulted, _⟩, _⟩ := hs
    rw [step_fetch_outside s hs hb hi]
    refine Eq.trans (endCycle_ok _ ?_ ?_) ?_
    · exact hunfaulted
    · exact hp
    simp only [State.halt, State.emit, List.append_assoc]
    rfl

/-- Settles O32: the operands are consumed, then the branch, then the increment. -/
theorem bneTick : Obligations.BneTick := by
  intro s h
  have ⟨⟨⟨hunfaulted, _⟩, _⟩, _, _, _, hp3⟩ := h
  refine ⟨fun hz => ?falls, fun d hz hacc hd hp => ?branches⟩ <;> rw [step_twoOperands h decodeOpcode_D0]
  case falls =>
    rw [exec_bneAbs_of_z _ _ { s with ir := some 0xD0, pc := s.pc + 2, out := s.out ++ s.operandEvents } hz, endTick_next]
    exact endCycle_ok { s with ir := some 0xD0, pc := s.pc + 2, out := s.out ++ s.operandEvents } hunfaulted hp3
  case branches =>
    have hsum : s.pc + 2 + d.toNat + 1 = s.pc + 3 + d.toNat := by omega
    have hp' : s.isPc (s.pc + 2 + d.toNat + 1) := hsum ▸ hp
    rw [exec_bneAbs_taken _ _ { s with ir := some 0xD0, pc := s.pc + 2, out := s.out ++ s.operandEvents } d hz hacc hd,
      advancePc_ok _ _ (Nat.lt_of_succ_lt hp'), Res.answer_val, endTick_next,
      endCycle_ok { s with
        ir := some 0xD0, pc := s.pc + 2 + d.toNat, out := s.out ++ s.operandEvents } hunfaulted hp', hsum]

/-! ### Stores and the code after them -/

/-- A byte of the window that is not the one stored to. -/
theorem State.holds_setCell_other {s : State} {i ea : Nat} {b : Byte} (h : s.holds i b) (v : Byte) (hne : i ≠ ea) :
    (s.setCell (s.base + ea) v).holds i b := by
  obtain ⟨hacc, hin, hcell⟩ := h
  exact ⟨hacc, hin, (State.cell_setCell_other _ _ _ _ (by simpa using hne)).trans hcell⟩

theorem State.holds_setCell_same {s : State} {ea : Nat} (hacc : s.accessible (some ea))
    (hin : s.inSegment (some ea) = true) (v : Byte) : (s.setCell (s.base + ea) v).holds ea v :=
  ⟨hacc, hin, State.cell_setCell_same _ _ _⟩

/-- The TICK of an STA whose index is in the window. -/
theorem step_staAbs {s : State} {v : Byte} {ea : Nat} (h : s.nextAbs 0x8D) (hv : s.acc = some v)
    (hea : s.operandIndex = some ea) (hacc : s.accessible (some ea)) (hin : s.inSegment (some ea) = true) :
    step s = .next ({ s with ir := some 0x8D, pc := s.pc + 3, out := s.out ++ s.operandEvents }.setCell (s.base + ea) v) := by
  have ⟨⟨⟨hunfaulted, _⟩, _⟩, _, _, _, hp⟩ := h
  have hindex : addr16 (s.peek (some (s.pc + 1))) (s.peek (some (s.pc + 2))) = some ea := hea
  have hstore := staStoresAccOrDropsTheWrite.1 (s.peek (some (s.pc + 1))) (s.peek (some (s.pc + 2)))
    { s with ir := some 0x8D, pc := s.pc + 2, out := s.out ++ s.operandEvents } v (hindex ▸ hacc) (hindex ▸ hin) hv
  rw [step_twoOperands h decodeOpcode_8D, hstore, hindex, endTick_next]
  exact endCycle_ok (State.setCell { s with ir := some 0x8D, pc := s.pc + 2, out := s.out ++ s.operandEvents }
    (s.base + ea) v) hunfaulted hp

/-- The TICK of an LDA whose bytes, and the byte it names, are in the window. -/
theorem step_ldaAbs_held {s : State} {lo hi m : Byte} {ea : Nat} (hs : s.ticking) (hb : s.holdsBytes s.pc [0xAD, lo, hi])
    (hp : s.isPc (s.pc + 3)) (hea : addr16 (some lo) (some hi) = some ea) (hm : s.holds ea m) :
    step s = .next { s with ir := some 0xAD, pc := s.pc + 3, acc := some m } := by
  have ⟨⟨hunfaulted, _⟩, _⟩ := hs
  have hload := (absoluteLoadMovesTheNamedByte (some lo) (some hi) { s with ir := some 0xAD, pc := s.pc + 2 }
    (hea ▸ hm.1)).1
  have hm' : { s with ir := some 0xAD, pc := s.pc + 2 }.holds ea m := hm
  rw [hea, State.peek_of_holds hm', State.readEvents_of_holds hm', List.append_nil] at hload
  rw [step_twoOperands_held hs hb hp decodeOpcode_AD, hload, endTick_next]
  exact endCycle_ok _ hunfaulted hp

/-- Settles O34: the store leaves the bytes of the LDA alone, and the LDA reads the cell stored. -/
theorem storeThenLoadRoundTrips : Obligations.StoreThenLoadRoundTrips := by
  intro s lo hi v ea hs hb hv hea hacc hin hother hp
  obtain ⟨hsta, hop, hlo, hhi, -⟩ := (s.holdsBytes_append s.pc [0x8D, lo, hi] [0xAD, lo, hi]).mp hb
  have hp3 : s.isPc (s.pc + 3) := Nat.lt_of_le_of_lt (by omega) hp
  obtain ⟨hsop, hslo, hshi, -⟩ := hsta
  have hindex : s.operandIndex = some ea := by
    rw [State.operandIndex, State.peek_of_holds hslo, State.peek_of_holds hshi, hea]
  have hevents : s.operandEvents = [] := by
    rw [State.operandEvents, State.readEvents_of_holds hslo, State.readEvents_of_holds hshi, List.append_nil]
  have hfirst := step_staAbs ⟨hs, hsop, hslo.1, hshi.1, hp3⟩ hv hindex hacc hin
  rw [hevents, List.append_nil] at hfirst
  have hcode : (State.setCell { s with ir := some 0x8D, pc := s.pc + 3 } (s.base + ea) v).holdsBytes (s.pc + 3)
      [0xAD, lo, hi] :=
    ⟨State.holds_setCell_other (s := { s with ir := some 0x8D, pc := s.pc + 3 }) hop v (by simp only [List.length]; omega),
      State.holds_setCell_other (s := { s with ir := some 0x8D, pc := s.pc + 3 }) hlo v (by simp only [List.length]; omega),
      State.holds_setCell_other (s := { s with ir := some 0x8D, pc := s.pc + 3 }) hhi v (by simp only [List.length]; omega),
      trivial⟩
  have hcell := State.holds_setCell_same (s := { s with ir := some 0x8D, pc := s.pc + 3 }) hacc hin v
  have hsecond := step_ldaAbs_held (s := State.setCell { s with ir := some 0x8D, pc := s.pc + 3 } (s.base + ea) v)
    hs hcode hp hea hcell
  refine ⟨_, (run_next 1 _ _ hfirst).trans (run_next 0 _ _ hsecond), rfl, hcell.2.2, rfl, fun a ha => ?_⟩
  exact State.cell_setCell_other { s with ir := some 0x8D, pc := s.pc + 3 } _ _ v ha

theorem next8_streamsTo (s : State) : StreamsTo s (next8 s).state :=
  (advancePc_streamsTo 1 s).bind fun _ t => memRead_streamsTo _ t

theorem fetchOperands_streamsTo (shape : Shape) (s : State) : StreamsTo s (fetchOperands shape s).state := by
  cases shape with
  | none i => exact ⟨s.pc, s.out, s.faults, rfl⟩
  | one mk => exact (next8_streamsTo s).bind fun v t => ⟨t.pc, t.out, t.faults, rfl⟩
  | two mk =>
    exact (next8_streamsTo s).bind fun lo t => (next8_streamsTo t).bind fun hi u => ⟨u.pc, u.out, u.faults, rfl⟩

/-- The end of the cycle changes PC and FAULT at most. -/
theorem endCycle_streamsTo {s t : State} (h : endCycle s = .next t) : StreamsTo s t := by
  rw [endCycle] at h
  split at h
  · exact Res.answer_next _ t h ▸ advancePc_streamsTo 1 s
  · exact ⟨s.pc, s.out, s.faults, (Host.Outcome.next.inj h).symm⟩

/-- The end of a TICK keeps the IR of the state that the instruction starts in. -/
theorem endTick_exec_ir (i : Instr) (s : State) : ∃ t, endTick (exec i s) = .next t ∧ t.ir = s.ir := by
  obtain ⟨u, hu⟩ := execAnswersANextStateAlways i s
  obtain ⟨hir, -⟩ := eachRegisterAndCellHasItsOwnWriters i s u hu
  obtain ⟨t, ht, -⟩ := endCycle_keeps_out_isExecuting u
  obtain ⟨pc, out, faults, hstate⟩ := endCycle_streamsTo ht
  exact ⟨t, by rw [hu, endTick_next, ht], (congrArg State.ir hstate).trans hir⟩

/-- A TICK that can fetch its opcode leaves it in IR, whatever happens after the fetch. -/
theorem tick_ir {s : State} {b : Byte} (hb : s.holds s.pc b) (he : s.isExecuting = true) :
    ∃ t, tick s = .next t ∧ t.ir = some b := by
  have hfetch : fetchInstr s = fetchOperands (decodeOpcode (some b)) { s with ir := some b } := by
    rw [fetchInstr, fetch_holds s b hb, Res.bind_val]
  obtain ⟨pc, out, faults, hstate⟩ := fetchOperands_streamsTo (decodeOpcode (some b)) { s with ir := some b }
  rw [← hfetch] at hstate
  cases hr : fetchInstr s with
  | raised a =>
    rw [hr] at hstate
    exact ⟨a, tick_raised s a he hr, congrArg State.ir hstate⟩
  | val i a =>
    rw [hr] at hstate
    obtain ⟨t, ht, hir⟩ := endTick_exec_ir i a
    exact ⟨t, (tick_run s a i he hr).trans ht, hir.trans (congrArg State.ir hstate)⟩

/-- Settles O35: after the STA the byte stored is the one at PC, and the next TICK fetches it. -/
theorem storeIntoTheNextOpcodeIsFetched : Obligations.StoreIntoTheNextOpcodeIsFetched := by
  intro s v h hv hindex hacc hin
  have ⟨⟨hlive, hpending, hexec⟩, _⟩ := h
  have hfirst := step_staAbs h hv hindex hacc hin
  have hnext := State.holds_setCell_same
    (s := { s with ir := some 0x8D, pc := s.pc + 3, out := s.out ++ s.operandEvents }) hacc hin v
  obtain ⟨u, hu, hir⟩ := tick_ir hnext hexec
  refine ⟨_, u, hfirst, Eq.trans ?_ hu, hir⟩
  exact step_tick _ hlive hpending

/-! ### Progress -/

/-- Settles O36: the moves of a TICK never lower PC, and its last one is the increment. -/
theorem pcGrowsOnEveryTick : Obligations.PcGrowsOnEveryTick := by
  intro s t hs h hf
  rw [step_tick s hs.1 hs.2.1] at h
  obtain ⟨u, hu, -, rfl⟩ := tick_unfaulted s t hs h hf
  exact Nat.lt_succ_of_le hu.frame.pc

/-- A TICK of an executing CPU: it halts, or faults, or goes on with PC higher in the same window. -/
theorem step_ticking_cases {s : State} (hs : s.ticking) :
    ∃ t, step s = .next t ∧ ((t.isExecuting = false ∨ t.faults ≠ []) ∨
      (t.ticking ∧ s.pc < t.pc ∧ t.base = s.base ∧ t.limit = s.limit ∧ t.bound = s.bound)) := by
  obtain ⟨t, -, ht, -⟩ := tick_moves s
  have hstep : step s = .next t := (step_tick s hs.1 hs.2.1).trans ht
  refine ⟨t, hstep, ?_⟩
  by_cases hf : t.faults = []
  · cases he : t.isExecuting with
    | false => exact .inl (.inl rfl)
    | true =>
      have hpc := pcGrowsOnEveryTick s t hs hstep hf
      obtain ⟨u, hu, -, rfl⟩ := tick_unfaulted s t hs ht hf
      have hframe := hu.frame
      exact .inr ⟨⟨⟨hf, hframe.trapped.trans hs.1.2⟩, hframe.pending.trans hs.2.1, he⟩, hpc, hframe.base, hframe.limit,
        hframe.bound⟩
  · exact .inl (.inr hf)

/-- A CPU with at most `n` indices of its window left halts or faults within `n + 1` TICKs: with none left the fetch fails
the fence, and otherwise a TICK that goes on leaves fewer. -/
theorem halts_within (n : Nat) {s : State} (hs : s.ticking) (hb : s.bound = true)
    (hn : s.limit + 1 - (s.base + s.pc) ≤ n) :
    ∃ k t, k ≤ n + 1 ∧ core.run k s = .next t ∧ (t.isExecuting = false ∨ t.faults ≠ []) := by
  induction n generalizing s with
  | zero =>
    have hout : s.inSegment (some s.pc) = false := by
      rw [State.inSegment_some, decide_eq_false_iff_not]
      omega
    obtain ⟨t, ht, -, hhalted⟩ := endCycle_keeps_out_isExecuting
      ((({ s with ir := none }.emit (.outOfRange .read (some s.pc))).emit (.unknownInstruction none)).halt)
    exact ⟨1, t, le_rfl, run_next 0 s t ((step_fetch_outside s hs hb hout).trans ht), .inl hhalted⟩
  | succ n ih =>
    obtain ⟨t, ht, hstop | ⟨hticking, hpc, hbase, hlimit, hbound⟩⟩ := step_ticking_cases hs
    · exact ⟨1, t, by omega, run_next 0 s t ht, hstop⟩
    · obtain ⟨k, u, hk, hrun, hstop⟩ := ih hticking (hbound.trans hb) (by rw [hbase, hlimit]; omega)
      exact ⟨k + 1, u, by omega, (run_next k s t ht).trans hrun, hstop⟩

/-- Settles O37: the indices left from PC to the limit are the bound. -/
theorem everyProgramHaltsWithinItsWindow : Obligations.EveryProgramHaltsWithinItsWindow :=
  fun _ hs hb => halts_within _ hs hb le_rfl

end Sys2Proof.Machine
end

section
/-! Stopped machines (R63, R64), RESET (R301), and the host's accessor and table operations (R92 to R97, R290). -/

namespace Sys2Proof.Machine

/-! ### Stopping and reset -/

/-- A queued TICK of a live machine. -/
theorem step_queuedTick (s : State) (rest : List Command) (hlive : s.live) (hpending : s.pending = .tick :: rest) :
    step s = tick { s with pending := rest } :=
  step_command s .tick rest hlive hpending

/-- Settles O40: the refusals, and the TICK of a halted CPU, which does nothing. -/
theorem stoppedMachineRefusesAndHaltedMachineIdles : Obligations.StoppedMachineRefusesAndHaltedMachineIdles := by
  refine ⟨step_faulted, step_trapped, fun s hlive he => ⟨fun hpending => ?idle, fun rest hpending => ?queued⟩⟩
  case idle => rw [step_tick s hlive hpending, tick_halted s he]
  case queued => rw [step_queuedTick s rest hlive hpending, tick_halted { s with pending := rest } he]

/-- After a RESET every cell is a byte of the next draw (R304). -/
theorem State.cell_resetBlock (s : State) (a : Nat) : s.resetBlock.cell a = Config.resetByte (s.draw + 1) a := by
  rw [State.cell, State.resetBlock_mem, State.resetBlock_draw]
  rfl

/-- Settles O42: the step is `State.resetBlock`, whose fields the laws of the state give. -/
theorem resetReinitializesTheBlock : Obligations.ResetReinitializesTheBlock := by
  intro s rest hpending hlive
  have hstep : step s = .next (State.resetBlock { s with pending := rest }) := by
    rw [step_command s .reset rest hlive hpending, perform]
  refine ⟨_, hstep, by simp, by simp, by simp, by simp, by simp, by simp, by simp, by simp, by simp, by simp,
    by simp [hlive.1], by simp, by simp, State.cell_resetBlock { s with pending := rest }, fun hm => ?present,
    fun hm => ?absent⟩
  case present =>
    obtain ⟨-, hout, htrapped⟩ := State.resetBlock_present { s with pending := rest } hm
    exact ⟨hout, htrapped.trans hlive.2⟩
  case absent =>
    obtain ⟨hout, htrapped⟩ := State.resetBlock_absent { s with pending := rest } hm
    exact ⟨hout, htrapped, step_trapped _ (by simp [hlive.1]) htrapped⟩

/-- Settles O43: the fields of the reset state are these values. -/
theorem resetStateHoldsTheSpecValues : Obligations.ResetStateHoldsTheSpecValues :=
  ⟨rfl, rfl, rfl, rfl, rfl, rfl, rfl, rfl, rfl, rfl, rfl, rfl, rfl⟩

/-! ### Single accesses of the host -/

/-- A host access that the queue runs, in the form its operation answers. -/
theorem step_operation {s : State} {c : Command} {rest : List Command} {r : State → Res Unit} (hlive : s.live)
    (hpending : s.pending = c :: rest) (hc : ∀ u, perform c u = (r u).answer) :
    step s = (r { s with pending := rest }).answer := by
  rw [step_command s c rest hlive hpending, hc]

theorem step_accGet {s : State} {i : Nat} {rest : List Command} (hlive : s.live) (hp : s.pending = .accGet i :: rest) :
    step s = (accGet i { s with pending := rest }).answer := step_operation hlive hp fun _ => rfl

theorem step_accSet {s : State} {i v : Nat} {rest : List Command} (hlive : s.live)
    (hp : s.pending = .accSet i v :: rest) : step s = (accSet i v { s with pending := rest }).answer :=
  step_operation hlive hp fun _ => rfl

theorem step_accGetArray {s : State} {a b : Nat} {rest : List Command} (hlive : s.live)
    (hp : s.pending = .accGetArray a b :: rest) : step s = (accGetArray a b { s with pending := rest }).answer :=
  step_operation hlive hp fun _ => rfl

theorem step_accSetArray {s : State} {a : Nat} {data : List Nat} {rest : List Command} (hlive : s.live)
    (hp : s.pending = .accSetArray a data :: rest) :
    step s = (accSetArray a data { s with pending := rest }).answer := step_operation hlive hp fun _ => rfl

/-- A host value that is a byte passes the value check, and the write is the CPU's. -/
theorem accSet_byte {i v : Nat} {s : State} (hb : s.bound = true) (hv : v ≤ 255) :
    accSet i v s = memWrite (some i) (some (BitVec.ofNat 8 v)) (.badHostValue [v]) s := by
  rw [accSet, if_neg (by simp [hb]), if_neg (Nat.not_lt.mpr hv)]

theorem accSet_badValue {i v : Nat} {s : State} (hb : s.bound = true) (hv : 255 < v) :
    accSet i v s = .raised (s.raise (.badHostValue [v])) := by
  rw [accSet, if_neg (by simp [hb]), if_pos hv, raise]

theorem accSet_unbound {i v : Nat} {s : State} (hb : s.bound = false) :
    accSet i v s = .raised (s.raise (.unboundWindow (some i))) := by
  rw [accSet, if_pos (by simp [hb]), raise]

/-- ACC_GET in the window and memory replies the cell. -/
theorem accGet_inside {i : Nat} {s : State} (h : s.accessible (some i)) (hs : s.inSegment (some i) = true) :
    accGet i s = .val () { s with reply := some (.byte (some (s.cell (s.base + i)))) } := by
  rw [accGet, memRead_inside _ s h hs, Res.bind_val, State.address_some]

/-! ### Bulk accesses of the host, case by case -/

theorem accGetArray_unbound {a b : Nat} {s : State} (hb : s.bound = false) :
    accGetArray a b s = .raised (s.raise (.unboundWindow (some a))) := by
  rw [accGetArray, if_pos (by simp [hb]), raise]

theorem accGetArray_outside {a b : Nat} {s : State} (hb : s.bound = true)
    (h : s.limit < s.base + a ∨ s.limit < s.base + b) :
    accGetArray a b s = .val () { s.checkEndpoints .read a b with reply := some (.array none) } := by
  rcases accGetArray_cases a b s with ⟨hb', -⟩ | ⟨-, -, he⟩ | ⟨-, ha, hb', -⟩ | ⟨-, ha, hb', -⟩ | ⟨-, ha, hb', -⟩
  · simp [hb] at hb'
  · exact he
  all_goals omega

theorem accGetArray_empty {a b : Nat} {s : State} (hb : s.bound = true) (ha : s.base + a ≤ s.limit) (hba : b < a) :
    accGetArray a b s = .val () { s with reply := some (.array (some [])) } := by
  rcases accGetArray_cases a b s with ⟨hb', -⟩ | ⟨-, ho, -⟩ | ⟨-, -, -, -, he⟩ | ⟨-, -, -, hab, -⟩ | ⟨-, -, -, hab, -⟩
  · simp [hb] at hb'
  · omega
  · exact he
  all_goals omega

theorem accGetArray_beyond {a b : Nat} {s : State} (hb : s.bound = true) (hab : a ≤ b) (hl : s.base + b ≤ s.limit)
    (hm : s.config.memorySize ≤ s.base + b) :
    accGetArray a b s = .raised (s.raise (.windowExceedsMemory (max (s.base + a) s.config.memorySize))) := by
  rcases accGetArray_cases a b s with ⟨hb', -⟩ | ⟨-, ho, -⟩ | ⟨-, -, -, ho, -⟩ | ⟨-, -, -, -, -, he⟩ | ⟨-, -, -, -, ho, -⟩
  · simp [hb] at hb'
  · omega
  · omega
  · exact he
  · omega

theorem accGetArray_inside {a b : Nat} {s : State} (hb : s.bound = true) (hab : a ≤ b) (hl : s.base + b ≤ s.limit)
    (hm : s.base + b < s.config.memorySize) : accGetArray a b s =
      .val () { s with reply := some (.array (some ((List.range' (s.base + a) (b - a + 1)).map s.cell))) } := by
  rw [← State.cells_eq_map]
  rcases accGetArray_cases a b s with ⟨hb', -⟩ | ⟨-, ho, -⟩ | ⟨-, -, -, ho, -⟩ | ⟨-, -, -, -, ho, -⟩ | ⟨-, -, -, -, -, he⟩
  · simp [hb] at hb'
  · omega
  · omega
  · omega
  · exact he

theorem accSetArray_unbound {a : Nat} {data : List Nat} {s : State} (hb : s.bound = false) :
    accSetArray a data s = .raised (s.raise (.unboundWindow (some a))) := by
  rw [accSetArray, if_pos (by simp [hb]), raise]

theorem accSetArray_nil {a : Nat} {s : State} (hb : s.bound = true) : accSetArray a [] s = .val () s := by
  rw [accSetArray, if_neg (by simp [hb]), if_pos rfl]

theorem accSetArray_badValue {a : Nat} {data : List Nat} {s : State} (hb : s.bound = true) (hv : ∃ v ∈ data, 255 < v) :
    accSetArray a data s = .raised (s.raise (.badHostValue data)) := by
  obtain ⟨v, hmem, hv⟩ := hv
  rw [accSetArray, if_neg (by simp [hb]), if_neg (List.ne_nil_of_mem hmem),
    if_pos (List.any_eq_true.mpr ⟨v, hmem, by simpa using hv⟩), raise]

/-- The three cases of ACC_SETARRAY of bytes: an endpoint outside, an address beyond the memory, or the write. -/
theorem accSetArray_bytes {a : Nat} {data : List Nat} {s : State} (hb : s.bound = true) (hd : data ≠ [])
    (hv : ∀ v ∈ data, v ≤ 255) :
    ((s.limit < s.base + a ∨ s.limit < s.base + (a + data.length - 1)) ∧
      accSetArray a data s = .val () (s.checkEndpoints .write a (a + data.length - 1))) ∨
    (s.base + (a + data.length - 1) ≤ s.limit ∧ s.config.memorySize ≤ s.base + (a + data.length - 1) ∧
      accSetArray a data s = .raised (s.raise (.windowExceedsMemory (max (s.base + a) s.config.memorySize)))) ∨
    (s.base + (a + data.length - 1) ≤ s.limit ∧ s.base + (a + data.length - 1) < s.config.memorySize ∧
      accSetArray a data s = .val () (s.setCells (s.base + a) (data.map (BitVec.ofNat 8)))) := by
  rcases accSetArray_cases a data s with ⟨hb', -⟩ | ⟨-, hd', -⟩ | ⟨-, ⟨v, hmem, hv'⟩, -⟩ | ⟨-, -, -, ho, he⟩ |
    ⟨-, -, -, hl, hm, he⟩ | ⟨-, -, -, hl, hm, he⟩
  · simp [hb] at hb'
  · exact absurd hd' hd
  · exact absurd (hv v hmem) (Nat.not_le.mpr hv')
  · exact .inl ⟨ho, he⟩
  · exact .inr (.inl ⟨hl, hm, he⟩)
  · exact .inr (.inr ⟨hl, hm, he⟩)

theorem map_ofNat_map_toNat (l : List Byte) : (l.map BitVec.toNat).map (BitVec.ofNat 8) = l := by
  rw [List.map_map]
  exact List.map_id'' (fun b => by simp) l

/-- ACC_SETARRAY of bytes that fit the window and the memory writes them, no bytes included. -/
theorem accSetArray_fits {a : Nat} {data : List Byte} {s : State} (hb : s.bound = true)
    (hl : s.base + a + data.length ≤ s.limit + 1) (hm : s.base + a + data.length ≤ s.config.memorySize) :
    accSetArray a (data.map BitVec.toNat) s = .val () (s.setCells (s.base + a) data) := by
  cases data with
  | nil => exact accSetArray_nil hb
  | cons b rest =>
    have hv : ∀ v ∈ (b :: rest).map BitVec.toNat, v ≤ 255 := by
      simp only [List.mem_map]
      rintro _ ⟨c, -, rfl⟩
      exact Nat.le_of_lt_succ c.isLt
    have hlen : ((b :: rest).map BitVec.toNat).length = rest.length + 1 := by simp
    rw [List.length_cons] at hl hm
    rcases accSetArray_bytes (a := a) (s := s) hb (by simp) hv with ⟨ho, -⟩ | ⟨-, ho, -⟩ | ⟨-, -, he⟩
    · rw [hlen] at ho
      omega
    · rw [hlen] at ho
      omega
    · rw [he, map_ofNat_map_toNat]

/-! ### Accesses outside the fence, and those that fault -/

theorem State.inSegment_eq_false {s : State} {i : Nat} (h : s.limit < s.base + i) : s.inSegment (some i) = false := by
  rw [State.inSegment_some, decide_eq_false_iff_not]
  exact Nat.not_le.mpr h

theorem State.inSegment_eq_true {s : State} {i : Nat} (h : s.base + i ≤ s.limit) : s.inSegment (some i) = true := by
  rw [State.inSegment_some, decide_eq_true_eq]
  exact h

/-- Settles O57: an access that fails the fence adds its events, and a host read replies that there is no value. -/
theorem outOfRangeAccessIsNotFatal : Obligations.OutOfRangeAccessIsNotFatal := by
  refine ⟨fun s i v undef hb hs => ⟨memRead_outside i s hb hs, memWrite_outside i v undef s hb hs⟩,
    fun s i v rest hlive hb ho hv => ⟨fun hp => ?get, fun hp => ?set⟩,
    fun s first last rest hlive hb ho => ⟨fun hp => ?getArray, fun data hp hd hlast hv => ?setArray⟩⟩
  case get =>
    rw [step_accGet hlive hp, accGet, memRead_outside _ { s with pending := rest } hb (State.inSegment_eq_false ho),
      Res.bind_val, Res.answer_val, State.emit]
  case set =>
    rw [step_accSet hlive hp, accSet_byte (s := { s with pending := rest }) hb hv,
      memWrite_outside _ _ _ { s with pending := rest } hb (State.inSegment_eq_false ho), Res.answer_val, State.emit]
  case getArray =>
    rw [step_accGetArray hlive hp, accGetArray_outside (s := { s with pending := rest }) hb ho, Res.answer_val,
      State.checkEndpoints_eq]
  case setArray =>
    subst hlast
    have hpos := List.length_pos_of_ne_nil hd
    rw [step_accSetArray hlive hp]
    rcases accSetArray_bytes (a := first) (s := { s with pending := rest }) hb hd hv with ⟨-, he⟩ | ⟨hl, -⟩ | ⟨hl, -⟩
    · rw [he, Res.answer_val, State.checkEndpoints_eq]
    · simp only at hl
      omega
    · simp only at hl
      omega

/-- Settles O59: each access by the check that fails first. -/
theorem accessesThatFault : Obligations.AccessesThatFault := by
  intro s i rest hlive
  refine ⟨fun hb hp => ?unbound, fun hb hl hm hp => ?beyond, fun last hb hi hl hm hp => ?bulkBeyond,
    fun v hb hv hp => ?badValue, fun data hb hv hp => ?badData⟩
  case unbound =>
    rcases hp with hp | ⟨v, hp⟩ | ⟨stop, hp⟩ | ⟨data, hp⟩
    · rw [step_accGet hlive hp, accGet, memRead_unbound _ { s with pending := rest } hb, Res.bind_raised,
        Res.answer_raised]
    · rw [step_accSet hlive hp, accSet_unbound (s := { s with pending := rest }) hb, Res.answer_raised]
    · rw [step_accGetArray hlive hp, accGetArray_unbound (s := { s with pending := rest }) hb, Res.answer_raised]
    · rw [step_accSetArray hlive hp, accSetArray_unbound (s := { s with pending := rest }) hb, Res.answer_raised]
  case beyond =>
    have hin : { s with pending := rest }.inSegment (some i) = true := State.inSegment_eq_true hl
    rcases hp with hp | ⟨v, hv, hp⟩
    · rw [step_accGet hlive hp, accGet, memRead_beyond _ { s with pending := rest } hb hin hm, Res.bind_raised,
        Res.answer_raised]
      rfl
    · rw [step_accSet hlive hp, accSet_byte (s := { s with pending := rest }) hb hv,
        memWrite_beyond _ _ _ { s with pending := rest } hb hin hm, Res.answer_raised]
      rfl
  case bulkBeyond =>
    rcases hp with hp | ⟨data, hlast, hv, hp⟩
    · rw [step_accGetArray hlive hp, accGetArray_beyond (s := { s with pending := rest }) hb hi hl hm, Res.answer_raised]
    · have hd : data ≠ [] := by
        rintro rfl
        simp only [List.length_nil] at hlast
        omega
      obtain rfl : last = i + data.length - 1 := by omega
      rw [step_accSetArray hlive hp]
      rcases accSetArray_bytes (a := i) (s := { s with pending := rest }) hb hd hv with ⟨ho, -⟩ | ⟨-, -, he⟩ | ⟨-, hin, -⟩
      · simp only at ho
        omega
      · rw [he, Res.answer_raised]
      · simp only at hin
        omega
  case badValue =>
    rw [step_accSet hlive hp, accSet_badValue (s := { s with pending := rest }) hb hv, Res.answer_raised]
  case badData =>
    rw [step_accSetArray hlive hp, accSetArray_badValue (s := { s with pending := rest }) hb hv, Res.answer_raised]

/-! ### Round trips -/

/-- Writing cells changes memory only. -/
theorem State.setCells_eq (s : State) (a : Nat) (l : List Byte) : s.setCells a l = { s with mem := (s.setCells a l).mem } := by
  induction l generalizing s a with
  | nil => rfl
  | cons v l ih =>
    rw [State.setCells, ih]
    rfl

/-- The queue stands aside while cells are written. -/
theorem State.setCells_withPending (s : State) (q : List Command) (a : Nat) (l : List Byte) :
    State.setCells { s with pending := q } a l = { s.setCells a l with pending := q } := by
  induction l generalizing s a with
  | nil => rfl
  | cons v l ih => exact ih (s.setCell a v) (a + 1)

/-- Reading back the cells that a list of bytes was written to. -/
theorem State.map_cell_setCells (s : State) (a : Nat) (l : List Byte) :
    (List.range' a l.length).map (s.setCells a l).cell = l := by
  refine List.ext_getElem (by simp) fun k _ hk => ?_
  rw [List.getElem_map, List.getElem_range', Nat.one_mul]
  exact s.cell_setCells_inside a k l _ (List.getElem?_eq_getElem hk)

/-- A queued ACC_SET of a byte, in the window and memory. -/
theorem step_accSet_inside {s : State} {i v : Nat} {rest : List Command} (hlive : s.live)
    (hacc : s.accessible (some i)) (hin : s.inSegment (some i) = true) (hv : v ≤ 255)
    (hp : s.pending = .accSet i v :: rest) :
    step s = .next (State.setCell { s with pending := rest } (s.base + i) (BitVec.ofNat 8 v)) := by
  rw [step_accSet hlive hp, accSet_byte (s := { s with pending := rest }) hacc.1 hv,
    memWrite_inside (some i) _ _ { s with pending := rest } hacc hin, Res.answer_val, State.address_some]

/-- A queued ACC_GET in the window and memory. -/
theorem step_accGet_inside {s : State} {i : Nat} {rest : List Command} (hlive : s.live) (hacc : s.accessible (some i))
    (hin : s.inSegment (some i) = true) (hp : s.pending = .accGet i :: rest) :
    step s = .next { s with reply := some (.byte (some (s.cell (s.base + i)))), pending := rest } := by
  rw [step_accGet hlive hp, accGet_inside (s := { s with pending := rest }) hacc hin, Res.answer_val]
  rfl

/-- A queued ACC_SETARRAY of bytes that fit the window and the memory. -/
theorem step_accSetArray_fits {s : State} {a : Nat} {data : List Byte} {rest : List Command} (hlive : s.live)
    (hb : s.bound = true) (hl : s.base + a + data.length ≤ s.limit + 1)
    (hm : s.base + a + data.length ≤ s.config.memorySize)
    (hp : s.pending = .accSetArray a (data.map BitVec.toNat) :: rest) :
    step s = .next { s.setCells (s.base + a) data with pending := rest } := by
  rw [step_accSetArray hlive hp, accSetArray_fits (s := { s with pending := rest }) hb hl hm, Res.answer_val,
    State.setCells_withPending]

/-- A queued ACC_GETARRAY in the window and memory. -/
theorem step_accGetArray_inside {s : State} {a b : Nat} {rest : List Command} (hlive : s.live) (hb : s.bound = true)
    (hab : a ≤ b) (hl : s.base + b ≤ s.limit) (hm : s.base + b < s.config.memorySize)
    (hp : s.pending = .accGetArray a b :: rest) : step s = .next { s with
      reply := some (.array (some ((List.range' (s.base + a) (b - a + 1)).map s.cell))), pending := rest } := by
  rw [step_accGetArray hlive hp, accGetArray_inside (s := { s with pending := rest }) hb hab hl hm, Res.answer_val]
  rfl

/-- ACC_SETARRAY and then ACC_GETARRAY of the range written. -/
theorem run_accSetArray_accGetArray {s : State} {start : Nat} {data : List Byte} (hlive : s.live) (hb : s.bound = true)
    (hd : data ≠ []) (hl : s.base + start + data.length ≤ s.limit + 1)
    (hm : s.base + start + data.length ≤ s.config.memorySize)
    (hp : s.pending =
      [.accSetArray start (data.map BitVec.toNat), .accGetArray start (start + data.length - 1)]) :
    core.run 2 s =
      .next { s.setCells (s.base + start) data with reply := some (.array (some data)), pending := [] } := by
  have hpos : 0 < data.length := List.length_pos_of_ne_nil hd
  have hlen : start + data.length - 1 - start + 1 = data.length := by omega
  have hset := step_accSetArray_fits hlive hb hl hm hp
  have hget := step_accGetArray_inside (a := start) (b := start + data.length - 1) (rest := [])
    (s := { s.setCells (s.base + start) data with pending := [.accGetArray start (start + data.length - 1)] })
    ⟨by simpa using hlive.1, by simpa using hlive.2⟩ (by simpa using hb) (by omega)
    (by simp only [State.setCells_base, State.setCells_limit]; omega)
    (by simp only [State.setCells_base, State.setCells_config]; omega) rfl
  refine (run_next 1 _ _ hset).trans ((run_next 0 _ _ hget).trans ?_)
  have hread : (List.range' ((s.setCells (s.base + start) data).base + start) (start + data.length - 1 - start + 1)).map
      (s.setCells (s.base + start) data).cell = data := by
    rw [State.setCells_base, hlen, State.map_cell_setCells]
  exact congrArg (fun l => Host.Outcome.next { s.setCells (s.base + start) data with
    reply := some (.array (some l)), pending := [] }) hread

/-- Settles O58: each access by its equation, and the memory laws for what the read finds. -/
theorem hostAccessesRoundTrip : Obligations.HostAccessesRoundTrip := by
  refine ⟨fun s i v hlive hacc hin hv => ?byte, fun s start data hlive hb hd hl hm => ?array,
    fun s i rest hlive hacc hin hp => step_accGet_inside hlive hacc hin hp,
    fun s start stop rest hlive hb hle hl hm hp => step_accGetArray_inside hlive hb hle hl hm hp,
    fun s start stop rest hlive hb => ⟨fun hp hlt hl => ?emptyRange, fun hp => ?noData⟩⟩
  case byte =>
    have hset := step_accSet_inside (s := { s with pending := [.accSet i v, .accGet i] }) hlive hacc hin hv rfl
    have hget := step_accGet_inside
      (s := State.setCell { s with pending := [.accGet i] } (s.base + i) (BitVec.ofNat 8 v)) hlive hacc hin rfl
    have hcell : (State.setCell { s with pending := [.accGet i] } (s.base + i) (BitVec.ofNat 8 v)).cell (s.base + i) =
        BitVec.ofNat 8 v := State.cell_setCell_same _ _ _
    refine ⟨_, (run_next 1 _ _ hset).trans (run_next 0 _ _ hget), congrArg (fun b => some (Reply.byte (some b))) hcell, hcell,
      fun a ha => ?_, rfl⟩
    exact State.cell_setCell_other { s with pending := [.accGet i] } _ _ _ ha
  case array =>
    have hrun := run_accSetArray_accGetArray (s := { s with
      pending := [.accSetArray start (data.map BitVec.toNat), .accGetArray start (start + data.length - 1)] })
      hlive hb hd hl hm rfl
    rw [State.setCells_withPending] at hrun
    refine ⟨_, hrun, rfl, fun a ha => s.cell_setCells_outside _ a data ha, ?_⟩
    rw [State.setCells_eq]
  case emptyRange =>
    rw [step_accGetArray hlive hp, accGetArray_empty (s := { s with pending := rest }) hb hl hlt, Res.answer_val]
  case noData => rw [step_accSetArray hlive hp, accSetArray_nil (s := { s with pending := rest }) hb, Res.answer_val]

/-! ### The host's table -/

/-- `p` in another state. -/
def Pcb.inState (st : ProcessState) (p : Pcb) : Pcb := { p with processState := st }

@[simp] theorem Pcb.inState_processID (st : ProcessState) (p : Pcb) : (p.inState st).processID = p.processID := rfl

/-- A queued PT_CREATE inside the host's table. -/
theorem step_ptCreate {s : State} {p : Pcb} {rest : List Command} (hlive : s.live) (hp : s.pending = .ptCreate p :: rest)
    (hfresh : s.pcb? p.processID = none) (hnew : p.processState = .new) (hpc : s.isPc p.pc) :
    step s = .next { s with pt := s.pt ++ [p], pending := rest } := by
  have hfresh' : { s with pending := rest }.pcb? p.processID = none := hfresh
  rw [step_command s _ rest hlive hp, perform, ptCreate, if_pos (by simp [hfresh', hnew, hpc])]

/-- A queued PT_SET_STATE inside the host's table. -/
theorem step_ptSetState {s : State} {n : Nat} {p : Pcb} {rest : List Command} (hlive : s.live)
    (hp : s.pending = .ptSetState n .ready :: rest) (hfound : s.pcb? n = some p) (hnew : p.processState = .new) :
    step s = .next (State.updatePcb { s with pending := rest } n (Pcb.inState .ready)) := by
  have hfound' : { s with pending := rest }.pcb? n = some p := hfound
  rw [step_command s _ rest hlive hp, perform, ptSetState, if_pos (by simp [hfound', hnew])]
  rfl

/-- A queued PT_REMOVE inside the host's table. -/
theorem step_ptRemove {s : State} {n : Nat} {p : Pcb} {rest : List Command} (hlive : s.live)
    (hp : s.pending = .ptRemove n :: rest) (hfound : s.pcb? n = some p) :
    step s = .next { s with pt := s.pt.filter fun p => p.processID != n, pending := rest } := by
  have hfound' : { s with pending := rest }.pcb? n = some p := hfound
  rw [step_command s _ rest hlive hp, perform, ptRemove, if_pos (by simp [hfound'])]

/-- Looking up a PCB after one was taken away. -/
theorem State.pcb?_filter (s : State) (n m : Nat) :
    { s with pt := s.pt.filter fun p => p.processID != n }.pcb? m = if m = n then none else s.pcb? m := by
  rw [State.pcb?, List.find?_filter]
  split
  · subst m
    simp
  · rename_i hne
    refine congrArg (List.find? · s.pt) (funext fun p => ?_)
    by_cases hp : p.processID = m <;> simp [hp, hne]

/-- Settles O60: the three operations inside the host's table, and the lookups after them. -/
theorem hostTableOperations : Obligations.HostTableOperations := by
  intro s rest hlive
  refine ⟨fun p hp hfresh hnew hpc => step_ptCreate hlive hp hfresh hnew hpc, fun n p hp hfound hnew => ?setState,
    fun n p hp hfound => ?remove⟩
  case setState =>
    have lookup := State.pcb?_updatePcb { s with pending := rest } n (f := Pcb.inState .ready)
    refine ⟨_, step_ptSetState hlive hp hfound hnew, ?_, fun other ho => ?_,
      State.updatePcb_pids _ _ _ (Pcb.inState_processID _), rfl⟩
    · rw [lookup _ (Pcb.inState_processID _), if_pos rfl]
      exact congrArg (Option.map _) hfound
    · rw [lookup _ (Pcb.inState_processID _), if_neg ho]
      rfl
  case remove =>
    have lookup := State.pcb?_filter { s with pending := rest } n
    refine ⟨_, step_ptRemove hlive hp hfound, (lookup n).trans (if_pos rfl), fun other ho => (lookup other).trans (if_neg ho),
      ?_, rfl⟩
    rw [List.filter_map]
    congr 1
    exact List.filter_congr fun q _ => by simp [bne, beq_eq_decide]

/-! ### Boot -/

/-- Bytes lie at an index if each of them lies where it should. -/
theorem State.holdsBytes_of_getElem? {s : State} {i : Nat} {l : List Byte}
    (h : ∀ k b, l[k]? = some b → s.holds (i + k) b) : s.holdsBytes i l := by
  induction l generalizing i with
  | nil => trivial
  | cons b l ih =>
    refine ⟨h 0 b rfl, ih fun k c hk => ?_⟩
    rw [Nat.add_assoc, Nat.add_comm 1]
    exact h (k + 1) c hk

/-- Bytes written inside the window and the memory lie there. -/
theorem State.holdsBytes_setCells {s : State} {i : Nat} {l : List Byte} (hb : s.bound = true)
    (hl : s.base + i + l.length ≤ s.limit + 1) (hm : s.base + i + l.length ≤ s.config.memorySize) :
    (s.setCells (s.base + i) l).holdsBytes i l := by
  refine State.holdsBytes_of_getElem? fun k b hk => ?_
  obtain ⟨hlt, -⟩ := List.getElem?_eq_some_iff.mp hk
  refine ⟨⟨by simpa using hb, fun _ => ?_⟩, ?_, ?_⟩
  · rw [State.address_some, State.setCells_base, State.setCells_config]
    omega
  · rw [State.inSegment_some, State.setCells_base, State.setCells_limit, decide_eq_true_eq]
    omega
  · rw [State.setCells_base, ← Nat.add_assoc]
    exact s.cell_setCells_inside (s.base + i) k l b hk

theorem step_dispatchStart {s : State} {n : Nat} {w : Window} {rest : List Command} (hlive : s.live)
    (hp : s.pending = .dispatchStart n w :: rest) :
    step s = (dispatchStart n w { s with pending := rest }).answer := step_operation hlive hp fun _ => rfl

/-- A queued DISPATCH_START of a PCB with no other PCB RUNNING (R244). -/
theorem step_dispatchStart_ok {s : State} {n : Nat} {w : Window} {p : Pcb} {rest : List Command} (hlive : s.live)
    (hp : s.pending = .dispatchStart n w :: rest) (hfound : s.pcb? n = some p) (hothers : s.othersRunning n = []) :
    step s = .next (startPcb p w { s with pending := rest }) := by
  rw [step_dispatchStart hlive hp, dispatchStart_ok { s with pending := rest } n w p hfound hothers, Res.answer_val]

/-- The last three transactions of the boot order, on a live machine with no process: create, ready, start. -/
theorem run_create_ready_start {s : State} {pid priority : Nat} {w : Window} (hlive : s.live) (hpt : s.pt = [])
    (hp : s.pending =
      [.ptCreate (referencePcb pid priority w.base), .ptSetState pid .ready, .dispatchStart pid w]) :
    core.run 3 s = .next (startPcb ((referencePcb pid priority w.base).inState .ready) w
      { s with pt := [(referencePcb pid priority w.base).inState .ready], pending := [] }) := by
  have hcreate := step_ptCreate hlive hp (by rw [State.pcb?, hpt]; rfl) rfl (Nat.two_pow_pos _)
  rw [hpt, List.nil_append] at hcreate
  have hfound (q : Pcb) (hq : q.processID = pid) : [q].find? (fun p => p.processID == pid) = some q := by
    simp [hq]
  have hready := step_ptSetState (s := { s with
    pt := [referencePcb pid priority w.base], pending := [.ptSetState pid .ready, .dispatchStart pid w] })
    hlive rfl (hfound _ rfl) rfl
  have hupdate : State.updatePcb { s with
      pt := [referencePcb pid priority w.base], pending := [.dispatchStart pid w] } pid (Pcb.inState .ready) =
      { s with pt := [(referencePcb pid priority w.base).inState .ready], pending := [.dispatchStart pid w] } := by
    simp [State.updatePcb, referencePcb]
  rw [hupdate] at hready
  have hstart := step_dispatchStart_ok (s := { s with
    pt := [(referencePcb pid priority w.base).inState .ready], pending := [.dispatchStart pid w] })
    hlive rfl (hfound _ rfl) (by simp [State.othersRunning, Pcb.inState])
  exact (run_next 2 _ _ hcreate).trans ((run_next 1 _ _ hready).trans (run_next 0 _ _ hstart))

/-- A run continues from where its first part ends. -/
theorem run_add {a b : Nat} {s t : State} (h : core.run a s = .next t) : core.run (a + b) s = core.run b t := by
  induction a generalizing s with
  | zero =>
    obtain rfl : s = t := Host.Outcome.next.inj h
    rw [Nat.zero_add]
  | succ a ih =>
    rw [Nat.add_right_comm]
    have hstep : core.step s = step s := rfl
    simp only [Host.Core.run, hstep] at h ⊢
    split at h
    · exact ih h
    · cases h
    · cases h

/-- `s` with the window bound and the bytes in it: what the first two transactions of the boot order leave. -/
def State.loaded (w : Window) (bytes : List Byte) (s : State) : State := (s.useSegment w).setCells w.base bytes

/-- Loading a program into a window that holds it and lies in memory (R306). -/
theorem run_loadCommands {s : State} {w : Window} {bytes : List Byte} {rest : List Command} (hlive : s.live)
    (hl : w.base + bytes.length ≤ w.limit + 1) (hm : w.base + bytes.length ≤ s.config.memorySize)
    (hp : s.pending = loadCommands w bytes ++ rest) :
    core.run 2 s = .next (State.loaded w bytes { s with pending := rest }) := by
  have huse := step_accUseSegment s w.base w.limit (.accSetArray 0 (bytes.map BitVec.toNat) :: rest) hlive hp
  have hload := step_accSetArray_fits (a := 0) (rest := rest)
    (s := State.useSegment w { s with pending := .accSetArray 0 (bytes.map BitVec.toNat) :: rest }) hlive rfl hl hm rfl
  rw [← State.setCells_withPending] at hload
  exact (run_next 1 _ _ huse).trans (run_next 0 _ _ hload)

theorem State.loaded_holdsBytes {w : Window} {bytes : List Byte} {s : State}
    (hl : w.base + bytes.length ≤ w.limit + 1) (hm : w.base + bytes.length ≤ s.config.memorySize) :
    (s.loaded w bytes).holdsBytes 0 bytes :=
  State.holdsBytes_setCells (s := s.useSegment w) (i := 0) rfl hl hm

/-- The boot order on a live machine with no process (R308). -/
theorem run_bootCommands {s : State} {pid priority : Nat} {w : Window} {bytes : List Byte} (hlive : s.live)
    (hpt : s.pt = []) (hl : w.base + bytes.length ≤ w.limit + 1) (hm : w.base + bytes.length ≤ s.config.memorySize)
    (hp : s.pending = bootCommands pid priority w bytes) :
    ∃ u : State, u.live ∧ u.base = w.base ∧ u.limit = w.limit ∧ u.bound = true ∧ u.holdsBytes 0 bytes ∧
      core.run 5 s = .next (startPcb ((referencePcb pid priority w.base).inState .ready) w
        { u with pt := [(referencePcb pid priority w.base).inState .ready], pending := [] }) := by
  have hload := run_loadCommands hlive hl hm hp
  have hbytes := State.loaded_holdsBytes (s := { s with
    pending := [.ptCreate (referencePcb pid priority w.base), .ptSetState pid .ready, .dispatchStart pid w] }) hl hm
  generalize hu : State.loaded w bytes { s with
    pending := [.ptCreate (referencePcb pid priority w.base), .ptSetState pid .ready, .dispatchStart pid w] } = u
    at hload hbytes
  have hlive' : u.live := by
    rw [← hu]
    simpa [State.loaded, State.live] using hlive
  have hstart := run_create_ready_start (s := u) (pid := pid) (priority := priority) (w := w) hlive'
    (by rw [← hu]; simpa [State.loaded] using hpt) (by rw [← hu]; exact State.setCells_pending _ _ _)
  refine ⟨u, hlive', ?_, ?_, ?_, hbytes, (run_add (b := 3) hload).trans hstart⟩ <;> rw [← hu] <;> simp [State.loaded]

/-- Settles O44: two transactions load the program, and three start the process. -/
theorem bootOrderStartsTheProgram : Obligations.BootOrderStartsTheProgram := by
  intro c pid priority w bytes hl hm
  obtain ⟨u, hlive, hbase, hlimit, hbound, hbytes, hrun⟩ := run_bootCommands
    (s := { State.reset with config := c, pending := bootCommands pid priority w bytes }) ⟨rfl, rfl⟩ rfl hl
    (show w.base + bytes.length ≤ c.memorySize by omega) rfl
  refine ⟨_, hrun, ⟨hlive, rfl, rfl⟩, rfl, rfl, rfl, rfl, ?_, ?_⟩
  · refine (State.holdsBytes_congr ?_ ?_ ?_ ?_ ?_ ?_ 0 bytes).mpr hbytes
    exacts [hbase.symm, hlimit.symm, hbound.symm, rfl, rfl, rfl]
  · rw [startPcb_pcb?]
    simp [State.pcb?, Pcb.inState, referencePcb]

end Sys2Proof.Machine
end

section
/-! The Dispatcher commands (45_dispatcher.md): what each leaves in the table, the registers and the window. -/

namespace Sys2Proof.Machine

/-! ### DISPATCH_START -/

theorem startPcb_pcb?_self {p : Pcb} {w : Window} {s : State} {n : Nat} (hp : s.pcb? n = some p) :
    (startPcb p w s).pcb? n = some (p.inState .running) := by
  rw [startPcb_pcb?, if_pos (State.pcb?_some_pid hp).symm, hp]
  rfl

theorem startPcb_pcb?_other {p : Pcb} {w : Window} {s : State} {n m : Nat} (hp : s.pcb? n = some p) (hm : m ≠ n) :
    (startPcb p w s).pcb? m = s.pcb? m := by
  rw [startPcb_pcb?, if_neg (State.pcb?_some_pid hp ▸ hm)]

/-- Settles O45: the step is `startPcb`, whose lookups, PIDs and notices are known and whose other writes are in view. -/
theorem dispatchStartLoadsTheProcess : Obligations.DispatchStartLoadsTheProcess := by
  intro s n w p rest hlive hp hfound hothers
  have hstep := step_dispatchStart_ok hlive hp hfound ((s.othersRunning_eq_nil n).mpr hothers)
  exact ⟨_, hstep, rfl, startPcb_pcb?_self (s := { s with pending := rest }) hfound, rfl, rfl, rfl, rfl, rfl, rfl, rfl, rfl,
    rfl, rfl, fun _ => rfl, fun _ ho => startPcb_pcb?_other (s := { s with pending := rest }) hfound ho,
    startPcb_pids p w _, startPcb_notices p w _, rfl⟩

/-- Settles O46: the two branches of the start that raise. -/
theorem dispatchStartChecksComeFirst : Obligations.DispatchStartChecksComeFirst := by
  intro s n w rest hlive hp
  refine ⟨fun hnone => ?unknown, fun ⟨p, hfound⟩ ⟨q, hq, hne, hrun⟩ => ?inconsistent⟩ <;>
    rw [step_dispatchStart hlive hp]
  case unknown => rw [dispatchStart_unknown { s with pending := rest } n w hnone, Res.answer_raised]
  case inconsistent =>
    have hothers : s.othersRunning n ≠ [] := fun h => (s.othersRunning_eq_nil n).mp h q hq hne hrun
    exact ⟨s.othersRunning n,
      by rw [dispatchStart_inconsistent { s with pending := rest } n w p hfound hothers, Res.answer_raised]; rfl,
      s.mem_othersRunning n⟩

/-! ### DISPATCH_SYNC, DISPATCH_STOP, DISPATCH_END -/

/-- A notification is not a notice. -/
theorem notices_append_processTableChanged (out : List Event) :
    notices (out ++ [.processTableChanged]) = notices out := by
  simp [notices]

/-- What DISPATCH_SYNC makes of the current PCB (R247). -/
def State.synced (s : State) (p : Pcb) : Pcb := (s.save p).inState (if s.isExecuting then .running else .done)

/-- A queued DISPATCH_SYNC. -/
theorem step_dispatchSync {s : State} {rest : List Command} (hlive : s.live) (hp : s.pending = .dispatchSync :: rest) :
    step s = .next ((State.updatePcb { s with pending := rest } s.pid s.synced).emit .processTableChanged) := by
  rw [step_command s _ rest hlive hp, perform, dispatchSync, Res.answer_val]
  rfl

/-- Settles O47: the update of the current PCB, and the lookups after it. -/
theorem dispatchSyncSavesTheCurrentProcess : Obligations.DispatchSyncSavesTheCurrentProcess := by
  intro s rest hlive hp
  have lookup (m : Nat) := State.pcb?_updatePcb { s with pending := rest } s.pid m s.synced fun _ => rfl
  refine ⟨_, step_dispatchSync hlive hp, fun p hfound => ?_, fun other ho => (lookup other).trans (if_neg ho),
    State.updatePcb_pids _ _ _ fun _ => rfl, notices_append_processTableChanged s.out, rfl⟩
  exact (lookup s.pid).trans ((if_pos rfl).trans (congrArg (Option.map _) hfound))

/-- A queued DISPATCH_STOP or DISPATCH_END is `endAs` of its final state. -/
theorem step_endAs {s : State} {n : Nat} {c : Command} {final : ProcessState} {rest : List Command} (hlive : s.live)
    (hp : s.pending = c :: rest) (hc : (c = .dispatchStop n ∧ final = .stopped) ∨ (c = .dispatchEnd n ∧ final = .done)) :
    step s = (endAs final n { s with pending := rest }).answer := by
  rw [step_command s c rest hlive hp]
  rcases hc with ⟨rfl, rfl⟩ | ⟨rfl, rfl⟩ <;> rfl

/-- Settles O48: the two branches of `endAs`, and the lookups after the update. -/
theorem dispatchStopAndEndSetTheFinalState : Obligations.DispatchStopAndEndSetTheFinalState := by
  intro s n c final rest hlive hp hc
  rw [step_endAs hlive hp hc]
  refine ⟨fun hnone => ?unknown, fun p hfound => ?sets⟩
  case unknown =>
    rcases endAs_cases final n { s with pending := rest } with ⟨-, he⟩ | ⟨p, hsome, -⟩
    · rw [he, Res.answer_raised]
    · exact absurd (hnone.symm.trans hsome) nofun
  case sets =>
    rcases endAs_cases final n { s with pending := rest } with ⟨hnone, -⟩ | ⟨q, -, he⟩
    · exact absurd (hfound.symm.trans hnone) nofun
    rw [he, Res.answer_val]
    by_cases hn : n = s.pid
    · have lookup (m : Nat) := State.pcb?_updatePcb (State.halt { s with pending := rest }) n m (Pcb.inState final) fun _ => rfl
      rw [if_pos hn]
      exact ⟨_, rfl, (lookup n).trans ((if_pos rfl).trans (congrArg (Option.map _) hfound)),
        fun other ho => (lookup other).trans (if_neg ho), by simp [hn], State.updatePcb_pids _ _ _ fun _ => rfl,
        notices_append_processTableChanged s.out, rfl⟩
    · have lookup (m : Nat) := State.pcb?_updatePcb { s with pending := rest } n m (Pcb.inState final) fun _ => rfl
      rw [if_neg hn]
      exact ⟨_, rfl, (lookup n).trans ((if_pos rfl).trans (congrArg (Option.map _) hfound)),
        fun other ho => (lookup other).trans (if_neg ho), by simp [hn], State.updatePcb_pids _ _ _ fun _ => rfl,
        notices_append_processTableChanged s.out, rfl⟩

/-! ### DISPATCH_SWITCH -/

/-- What becomes of the outgoing PCB `a` (R254, R255). -/
def State.leaving (s : State) (a : Nat) (r : Pcb) : Pcb :=
  { (if s.config.switchSave = .corrected ∧ a = s.pid then
      { r with pc := s.pc, ir := s.ir, acc := s.acc, x := s.x, y := s.y, z := s.z }
    else r) with
    processState := if r.processState = .running then .ready else r.processState }

theorem demote_eq (p : Pcb) :
    demote p = p.inState (if p.processState = .running then .ready else p.processState) := by
  rw [demote]
  split <;> rfl

theorem switchOut_eq_leaving (s : State) (r : Pcb) : switchOut s r = s.leaving r.processID r := by
  rw [switchOut, State.leaving]
  by_cases h : s.config.switchSave = .corrected ∧ r.processID = s.pid
  · rw [if_pos (by simpa using h), if_pos h, demote_eq]
    rfl
  · rw [if_neg (by simpa using h), if_neg h, demote_eq]
    rfl

/-- The demotion that opens a switch, in the words of R254 and R255. -/
theorem updatePcb_switchOut (s : State) (a : Nat) : s.updatePcb a (switchOut s) = s.updatePcb a (s.leaving a) := by
  simp only [State.updatePcb]
  congr 1
  refine List.map_congr_left fun r _ => ?_
  split
  · rename_i hr
    rw [switchOut_eq_leaving, hr]
  · rfl

theorem leaving_processID (s : State) (a : Nat) (r : Pcb) : (s.leaving a r).processID = r.processID := by
  rw [State.leaving]
  split <;> rfl

theorem leaving_ne_running (s : State) (a : Nat) (r : Pcb) : (s.leaving a r).processState ≠ .running := by
  rw [State.leaving]
  dsimp only
  split
  · simp
  · assumption

theorem step_dispatchSwitch {s : State} {out : Option Nat} {n : Nat} {w : Window} {rest : List Command} (hlive : s.live)
    (hp : s.pending = .dispatchSwitch out n w :: rest) :
    step s = (dispatchSwitch out n w { s with pending := rest }).answer := step_operation hlive hp fun _ => rfl

/-- A queued switch out of a PCB is the start of the incoming one after the outgoing one's change. -/
theorem step_dispatchSwitch_some {s : State} {a b : Nat} {w : Window} {p : Pcb} {rest : List Command} (hlive : s.live)
    (hp : s.pending = .dispatchSwitch (some a) b w :: rest) (hfound : s.pcb? a = some p) :
    step s = (dispatchStart b w (State.updatePcb { s with pending := rest } a (s.leaving a))).answer := by
  have hfound' : { s with pending := rest }.pcb? a = some p := hfound
  rw [step_dispatchSwitch hlive hp]
  simp only [dispatchSwitch, hfound', updatePcb_switchOut]
  rfl

/-- The PCBs that run, of those that are neither the incoming one nor, its change made, the outgoing one. -/
theorem mem_othersRunning_leaving (s : State) (a b n : Nat) :
    n ∈ (s.updatePcb a (s.leaving a)).othersRunning b ↔
      ∃ r ∈ s.pt, r.processID = n ∧ n ≠ a ∧ n ≠ b ∧ r.processState = .running := by
  rw [State.mem_othersRunning]
  constructor
  · rintro ⟨r, hr, rfl, hb, hrun⟩
    obtain ⟨hmem, hne⟩ := State.mem_of_running_updatePcb (leaving_ne_running s a) hr hrun
    exact ⟨r, hmem, rfl, hne, hb, hrun⟩
  · rintro ⟨r, hr, rfl, ha, hb, hrun⟩
    refine ⟨r, ?_, rfl, hb, hrun⟩
    rw [State.updatePcb_pt, List.mem_map]
    exact ⟨r, hr, if_neg ha⟩

/-- Settles O49: a switch is a start after the outgoing PCB's change, so each clause is one of the start's. -/
theorem dispatchSwitchDemotesAndStarts : Obligations.DispatchSwitchDemotesAndStarts := by
  intro s b w rest hlive
  refine ⟨fun hp => ?none, fun a hp hnone => ?unknownOut, fun a p hp hfound => ?some⟩
  case none =>
    rw [step_dispatchSwitch hlive hp]
    exact (step_dispatchStart (s := { s with pending := .dispatchStart b w :: rest }) hlive rfl).symm
  case unknownOut =>
    have hnone' : { s with pending := rest }.pcb? a = none := hnone
    rw [step_dispatchSwitch hlive hp]
    simp only [dispatchSwitch, hnone', raise, Res.answer_raised]
  case some =>
    intro leaves switchedOut
    have hstep := step_dispatchSwitch_some hlive hp hfound
    have hid := leaving_processID s a
    have lookup (m : Nat) := State.pcb?_updatePcb { s with pending := rest } a m (s.leaving a) hid
    have others := mem_othersRunning_leaving { s with pending := rest } a b
    refine ⟨fun q hq hrun => ?starts, fun hnone => ?unknownIn, fun ⟨q, hq⟩ hthird => ?third⟩
    case starts =>
      intro starts
      have hstarts : (State.updatePcb { s with pending := rest } a (s.leaving a)).pcb? b = some starts := by
        rw [lookup]
        by_cases hab : a = b
        · subst hab
          rw [if_pos rfl, show starts = leaves p from if_pos rfl]
          exact congrArg (Option.map _) hfound
        · rw [if_neg (Ne.symm hab), show starts = q from if_neg hab]
          exact hq
      have hnil : (State.updatePcb { s with pending := rest } a (s.leaving a)).othersRunning b = [] := by
        refine List.eq_nil_iff_forall_not_mem.mpr fun n hn => ?_
        obtain ⟨r, hr, rfl, ha, hb, hrr⟩ := (others n).mp hn
        exact (hrun r hr hrr).elim ha hb
      rw [dispatchStart_ok _ b w starts hstarts hnil, Res.answer_val] at hstep
      refine ⟨_, hstep, fun hab => ?_, startPcb_pcb?_self hstarts, State.pcb?_some_pid hstarts, rfl, rfl, rfl, rfl, rfl, rfl,
        rfl, rfl, rfl, rfl, fun _ => rfl, fun other hoa hob => ?_, ?_, startPcb_notices starts w _, rfl⟩
      · rw [startPcb_pcb?_other hstarts hab, lookup, if_pos rfl]
        exact congrArg (Option.map _) hfound
      · rw [startPcb_pcb?_other hstarts hob, lookup, if_neg hoa]
        rfl
      · rw [startPcb_pids, State.updatePcb_pids _ _ _ hid]
    case unknownIn =>
      have hnone' : (State.updatePcb { s with pending := rest } a (s.leaving a)).pcb? b = none := by
        rw [lookup]
        split
        · exact congrArg (Option.map _) hnone
        · exact hnone
      rw [hstep, dispatchStart_unknown _ b w hnone', Res.answer_raised]
      rfl
    case third =>
      obtain ⟨r, hr, hra, hrb, hrr⟩ := hthird
      have hnil : (State.updatePcb { s with pending := rest } a (s.leaving a)).othersRunning b ≠ [] :=
        List.ne_nil_of_mem ((others r.processID).mpr ⟨r, hr, rfl, hra, hrb, hrr⟩)
      obtain ⟨u, hu⟩ : ∃ u, (State.updatePcb { s with pending := rest } a (s.leaving a)).pcb? b = some u := by
        rw [lookup]
        split
        · exact ⟨_, congrArg (Option.map _) hq⟩
        · exact ⟨q, hq⟩
      refine ⟨_, ?_, others⟩
      rw [hstep, dispatchStart_inconsistent _ b w u hu hnil, Res.answer_raised]
      rfl

/-! ### The switch that keeps the registers -/

/-- Two machines that differ in OUT and the parameters, and not in their notices. -/
def SameButOutConfig (s t : State) : Prop :=
  (∀ c, { s with out := [], config := c } = { t with out := [], config := c }) ∧ notices s.out = notices t.out

/-- A start does not look at OUT or the parameters. -/
theorem dispatchStart_sameButOutConfig (n : Nat) (w : Window) (s : State) {out : List Event} (c : Config)
    (h : notices out = notices s.out) :
    SameButOutConfig (dispatchStart n w { s with out := out, config := c }).state (dispatchStart n w s).state := by
  cases hp : s.pcb? n with
  | none =>
    rw [dispatchStart_unknown s n w hp, dispatchStart_unknown { s with out := out, config := c } n w hp]
    exact ⟨fun _ => rfl, h⟩
  | some p =>
    by_cases ho : s.othersRunning n = []
    · rw [dispatchStart_ok s n w p hp ho, dispatchStart_ok { s with out := out, config := c } n w p hp ho]
      exact ⟨fun _ => rfl, (startPcb_notices p w _).trans (h.trans (startPcb_notices p w s).symm)⟩
    · rw [dispatchStart_inconsistent s n w p hp ho,
        dispatchStart_inconsistent { s with out := out, config := c } n w p hp ho]
      exact ⟨fun _ => rfl, h⟩

/-- In faithful mode the demotion of a PCB just saved RUNNING is, for a RUNNING one, the demotion of corrected mode. -/
theorem leaving_synced {m s : State} {p : Pcb} (hm : m.config.switchSave = .faithful)
    (hs : s.config.switchSave = .corrected) (he : s.isExecuting = true) (hrun : p.processState = .running) :
    m.leaving s.pid (s.synced p) = s.leaving s.pid p := by
  simp [State.leaving, State.synced, State.save, Pcb.inState, hm, hs, he, hrun]

/-- The machine that DISPATCH_SYNC leaves, the parameters and OUT being any. -/
def State.afterSync (s : State) (c : Config) (out : List Event) : State :=
  { s with pt := (s.updatePcb s.pid s.synced).pt, config := c, out := out }

/-- With the current PCB RUNNING and PIDs unique, demoting without a save after a sync and demoting with a save make the same
table. -/
theorem switchOut_afterSync {s : State} {c : Config} {out : List Event} {p : Pcb} (hc : c.switchSave = .faithful)
    (hs : s.config.switchSave = .corrected) (he : s.isExecuting = true) (hfound : s.pcb? s.pid = some p)
    (hrun : p.processState = .running) (hunique : (s.pt.map Pcb.processID).Nodup) :
    (s.afterSync c out).updatePcb s.pid ((s.afterSync c out).leaving s.pid) =
      { s with pt := (s.updatePcb s.pid (s.leaving s.pid)).pt, config := c, out := out } := by
  refine congrArg (fun pt => { s with pt := pt, config := c, out := out }) ?_
  rw [State.afterSync, State.updatePcb_pt, State.updatePcb_pt, List.map_map]
  refine List.map_congr_left fun r hr => ?_
  by_cases hid : r.processID = s.pid
  · obtain rfl := List.inj_on_of_nodup_map hunique hr (State.pcb?_mem hfound) (hid.trans (State.pcb?_some_pid hfound).symm)
    rw [Function.comp_apply, if_pos hid, if_pos hid]
    exact (if_pos hid).trans (leaving_synced hc hs he hrun)
  · rw [Function.comp_apply, if_neg hid, if_neg hid, if_neg hid]

/-- Settles O50: both ways start the incoming process from the same table, and a start does not look at OUT, where the
notifications are, or at the parameters. -/
theorem syncThenFaithfulSwitchIsTheCorrectedSwitch : Obligations.SyncThenFaithfulSwitchIsTheCorrectedSwitch := by
  intro s b w p hlive he hfound hrun hunique
  have hsync := step_dispatchSync (s := { s with
    config := { s.config with switchSave := .faithful }
    pending := [.dispatchSync, .dispatchSwitch (some s.pid) b w] }) hlive rfl
  have hfaithful := step_dispatchSwitch_some (s := State.afterSync { s with pending := [.dispatchSwitch (some s.pid) b w] }
    { s.config with switchSave := .faithful } (s.out ++ [.processTableChanged])) hlive rfl
    ((State.pcb?_updatePcb s s.pid s.pid s.synced fun _ => rfl).trans ((if_pos rfl).trans (congrArg (Option.map _) hfound)))
  have hcorrected := step_dispatchSwitch_some (s := { s with
    config := { s.config with switchSave := .corrected }
    pending := [.dispatchSwitch (some s.pid) b w] }) hlive rfl hfound
  have htable := switchOut_afterSync (c := { s.config with switchSave := .faithful })
    (out := s.out ++ [.processTableChanged])
    (s := { s with config := { s.config with switchSave := .corrected }, pending := [] }) rfl rfl he hfound hrun hunique
  have hsame := dispatchStart_sameButOutConfig b w
    (State.updatePcb { s with config := { s.config with switchSave := .corrected }, pending := [] } s.pid
      (State.leaving { s with config := { s.config with switchSave := .corrected }, pending := [] } s.pid))
    { s.config with switchSave := .faithful } (notices_append_processTableChanged s.out)
  exact ⟨_, _, (run_next 1 _ _ hsync).trans
      (run_next 0 _ _ (hfaithful.trans (congrArg (fun u => (dispatchStart b w u).answer) htable))),
    run_next 0 _ _ hcorrected, hsame.1 s.config, hsame.2⟩

end Sys2Proof.Machine
end

section
/-! What a step can do to the control state (R47, R48) and to the process table (R236), over all transactions. -/

namespace Sys2Proof

/-- The instructions that clear isExecuting: BRK and an unknown one. -/
def Instr.halts : Instr → Bool
  | .brk => true
  | .unknown _ => true
  | _ => false

/-- No instruction read by this shape halts. -/
def Shape.NeverHalts : Shape → Prop
  | .none i => i.halts = false
  | .one mk => ∀ v, (mk v).halts = false
  | .two mk => ∀ lo hi, (mk lo hi).halts = false

/-- The opcode map gives a halting instruction to the byte 0x00 and outside its rows only. -/
theorem decodeOpcode_neverHalts (ir : MaybeByte) (hbrk : ir ≠ some 0x00)
    (hunknown : decodeOpcode ir ≠ .none (.unknown ir)) : (decodeOpcode ir).NeverHalts := by
  cases ir with
  | none => exact absurd rfl hunknown
  | some b =>
    rcases opcode_cases b with hb | hb
    · exact absurd (decodeOpcode_illegal b hb) hunknown
    · clear hunknown
      revert hbrk
      revert b
      simp only [List.forall_mem_cons]
      exact ⟨fun _ _ => rfl, fun _ _ _ => rfl, fun _ _ _ => rfl, fun _ _ _ => rfl, fun _ _ => rfl, fun _ _ _ => rfl,
        fun _ _ => rfl, fun _ _ _ => rfl, fun _ => rfl, fun h => absurd rfl h, fun _ _ _ => rfl, fun _ _ _ => rfl,
        fun _ _ _ => rfl, fun _ => rfl, nofun⟩

end Sys2Proof

namespace Sys2Proof.Machine

/-! ### The TICK that halts the CPU -/

theorem fetchOperands_neverHalts {shape : Shape} (hshape : shape.NeverHalts) {s t : State} {i : Instr}
    (h : fetchOperands shape s = .val i t) : i.halts = false := by
  cases shape with
  | none j =>
    obtain ⟨rfl, -⟩ := Res.val.inj h
    exact hshape
  | one mk =>
    rw [fetchOperands] at h
    cases hv : next8 s with
    | raised u => simp [hv] at h
    | val v u =>
      rw [hv, Res.bind_val] at h
      exact (Res.val.inj h).1 ▸ hshape v
  | two mk =>
    rw [fetchOperands] at h
    cases hlo : next8 s with
    | raised u => simp [hlo] at h
    | val lo u =>
      rw [hlo, Res.bind_val] at h
      cases hhi : next8 u with
      | raised u => simp [hhi] at h
      | val hi u =>
        rw [hhi, Res.bind_val] at h
        exact (Res.val.inj h).1 ▸ hshape lo hi

/-- The fetch faults on the opcode, or reads the operand bytes that the opcode in IR asks for. -/
theorem fetchInstr_cases (s : State) :
    (∃ f, fetchInstr s = .raised (s.raise f)) ∨
      ∃ ir out, fetchInstr s = fetchOperands (decodeOpcode ir) { s with ir := ir, out := out } := by
  rcases memRead_adds_events (some s.pc) s with ⟨f, h⟩ | ⟨ir, out, h⟩
  · exact .inl ⟨f, by rw [fetchInstr, fetch, h]; rfl⟩
  · exact .inr ⟨ir, out, by rw [fetchInstr, fetch, h]; rfl⟩

/-- The work of an instruction and the end of its cycle keep IR, and isExecuting too if it does not halt. -/
theorem endTick_exec_keeps {i : Instr} {s t : State} (h : endTick (exec i s) = .next t) :
    t.ir = s.ir ∧ (i.halts = false → t.isExecuting = s.isExecuting) := by
  obtain ⟨u, hu⟩ := execAnswersANextStateAlways i s
  obtain ⟨hir, -, -, -, -, hexec, -⟩ := eachRegisterAndCellHasItsOwnWriters i s u hu
  rw [hu, endTick_next] at h
  obtain ⟨pc, out, faults, rfl⟩ := endCycle_streamsTo h
  refine ⟨hir, fun hi => ?_⟩
  by_contra hne
  rcases hexec hne with rfl | ⟨ir, rfl⟩ <;> cases hi

/-- A TICK halts the CPU only by BRK or an unknown opcode, which is then in IR. -/
theorem tick_halts {s t : State} (h : tick s = .next t) (he : s.isExecuting = true) (hhalt : t.isExecuting = false) :
    t.ir = some 0x00 ∨ decodeOpcode t.ir = .none (.unknown t.ir) := by
  rcases fetchInstr_cases s with ⟨f, hfetch⟩ | ⟨ir, out, hfetch⟩
  · rw [tick_raised s _ he hfetch] at h
    obtain rfl := Host.Outcome.next.inj h
    exact absurd (he.symm.trans hhalt) nofun
  · obtain ⟨pc, out', faults, hstate⟩ := fetchOperands_streamsTo (decodeOpcode ir) { s with ir := ir, out := out }
    cases hread : fetchOperands (decodeOpcode ir) { s with ir := ir, out := out } with
    | raised u =>
      rw [hread] at hstate
      obtain rfl : u = _ := hstate
      rw [tick_raised s _ he (hfetch.trans hread)] at h
      obtain rfl := Host.Outcome.next.inj h
      exact absurd (he.symm.trans hhalt) nofun
    | val i u =>
      rw [hread] at hstate
      obtain rfl : u = _ := hstate
      rw [tick_run s _ i he (hfetch.trans hread)] at h
      obtain ⟨hir, hkeeps⟩ := endTick_exec_keeps h
      rw [hir]
      by_contra hnone
      obtain ⟨hbrk, hunknown⟩ := not_or.mp hnone
      have hi := fetchOperands_neverHalts (decodeOpcode_neverHalts ir hbrk hunknown) hread
      exact absurd (he.symm.trans ((hkeeps hi).symm.trans hhalt)) nofun

/-! ### The control state -/

/-- What the transaction `c` may do to isExecuting, PID and the parameters (R47, R48, R66). -/
structure ControlWrites (c : Command) (s t : State) : Prop where
  starts : s.isExecuting = false → t.isExecuting = true →
    (∃ pid w, c = .dispatchStart pid w) ∨ ∃ out inc w, c = .dispatchSwitch out inc w
  stops : s.isExecuting = true → t.isExecuting = false →
    (c = .tick ∧ (t.ir = some 0x00 ∨ decodeOpcode t.ir = .none (.unknown t.ir))) ∨
    c = .dispatchStop s.pid ∨ c = .dispatchEnd s.pid ∨ c = .cpuInit ∨ c = .reset
  pid : t.pid ≠ s.pid →
    (∃ pid w, c = .dispatchStart pid w) ∨ (∃ out inc w, c = .dispatchSwitch out inc w) ∨
    (t.pid = 0 ∧ (c = .cpuInit ∨ c = .reset))
  config : t.config = s.config

/-- A transaction that leaves the control state alone. -/
theorem ControlWrites.of_kept {c : Command} {s t : State} (he : t.isExecuting = s.isExecuting) (hpid : t.pid = s.pid)
    (hconfig : t.config = s.config) : ControlWrites c s t where
  starts h k := absurd (h.symm.trans (he.symm.trans k)) nofun
  stops h k := absurd (h.symm.trans (he.symm.trans k)) nofun
  pid h := absurd hpid h
  config := hconfig

/-- A start keeps the parameters and never stops the CPU. -/
theorem dispatchStart_keeps_config_executing (n : Nat) (w : Window) (s : State) :
    (dispatchStart n w s).state.config = s.config ∧
      (s.isExecuting = true → (dispatchStart n w s).state.isExecuting = true) := by
  rcases dispatchStart_cases s n w with ⟨-, h⟩ | ⟨p, -, -, h⟩ | ⟨-, h⟩ <;> rw [h]
  · exact ⟨rfl, id⟩
  · exact ⟨rfl, fun _ => rfl⟩
  · exact ⟨rfl, id⟩

theorem dispatchSwitch_keeps_config_executing (out : Option Nat) (n : Nat) (w : Window) (s : State) :
    (dispatchSwitch out n w s).state.config = s.config ∧
      (s.isExecuting = true → (dispatchSwitch out n w s).state.isExecuting = true) := by
  rcases dispatchSwitch_cases out n w s with ⟨-, h⟩ | ⟨o, -, -, h⟩ | ⟨o, p, -, -, h⟩ <;> rw [h]
  · exact dispatchStart_keeps_config_executing n w s
  · exact ⟨rfl, id⟩
  · exact dispatchStart_keeps_config_executing n w (s.updatePcb o (switchOut s))

/-- DISPATCH_STOP and DISPATCH_END stop the CPU if they name the current process, and do no more to the control state. -/
theorem endAs_controlWrites {c : Command} {final : ProcessState} {n : Nat} (s : State)
    (hc : c = .dispatchStop n ∨ c = .dispatchEnd n) : ControlWrites c s (endAs final n s).state := by
  rcases endAs_cases final n s with ⟨-, h⟩ | ⟨p, -, h⟩ <;> rw [h]
  · exact .of_kept rfl rfl rfl
  · by_cases hn : n = s.pid
    · rw [if_pos hn]
      subst hn
      exact ⟨nofun, fun _ _ => .inr (hc.elim .inl fun h => .inr (.inl h)), fun h => absurd rfl h, rfl⟩
    · rw [if_neg hn]
      exact .of_kept rfl rfl rfl

theorem perform_controlWrites (c : Command) {s t : State} (ht : perform c s = .next t) : ControlWrites c s t := by
  have accessor {r : Res Unit} (hr : AccessorFrame s r.state) (ht : r.answer = .next t) : ControlWrites c s t :=
    r.answer_next t ht ▸ .of_kept hr.isExecuting hr.pid hr.config
  cases c with
  | tick =>
    have hkeeps : (t.isExecuting = true → s.isExecuting = true) ∧ t.pid = s.pid ∧ t.config = s.config := by
      obtain ⟨u, hu, rfl | ⟨f, rfl⟩⟩ := tick_frame ht
      · exact ⟨hu.isExecuting, hu.pid, hu.config⟩
      · exact ⟨hu.isExecuting, hu.pid, hu.config⟩
    obtain ⟨hexec, hpid, hconfig⟩ := hkeeps
    exact ⟨fun h k => absurd (h.symm.trans (hexec k)) nofun, fun h k => .inl ⟨rfl, tick_halts ht h k⟩,
      fun h => absurd hpid h, hconfig⟩
  | cpuInit =>
    obtain rfl : s.cpuInit = t := by simpa [perform] using ht
    exact ⟨nofun, fun _ _ => .inr (.inr (.inr (.inl rfl))), fun _ => .inr (.inr ⟨rfl, .inl rfl⟩), rfl⟩
  | reset =>
    obtain rfl : s.resetBlock = t := by simpa [perform] using ht
    exact ⟨by simp, fun _ _ => .inr (.inr (.inr (.inr rfl))), fun _ => .inr (.inr ⟨by simp, .inr rfl⟩), by simp⟩
  | dispatchStart n w =>
    obtain rfl := Res.answer_next _ t ht
    obtain ⟨hconfig, hexec⟩ := dispatchStart_keeps_config_executing n w s
    exact ⟨fun _ _ => .inl ⟨n, w, rfl⟩, fun h k => absurd ((hexec h).symm.trans k) nofun, fun _ => .inl ⟨n, w, rfl⟩, hconfig⟩
  | dispatchSync =>
    obtain rfl := Res.answer_next _ t ht
    exact .of_kept rfl rfl rfl
  | dispatchStop n => exact Res.answer_next _ t ht ▸ endAs_controlWrites s (.inl rfl)
  | dispatchEnd n => exact Res.answer_next _ t ht ▸ endAs_controlWrites s (.inr rfl)
  | dispatchSwitch out n w =>
    obtain rfl := Res.answer_next _ t ht
    obtain ⟨hconfig, hexec⟩ := dispatchSwitch_keeps_config_executing out n w s
    exact ⟨fun _ _ => .inr ⟨out, n, w, rfl⟩, fun h k => absurd ((hexec h).symm.trans k) nofun,
      fun _ => .inr (.inl ⟨out, n, w, rfl⟩), hconfig⟩
  | accUseSegment b l =>
    obtain rfl : s.useSegment ⟨b, l⟩ = t := by simpa [perform] using ht
    exact .of_kept rfl rfl rfl
  | accGet i => exact accessor (accGet_frame i s) ht
  | accSet i v => exact accessor (accSet_frame i v s) ht
  | accGetArray a b => exact accessor (accGetArray_frame a b s) ht
  | accSetArray a data => exact accessor (accSetArray_frame a data s) ht
  | ptCreate p =>
    obtain ⟨-, -, -, rfl⟩ := ptCreate_next ht
    exact .of_kept rfl rfl rfl
  | ptSetState n st =>
    obtain ⟨-, -, rfl⟩ := ptSetState_next ht
    exact .of_kept rfl rfl rfl
  | ptRemove n =>
    obtain ⟨-, rfl⟩ := ptRemove_next ht
    exact .of_kept rfl rfl rfl

/-- Settles O52: the queue is no part of the control state, and every transaction writes it as its own row says. -/
theorem controlStateHasItsOwnWriters : Obligations.ControlStateHasItsOwnWriters := by
  intro s t ht
  have hwrites : ControlWrites s.nextCommand s t := by
    rcases step_cases s t ht with ⟨-, -, hc, ht⟩ | ⟨rest, -, -, ht⟩
    · exact hc ▸ perform_controlWrites .tick ht
    · exact { perform_controlWrites (s := { s with pending := rest }) _ ht with }
  exact ⟨hwrites.starts, hwrites.stops, hwrites.pid, hwrites.config, step_next_live s t ht⟩

end Sys2Proof.Machine
end

section
/-! What a step can do to the process table (R236), over all transactions. -/

namespace Sys2Proof.Machine

/-- The changes of the state of the PCB `p` to `st` that R236 gives the transaction `c` on `s`. -/
def StateChange (c : Command) (s : State) (p : Pcb) (st : ProcessState) : Prop :=
  (p.processState = .new ∧ st = .ready ∧ c = .ptSetState p.processID .ready) ∨
  (st = .running ∧ ((∃ w, c = .dispatchStart p.processID w) ∨ ∃ out w, c = .dispatchSwitch out p.processID w)) ∨
  (p.processID = s.pid ∧ c = .dispatchSync ∧ st = if s.isExecuting then .running else .done) ∨
  (st = .stopped ∧ c = .dispatchStop p.processID) ∨
  (st = .done ∧ c = .dispatchEnd p.processID) ∨
  (p.processState = .running ∧ st = .ready ∧ ∃ inc w, c = .dispatchSwitch (some p.processID) inc w)

/-- What R236 lets the transaction `c` do to the table. -/
structure TableWrites (c : Command) (s t : State) : Prop where
  changed : ∀ p ∈ s.pt, ∀ q ∈ t.pt, p.processID = q.processID → p.processState ≠ q.processState →
    StateChange c s p q.processState
  created : ∀ q ∈ t.pt, (∀ p ∈ s.pt, p.processID ≠ q.processID) → q.processState = .new ∧ c = .ptCreate q
  removed : ∀ p ∈ s.pt, (∀ q ∈ t.pt, q.processID ≠ p.processID) → c = .ptRemove p.processID ∨ c = .reset

/-- Every PCB of `t` is one of `s` at its place, with the same PID, and with the same state or one that `allowed` gives it. -/
def PcbsChange (allowed : Pcb → ProcessState → Prop) (s t : State) : Prop :=
  ∃ g : Pcb → Pcb, t.pt = s.pt.map g ∧ (∀ p, (g p).processID = p.processID) ∧
    ∀ p ∈ s.pt, (g p).processState = p.processState ∨ allowed p (g p).processState

theorem PcbsChange.of_eq {allowed : Pcb → ProcessState → Prop} {s t : State} (h : t.pt = s.pt) : PcbsChange allowed s t :=
  ⟨id, by rw [h, List.map_id], fun _ => rfl, fun _ _ => .inl rfl⟩

theorem PcbsChange.of_updatePcb {allowed : Pcb → ProcessState → Prop} {s t : State} {n : Nat} {f : Pcb → Pcb}
    (ht : t.pt = (s.updatePcb n f).pt) (hid : ∀ p, (f p).processID = p.processID)
    (h : ∀ p ∈ s.pt, p.processID = n → (f p).processState = p.processState ∨ allowed p (f p).processState) :
    PcbsChange allowed s t := by
  refine ⟨fun p => if p.processID = n then f p else p, ht, fun p => ?_, fun p hp => ?_⟩
  · dsimp only
    split
    · exact hid p
    · rfl
  · dsimp only
    split
    · exact h p hp ‹_›
    · exact .inl rfl

/-- What is allowed may be put in other words. -/
theorem PcbsChange.imp {P Q : Pcb → ProcessState → Prop} {s t : State} (h : PcbsChange P s t) (k : ∀ p st, P p st → Q p st) :
    PcbsChange Q s t := by
  obtain ⟨g, ht, hid, hg⟩ := h
  exact ⟨g, ht, hid, fun p hp => (hg p hp).imp_right (k p _)⟩

/-- One change after another, the second allowed whatever the first did. -/
theorem PcbsChange.trans {allowed : Pcb → ProcessState → Prop} {s t u : State}
    (h : PcbsChange allowed s t) (k : PcbsChange (fun r st => ∀ p, p.processID = r.processID → allowed p st) t u) :
    PcbsChange allowed s u := by
  obtain ⟨g, ht, hid, hg⟩ := h
  obtain ⟨k, hu, hid', hk⟩ := k
  refine ⟨k ∘ g, by rw [hu, ht, List.map_map], fun p => (hid' _).trans (hid p), fun p hp => ?_⟩
  rcases hk (g p) (ht ▸ List.mem_map_of_mem hp) with hsame | hnew
  · rw [Function.comp_apply, hsame]
    exact hg p hp
  · exact .inr (hnew p (hid p).symm)

/-- With unique PIDs, changes of PCBs in their places that `c` is allowed are all that `c` may do. -/
theorem PcbsChange.tableWrites {c : Command} {s t : State} (hunique : (s.pt.map Pcb.processID).Nodup)
    (h : PcbsChange (StateChange c s) s t) : TableWrites c s t := by
  obtain ⟨g, ht, hid, hg⟩ := h
  refine ⟨fun p hp q hq heq hne => ?_, fun q hq hnone => ?_, fun p hp hnone => ?_⟩
  · obtain ⟨r, hr, rfl⟩ := List.mem_map.mp (ht ▸ hq)
    obtain rfl := List.inj_on_of_nodup_map hunique hp hr (heq.trans (hid r))
    exact (hg p hp).resolve_left hne.symm
  · obtain ⟨r, hr, rfl⟩ := List.mem_map.mp (ht ▸ hq)
    exact absurd (hid r).symm (hnone r hr)
  · exact absurd (hid p) (hnone (g p) (ht ▸ List.mem_map_of_mem hp))

/-- A start may change the state of its PCB alone, to RUNNING. -/
theorem dispatchStart_pcbsChange (n : Nat) (w : Window) (s : State) :
    PcbsChange (fun p st => p.processID = n ∧ st = .running) s (dispatchStart n w s).state := by
  rcases dispatchStart_cases s n w with ⟨-, h⟩ | ⟨p, hp, -, h⟩ | ⟨-, h⟩ <;> rw [h]
  · exact .of_eq rfl
  · exact .of_updatePcb (n := n) (f := Pcb.inState .running) (by rw [← State.pcb?_some_pid hp]; rfl) (fun _ => rfl)
      fun p _ hn => .inr ⟨hn, rfl⟩
  · exact .of_eq rfl

/-- A switch demotes its outgoing PCB if RUNNING, and starts its incoming one. -/
theorem dispatchSwitch_pcbsChange (out : Option Nat) (n : Nat) (w : Window) (s : State) :
    PcbsChange (StateChange (.dispatchSwitch out n w) s) s (dispatchSwitch out n w s).state := by
  have starts (u : State) : PcbsChange (fun r st => ∀ p : Pcb, p.processID = r.processID →
      StateChange (.dispatchSwitch out n w) s p st) u (dispatchStart n w u).state := by
    exact (dispatchStart_pcbsChange n w u).imp fun r st ⟨hn, hrun⟩ p hp =>
      .inr (.inl ⟨hrun, .inr ⟨out, w, by rw [hp, hn]⟩⟩)
  rcases dispatchSwitch_cases out n w s with ⟨-, h⟩ | ⟨o, -, -, h⟩ | ⟨o, p, rfl, -, h⟩ <;> rw [h]
  · exact (PcbsChange.of_eq rfl).trans (starts s)
  · exact .of_eq rfl
  · rw [updatePcb_switchOut]
    refine PcbsChange.trans (.of_updatePcb rfl (leaving_processID s o) fun r _ hr => ?_) (starts _)
    subst hr
    by_cases hrun : r.processState = .running
    · exact .inr (.inr (.inr (.inr (.inr (.inr ⟨hrun, if_pos hrun, n, w, rfl⟩)))))
    · exact .inl (if_neg hrun)

/-- DISPATCH_STOP and DISPATCH_END may change the state of their PCB alone. -/
theorem endAs_pcbsChange {final : ProcessState} {n : Nat} {s : State} :
    PcbsChange (fun p st => p.processID = n ∧ st = final) s (endAs final n s).state := by
  rcases endAs_cases final n s with ⟨-, h⟩ | ⟨p, -, h⟩ <;> rw [h]
  · exact .of_eq rfl
  · have halted : (if n = s.pid then s.halt else s).pt = s.pt := by split <;> rfl
    exact .of_updatePcb (n := n) (f := Pcb.inState final) (congrArg (List.map _) halted) (fun _ => rfl)
      fun p _ hn => .inr ⟨hn, rfl⟩

theorem perform_tableWrites (c : Command) {s t : State} (hunique : (s.pt.map Pcb.processID).Nodup)
    (ht : perform c s = .next t) : TableWrites c s t := by
  have accessor {r : Res Unit} (hr : AccessorFrame s r.state) (ht : r.answer = .next t) : TableWrites c s t :=
    r.answer_next t ht ▸ (PcbsChange.of_eq hr.pt).tableWrites hunique
  cases c with
  | tick => exact (PcbsChange.of_eq (tick_keeps_pt_pending ht).1).tableWrites hunique
  | cpuInit =>
    obtain rfl : s.cpuInit = t := by simpa [perform] using ht
    exact (PcbsChange.of_eq rfl).tableWrites hunique
  | reset =>
    obtain rfl : s.resetBlock = t := by simpa [perform] using ht
    exact ⟨by simp, by simp, fun _ _ _ => .inr rfl⟩
  | dispatchStart n w =>
    obtain rfl := Res.answer_next _ t ht
    exact PcbsChange.tableWrites hunique <| (dispatchStart_pcbsChange n w s).imp fun p st ⟨hn, hst⟩ =>
      .inr (.inl ⟨hst, .inl ⟨w, by rw [hn]⟩⟩)
  | dispatchSync =>
    obtain rfl := Res.answer_next _ t ht
    exact PcbsChange.tableWrites hunique <| .of_updatePcb (f := s.synced) rfl (fun _ => rfl) fun p _ hn =>
      .inr (.inr (.inr (.inl ⟨hn, rfl, rfl⟩)))
  | dispatchStop n =>
    obtain rfl := Res.answer_next _ t ht
    exact PcbsChange.tableWrites hunique <| endAs_pcbsChange.imp fun p st ⟨hn, hst⟩ =>
      .inr (.inr (.inr (.inl ⟨hst, by rw [hn]⟩)))
  | dispatchEnd n =>
    obtain rfl := Res.answer_next _ t ht
    exact PcbsChange.tableWrites hunique <| endAs_pcbsChange.imp fun p st ⟨hn, hst⟩ =>
      .inr (.inr (.inr (.inr (.inl ⟨hst, by rw [hn]⟩))))
  | dispatchSwitch out n w =>
    obtain rfl := Res.answer_next _ t ht
    exact (dispatchSwitch_pcbsChange out n w s).tableWrites hunique
  | accUseSegment b l =>
    obtain rfl : s.useSegment ⟨b, l⟩ = t := by simpa [perform] using ht
    exact (PcbsChange.of_eq rfl).tableWrites hunique
  | accGet i => exact accessor (accGet_frame i s) ht
  | accSet i v => exact accessor (accSet_frame i v s) ht
  | accGetArray a b => exact accessor (accGetArray_frame a b s) ht
  | accSetArray a data => exact accessor (accSetArray_frame a data s) ht
  | ptCreate r =>
    obtain ⟨hfresh, hnew, -, rfl⟩ := ptCreate_next ht
    refine ⟨fun p hp q hq heq hne => ?_, fun q hq hnone => ?_, fun p hp hnone => ?_⟩
    · rcases List.mem_append.mp hq with hq | hq
      · exact absurd (congrArg Pcb.processState (List.inj_on_of_nodup_map hunique hp hq heq)) hne
      · exact absurd (List.mem_singleton.mp hq ▸ heq) (State.pcb?_eq_none.mp hfresh p hp)
    · rcases List.mem_append.mp hq with hq | hq
      · exact absurd rfl (hnone q hq)
      · obtain rfl := List.mem_singleton.mp hq
        exact ⟨hnew, rfl⟩
    · exact absurd rfl (hnone p (List.mem_append_left _ hp))
  | ptSetState n st =>
    obtain ⟨rfl, ⟨r, hr, hnew⟩, rfl⟩ := ptSetState_next ht
    refine PcbsChange.tableWrites hunique (.of_updatePcb rfl (fun _ => rfl) fun p hp hn => ?_)
    obtain rfl := List.inj_on_of_nodup_map hunique hp (State.pcb?_mem hr) (hn.trans (State.pcb?_some_pid hr).symm)
    exact .inr (.inl ⟨hnew, rfl, by rw [hn]⟩)
  | ptRemove n =>
    obtain ⟨-, rfl⟩ := ptRemove_next ht
    refine ⟨fun p hp q hq heq hne => ?_, fun q hq hnone => ?_, fun p hp hnone => ?_⟩
    · exact absurd (congrArg Pcb.processState (List.inj_on_of_nodup_map hunique hp (List.mem_filter.mp hq).1 heq)) hne
    · exact absurd rfl (hnone q (List.mem_filter.mp hq).1)
    · by_cases hn : p.processID = n
      · exact .inl (by rw [hn])
      · exact absurd rfl (hnone p (List.mem_filter.mpr ⟨hp, bne_iff_ne.mpr hn⟩))

/-- Settles O51: the unique PIDs of the invariant make the PCB of a PID before and after the step the same one, and every
transaction changes it as its own row says. -/
theorem processStatesChangeOnlyAsTheTableSays : Obligations.ProcessStatesChangeOnlyAsTheTableSays := by
  intro s t hinv ht
  have hwrites : TableWrites s.nextCommand s t := by
    rcases step_cases s t ht with ⟨-, -, hc, ht⟩ | ⟨rest, -, -, ht⟩
    · exact hc ▸ perform_tableWrites .tick hinv.uniquePids ht
    · exact { perform_tableWrites (s := { s with pending := rest }) _ hinv.uniquePids ht with }
  exact ⟨hwrites.changed, hwrites.created, hwrites.removed⟩

end Sys2Proof.Machine
end
